-- ==== Sys2Proof/Word.lean ====
section
/-! DEFINITION. The word types of the engine and their plainest arithmetic (00_scope.md R14, R17, R19). -/

namespace Sys2Proof

/-- A host bus word and a command word: 32 bits (20_memory.md R60, 30_encoding.md R100). -/
abbrev Word := BitVec 32

/-- One byte of an image (20_memory.md R85). -/
abbrev Byte := BitVec 8

/-- A plane (SliceValue): 25 bits, bit `x + 5*y` being lane `(x, y)` (00_scope.md R14, R17). -/
abbrev Plane := BitVec 25

/-- `M25`, the 25 one bits (00_scope.md R19). -/
def m25 : Plane := 0x1FFFFFF#25

/-- Byte `k` (0..3) of a word: bits `8k+7:8k` (20_memory.md R67, R85). -/
def byteOf (w : Word) (k : Nat) : Byte := w.extractLsb' (8 * k) 8

/-- A word from its four bytes, byte 0 in the low end (20_memory.md R85). -/
def wordOf (b0 b1 b2 b3 : Byte) : Word := b3 ++ b2 ++ b1 ++ b0

end Sys2Proof
end

