-- ==== Sys2Proof/Config.lean ====
section
/-! DEFINITION. What a build of the engine fixes (00_scope.md R9 to R11), the answers the store can give
(20_memory.md R80, R81) and the free values that stand for answers nobody has listed. -/

namespace Sys2Proof

/-- The build parameter `TABLE_MODE` (00_scope.md R10). -/
inductive TableMode where
  | roundNoIota
  | fullPermutation
deriving DecidableEq, Repr, Inhabited

/-- The build parameters: `LOGW` in 0..6, `TABLE_MODE`, `roundIndexBase` (00_scope.md R9, R10, R11). -/
structure Build where
  logw : Fin 7
  mode : TableMode
  roundIndexBase : Nat
deriving DecidableEq, Repr, Inhabited

/-- The lane size `w = 2^LOGW`, which is the number of state planes (00_scope.md R9). -/
def Build.lanes (b : Build) : Nat := 2 ^ b.logw.val

/-- `NR_DEFAULT = 12 + 2*LOGW` (00_scope.md R12). -/
def Build.nrDefault (b : Build) : BitVec 8 := BitVec.ofNat 8 (12 + 2 * b.logw.val)

/-- What a failed save left under its key: nothing, the earlier content, or any byte string
(20_memory.md R81). `bytes len ws` is a string of `len` bytes: the image of the generated table cut
or padded to `len`, with the listed bytes written over it in order; every byte string is one of these (log 7). -/
inductive Leftover where
  | absent
  | earlier
  | bytes (len : Nat) (writes : List Host.Cell)
deriving DecidableEq, Repr, Inhabited

/-- An answer to `StoreSave` (20_memory.md R81). -/
inductive SaveAnswer where
  | ok
  | storageError (left : Leftover)
deriving DecidableEq, Repr, Inhabited

/-- Free value: whether the `n`-th answer of the store is a `ReadFailure`, where no listed draw says so
(20_memory.md R80; 93_implementation_defined.md U15; log 7). -/
opaque Config.freeReadFailure : Nat → Bool

/-- Free value: the `n`-th answer of the store to a save, where no listed draw says so
(20_memory.md R81; 93_implementation_defined.md U15, U16; log 7). -/
opaque Config.freeSaveAnswer : Nat → SaveAnswer

/-- DESIGN CHOICE (log 2): the build whose reset state is `State.reset`. It is the build of the spec's vectors
(95_test_vectors.md, Conventions): `LOGW = 0` and the defaults of 00_scope.md R10, R11. -/
def Config.build : Build := { logw := 0, mode := .roundNoIota, roundIndexBase := 0 }

end Sys2Proof
end

