-- ==== Sys2Proof/Machine/State.lean ====
section
/-! DEFINITION. The state of the machine as plain data (10_state.md R30 to R45), the reasons a step can stop, and the
state after reset (70_reset_and_hazards.md R290). -/

namespace Sys2Proof.Machine

/-- A plane register: its 25 bits and its written mark (10_state.md R31, R44). -/
structure PlaneReg where
  value : Plane
  written : Bool
deriving DecidableEq, Repr, Inhabited

/-- The codes of STATUS.ERR (60_exceptions.md R260). -/
inductive ErrCode where
  | none
  | illegalCommand
  | noLut
  | illegalOperand
  | notTabulated
  | alreadyTabulated
deriving DecidableEq, Repr, Inhabited

/-- The codes of STATUS.CST (10_state.md R39). -/
inductive CstCode where
  | none
  | hit
  | generated
  | corrupt
  | storageError
  | saved
deriving DecidableEq, Repr, Inhabited

/-- A byte string kept by the store (20_memory.md R80, R85): its length, and those of its bytes that differ from the
image of the generated table of its key, rising by offset (log 6). -/
structure Image where
  len : Nat
  cells : List Host.Cell
deriving DecidableEq, Repr, Inhabited

/-- The width of a host access (20_memory.md R63). -/
inductive Width where
  | w8
  | w16
  | w32
  | w64
deriving DecidableEq, Repr, Inhabited

/-- One access of the host's program: `RegRead(off)`, `RegWrite(off, v)`, or one turn of the loop that reads STATUS
until BUSY = 0 (20_memory.md R60, R63; 30_encoding.md R111). Offsets are relative to ENGINE_BASE (R60). -/
inductive HostOp where
  | read (off : Nat) (width : Width)
  | write (off : Nat) (width : Width) (v : Word)
  | wait
deriving DecidableEq, Repr, Inhabited

/-- A change the platform made to the image under one key between the engine's last store request and a reset
(20_memory.md R84; 95_test_vectors.md P6 line 8; log 11). -/
structure StoreEdit where
  key : BitVec 8
  content : Leftover
deriving DecidableEq, Repr, Inhabited

/-- Which agent moves next (44_system.md R241, R242), or a reset from outside (70_reset_and_hazards.md R293). -/
inductive Turn where
  | engine
  | host
  | reset (edits : List StoreEdit)
deriving DecidableEq, Repr, Inhabited

/-- The reasons a step stops (60_exceptions.md R268). Each is a host access whose outcome the spec calls unpredictable.
No command of the engine raises one. -/
inductive Fault where
  /-- A host access that is not 32 bits wide, not 4-byte aligned or not in the window (20_memory.md R63).
  Raised by the host's access. Safe: the hardware may go on where the model stops. -/
  | unadmittedAccess
  /-- A host access at a reserved offset (20_memory.md R64). Raised by the host's access. Safe, as above. -/
  | reservedAccess
  /-- A host access other than a STATUS read while BUSY = 1 (70_reset_and_hazards.md R301; decision D23; U14). Raised by
  the host's access. Safe, as above. -/
  | busyHazard
deriving DecidableEq, Repr

/-- The reasons the model gives a step no meaning. -/
inductive Refusal where
  /-- An instruction that has no meaning yet. No arm of `exec` answers it. Safe: the run stops. -/
  | notModelled (mnemonic : String)
deriving DecidableEq, Repr

/-- The state: the engine (10_state.md), the store (20_memory.md section 3), the host (30_encoding.md R111) and the
schedule (44_system.md R241). INVENTORY.md lists every field with its rule and its reset value. -/
structure State where
  /-- the build parameters, changed by no step (00_scope.md R9 to R11) -/
  build : Build
  /-- `S[0..w-1]` (10_state.md R32) -/
  planes : List PlaneReg
  /-- operand plane `A` (10_state.md R34) -/
  a : PlaneReg
  /-- operand plane `B` (10_state.md R34) -/
  b : PlaneReg
  /-- result plane `R` (10_state.md R35) -/
  r : PlaneReg
  /-- `CTRL.NR` (10_state.md R36) -/
  nr : BitVec 8
  /-- `STATUS.ERR` (10_state.md R38) -/
  err : ErrCode
  /-- `STATUS.CST` (10_state.md R39) -/
  cst : CstCode
  /-- the tabulated flag `TAB` (10_state.md R41) -/
  tab : Bool
  /-- the table round count `TNR` (10_state.md R42) -/
  tnr : BitVec 8
  /-- `TBL`: the entries that differ from the generated table of this build and TNR, rising by index
  (10_state.md R40; log 5) -/
  tbl : List (Nat × Plane)
  /-- `PEND` (10_state.md R43) -/
  pend : Option Word
  /-- the store: the image kept under each round count, rising by key (20_memory.md R80, R83; log 8) -/
  store : List (Nat × Option Image)
  /-- the model's own: the store's answers to come to a retrieve of an existing image, true for `ReadFailure`
  (20_memory.md R80; log 7) -/
  retrieveDraws : List Bool
  /-- the model's own: the store's answers to come to a save (20_memory.md R81; log 7) -/
  saveDraws : List SaveAnswer
  /-- the model's own: how many answers of the store have been taken; it selects the free value (log 7) -/
  asked : Nat
  /-- the host's program (10_state.md R33, 30_encoding.md R111) -/
  program : List HostOp
  /-- the host's position in its program (10_state.md R33) -/
  hostPos : Nat
  /-- the values the host has read, newest first (30_encoding.md R111; log 12) -/
  results : List Word
  /-- the model's own: the turns to come (44_system.md R241; log 1) -/
  schedule : List Turn
  /-- the busy window is open: the host has issued a command and has read no BUSY = 0 since
  (70_reset_and_hazards.md R300; log 15) -/
  busyWindow : Bool
  /-- the record of `fault BusyHazard` at an access the host made after the command was performed and before it read
  BUSY = 0, set and never cleared (70_reset_and_hazards.md R300, 60_exceptions.md R268; log 15) -/
  busyHazardSeen : Bool
  /-- the record of `fault UnwrittenRead`, set and never cleared (10_state.md R44, 60_exceptions.md R268; log 4) -/
  unwrittenRead : Bool
deriving DecidableEq, Repr

/-- DESIGN CHOICE (log 3): a plane register after reset holds 0, its mark clear; the spec leaves the value unspecified
(70_reset_and_hazards.md R290). -/
def PlaneReg.atReset : PlaneReg := { value := 0, written := false }

/-- The state of a build right after its first reset (70_reset_and_hazards.md R290, R291), with an empty store (log 8),
no draw listed, no host program loaded (log 9) and no turn listed. -/
def State.resetOf (build : Build) : State :=
  { build := build
    planes := List.replicate build.lanes PlaneReg.atReset
    a := PlaneReg.atReset
    b := PlaneReg.atReset
    r := PlaneReg.atReset
    nr := build.nrDefault
    err := .none
    cst := .none
    tab := false
    tnr := 0
    tbl := []
    pend := none
    store := []
    retrieveDraws := []
    saveDraws := []
    asked := 0
    program := []
    hostPos := 0
    results := []
    schedule := []
    busyWindow := false
    busyHazardSeen := false
    unwrittenRead := false }

/-- The machine right after reset, for the default build (70_reset_and_hazards.md R290; log 2). -/
def State.reset : State := State.resetOf Config.build

end Sys2Proof.Machine
end

