-- ==== Sys2Proof/Machine/Keccak.lean ====
section
/-! DEFINITION. The step functions on a state of `w` planes, bit by bit as the spec writes them: 40_plane.md R136,
41_steps.md R151 to R163, 42_rounds.md R180, R181, and the entry of the generated table, 43_lut.md R201. -/

namespace Sys2Proof.Machine

/-- `p⟨x,y⟩`, bit `x + 5*y` (00_scope.md R17), for `x`, `y` in 0..4. -/
def planeBit (p : Plane) (x y : Nat) : Bool := p.getLsbD (x + 5 * y)

/-- The plane whose bit `(x, y)` is `f x y` (00_scope.md R17). -/
def planeOf (f : Nat → Nat → Bool) : Plane := BitVec.ofFnLE fun k : Fin 25 => f (k.val % 5) (k.val / 5)

/-- `a[x,y,z] = S[z]⟨x,y⟩` (00_scope.md R18). -/
def stateBit (S : List Plane) (x y z : Nat) : Bool := planeBit (S.getD z 0) x y

/-- The state of `w` planes whose bit `(x, y, z)` is `f x y z` (00_scope.md R18). -/
def stateOf (w : Nat) (f : Nat → Nat → Nat → Bool) : List Plane :=
  (List.range w).map fun z => planeOf fun x y => f x y z

/-- `prot(p, n)⟨x,y⟩ = p⟨(x - n) mod 5, y⟩` (40_plane.md R136). -/
def prot (p : Plane) (n : Nat) : Plane := planeOf fun x y => planeBit p ((x + (5 - n % 5)) % 5) y

/-- Column parity `C[x,z]` (41_steps.md R151). -/
def columnParity (S : List Plane) (x z : Nat) : Bool :=
  stateBit S x 0 z ^^ stateBit S x 1 z ^^ stateBit S x 2 z ^^ stateBit S x 3 z ^^ stateBit S x 4 z

/-- θ (41_steps.md R151). -/
def theta (S : List Plane) : List Plane :=
  stateOf S.length fun x y z =>
    stateBit S x y z ^^ columnParity S ((x + 4) % 5) z ^^
      columnParity S ((x + 1) % 5) ((z + (S.length - 1)) % S.length)

/-- The raw ρ offsets, `r[x,y]` at place `x + 5*y` (41_steps.md R152). -/
def rhoOffsets : List Nat :=
  [0, 1, 190, 28, 91] ++ [36, 300, 6, 55, 276] ++ [3, 10, 171, 153, 231] ++ [105, 45, 15, 21, 136] ++
    [210, 66, 253, 120, 78]

/-- `r[x,y]` (41_steps.md R152). -/
def rhoOffset (x y : Nat) : Nat := rhoOffsets.getD (x + 5 * y) 0

/-- ρ: `a'[x,y,z] = a[x,y,(z - r[x,y]) mod w]` (41_steps.md R153). -/
def rho (S : List Plane) : List Plane :=
  stateOf S.length fun x y z =>
    stateBit S x y ((z + (S.length - rhoOffset x y % S.length)) % S.length)

/-- π: `a'[x,y,z] = a[(x + 3y) mod 5, x, z]` (41_steps.md R154). -/
def pi (S : List Plane) : List Plane :=
  stateOf S.length fun x y z => stateBit S ((x + 3 * y) % 5) x z

/-- χ on one plane (41_steps.md R157). -/
def chiPlane (p : Plane) : Plane :=
  planeOf fun x y => planeBit p x y ^^ (!planeBit p ((x + 1) % 5) y && planeBit p ((x + 2) % 5) y)

/-- χ (41_steps.md R157). -/
def chi (S : List Plane) : List Plane := S.map chiPlane

/-- Lane-complemented χ: `chi_plane(S[z] ^ mi) ^ mo` (41_steps.md R159). -/
def chic (S : List Plane) (mi mo : Plane) : List Plane := S.map fun p => chiPlane (p ^^^ mi) ^^^ mo

/-- One step of the round-constant register: `R <- [0] ++ R`, then `R[0]`, `R[4]`, `R[5]`, `R[6]` xor `R[8]`, then
`R[0..7]` (41_steps.md R162); bit `k` of the vector is `R[k]`. -/
def lfsrStep (r : BitVec 8) : BitVec 8 :=
  (r <<< 1) ^^^ (if r.getLsbD 7 then 0b01110001#8 else 0#8)

/-- The round-constant register after `n` steps from `[1,0,0,0,0,0,0,0]` (41_steps.md R162). -/
def lfsr : Nat → BitVec 8
  | 0 => 1#8
  | n + 1 => lfsrStep (lfsr n)

/-- `rc(t)` (41_steps.md R162). -/
def rc (t : Nat) : Bool := if t % 255 = 0 then true else (lfsr (t % 255)).getLsbD 0

/-- `RC_i[z]`: `rc(j + 7*i)` if `z = 2^j - 1` for some `j`, else 0 (41_steps.md R161). For `z` below `w = 2^LOGW` the `j`
found is at most LOGW. -/
def roundConstantBit (i z : Nat) : Bool :=
  match (List.range 7).find? fun j => z == 2 ^ j - 1 with
  | some j => rc (j + 7 * i)
  | none => false

/-- ι with round index `i`: `RC_i` into lane (0,0) (41_steps.md R161). -/
def iota (i : Nat) (S : List Plane) : List Plane :=
  stateOf S.length fun x y z => stateBit S x y z ^^ (x == 0 && y == 0 && roundConstantBit i z)

/-- `round_i` (42_rounds.md R180). -/
def roundI (i : Nat) (S : List Plane) : List Plane := iota i (chi (pi (rho (theta S))))

/-- `perm_nr`: `nr` rounds, the `k`-th with index `k + base` (42_rounds.md R181). -/
def perm (base : Nat) : Nat → List Plane → List Plane
  | 0, S => S
  | k + 1, S => roundI (k + base) (perm base k S)

/-- The round without ι, on the one plane of a `w = 1` state (43_lut.md R201, mode RoundNoIota). -/
def roundNoIota (s : Plane) : Plane := (chi (pi (rho (theta [s])))).getD 0 0

/-- `genTable(mode, nr)[s]` (43_lut.md R201). -/
def genEntry (build : Build) (nr : BitVec 8) (s : Plane) : Plane :=
  match build.mode with
  | .roundNoIota => roundNoIota s
  | .fullPermutation => (perm build.roundIndexBase nr.toNat [s]).getD 0 0

end Sys2Proof.Machine
end

