-- ==== Sys2Proof/Machine/Memory.lean ====
section
/-! DEFINITION. Sparse storage in one canonical form: a list of key and value pairs, keys strictly rising, no entry equal
to what an unlisted key reads as. The table memory, the bytes of an image and the store are held this way
(log 5, log 6, log 8). -/

namespace Sys2Proof.Machine

/-- The value under a key; `fill` is what an unlisted key reads as. -/
def Memory.read {β : Type} (fill : Nat → β) : List (Nat × β) → Nat → β
  | [], k => fill k
  | (a, v) :: m, k => if k = a then v else Memory.read fill m k

/-- An entry put in front, unless it is what the key reads as unlisted. -/
def Memory.consUnlessFill {β : Type} [DecidableEq β] (fill : Nat → β) (k : Nat) (v : β) (m : List (Nat × β)) : List (Nat × β) :=
  if v = fill k then m else (k, v) :: m

/-- A write that keeps the canonical form; writing what an unlisted key reads as removes the entry. -/
def Memory.write {β : Type} [DecidableEq β] (fill : Nat → β) : List (Nat × β) → Nat → β → List (Nat × β)
  | [], k, v => Memory.consUnlessFill fill k v []
  | (a, u) :: m, k, v =>
    if k < a then Memory.consUnlessFill fill k v ((a, u) :: m)
    else if k = a then Memory.consUnlessFill fill k v m
    else (a, u) :: Memory.write fill m k v

/-- The keys are strictly rising. -/
def Memory.rising {β : Type} : List (Nat × β) → Bool
  | [] => true
  | [_] => true
  | (a, _) :: (b, v) :: m => decide (a < b) && Memory.rising ((b, v) :: m)

/-- The canonical form: keys strictly rising and below `bound`, no entry equal to what an unlisted key reads as. -/
def Memory.wf {β : Type} [DecidableEq β] (fill : Nat → β) (bound : Nat) (m : List (Nat × β)) : Bool :=
  Memory.rising m && m.all (fun e => decide (e.1 < bound) && decide (e.2 ≠ fill e.1))

end Sys2Proof.Machine
end

