-- ==== Sys2Proof/Machine/Image.lean ====
section
/-! DEFINITION. Images of the table (20_memory.md R85 to R87). First the format as the spec writes it, over any table
and any byte string; then the same operations on the sparse images that State holds (log 6). -/

namespace Sys2Proof.Machine

/-! ## The format, literally -/

/-- `2^25`, the number of table entries (20_memory.md R70). -/
def entryCount : Nat := 33554432

/-- The length of an image in bytes (20_memory.md R85). -/
def imageLength : Nat := 134217740

/-- The word index of CHECK, byte offset 0x8000008 (20_memory.md R85). -/
def checkIndex : Nat := 33554434

/-- COUNT (20_memory.md R85). -/
def countWord : Word := 0x02000000#32

/-- DESC: the round count in bits 7:0, the table mode in bit 8 (20_memory.md R85, R86). -/
def descWord (mode : TableMode) (nr : BitVec 8) : Word :=
  match mode with
  | .roundNoIota => nr.setWidth 32
  | .fullPermutation => 0x100#32 ||| nr.setWidth 32

/-- The XOR of the first `n` entry words (20_memory.md R85). -/
def xorEntries (E : Nat → Word) : Nat → Word
  | 0 => 0
  | n + 1 => xorEntries E n ^^^ E n

/-- Word `k` of `Encode(T, nr, mode)` (20_memory.md R85, R86); entry `i` is `zext_32(T[i])`. -/
def encodeWord (mode : TableMode) (nr : BitVec 8) (T : Nat → Plane) (k : Nat) : Word :=
  if k = 0 then countWord
  else if k = 1 then descWord mode nr
  else if k < checkIndex then (T (k - 2)).setWidth 32
  else if k = checkIndex then
    countWord ^^^ descWord mode nr ^^^ xorEntries (fun i => (T i).setWidth 32) entryCount
  else 0

/-- Byte `o` of `Encode(T, nr, mode)`: words are little-endian (20_memory.md R85). -/
def encodeByte (mode : TableMode) (nr : BitVec 8) (T : Nat → Plane) (o : Nat) : Byte :=
  byteOf (encodeWord mode nr T (o / 4)) (o % 4)

/-- Word `k` of a byte string (20_memory.md R85). -/
def wordAt (bytes : Nat → Byte) (k : Nat) : Word :=
  wordOf (bytes (4 * k)) (bytes (4 * k + 1)) (bytes (4 * k + 2)) (bytes (4 * k + 3))

/-- The five checks of `Validate` on a byte string of length `len` (20_memory.md R87). -/
def validBytes (mode : TableMode) (nr : BitVec 8) (len : Nat) (bytes : Nat → Byte) : Prop :=
  len = imageLength ∧
  wordAt bytes 0 = countWord ∧
  ((wordAt bytes 1).extractLsb' 0 8 = nr ∧ (wordAt bytes 1).getLsbD 8 = (mode == .fullPermutation) ∧
    (wordAt bytes 1).extractLsb' 9 23 = 0#23) ∧
  (∀ i < entryCount, (wordAt bytes (i + 2)).extractLsb' 25 7 = 0#7) ∧
  wordAt bytes checkIndex =
    wordAt bytes 0 ^^^ wordAt bytes 1 ^^^ xorEntries (fun i => wordAt bytes (i + 2)) entryCount

/-- `T[i] = E[i][24:0]`, the table `Validate` returns (20_memory.md R87). -/
def tableOfBytes (bytes : Nat → Byte) (i : Nat) : Plane := (wordAt bytes (i + 2)).setWidth 25

/-! ## Sparse images -/

/-- Word `k` of the image of the generated table under round count `nr`, which the unlisted bytes of an image read as
(log 6). Its CHECK is `COUNT ^ DESC`: a generated table is a bijection and its entries XOR to 0 (95_test_vectors.md
V-T6 and the sentence after V-I4; proved in Laws/Image.lean). -/
def genWord (build : Build) (nr : BitVec 8) (k : Nat) : Word :=
  if k = 0 then countWord
  else if k = 1 then descWord build.mode nr
  else if k < checkIndex then (genEntry build nr (BitVec.ofNat 25 (k - 2))).setWidth 32
  else if k = checkIndex then countWord ^^^ descWord build.mode nr
  else 0

/-- What byte `o` of an image kept under round count `nr` reads as where the image does not list it (log 6). -/
def genByte (build : Build) (nr : BitVec 8) (o : Nat) : Byte := byteOf (genWord build nr (o / 4)) (o % 4)

/-- Byte `o` of an image kept under round count `nr`, for `o` below its length. -/
def Image.byte (build : Build) (nr : BitVec 8) (img : Image) (o : Nat) : Byte :=
  Memory.read (genByte build nr) img.cells o

/-- Word `k` of an image. -/
def Image.word (build : Build) (nr : BitVec 8) (img : Image) (k : Nat) : Word := wordAt (img.byte build nr) k

/-- The canonical form of an image: its cells lie below its length and none is what it reads as unlisted (log 6). -/
def Image.wf (build : Build) (nr : BitVec 8) (img : Image) : Bool := Memory.wf (genByte build nr) img.len img.cells

/-- One byte written over an image, ignored at or past its end. -/
def Image.setByte (build : Build) (nr : BitVec 8) (img : Image) (o : Nat) (v : Byte) : Image :=
  if o < img.len then { img with cells := Memory.write (genByte build nr) img.cells o v } else img

/-- Word `k` written over an image, little-endian (20_memory.md R85). -/
def Image.setWord (build : Build) (nr : BitVec 8) (img : Image) (k : Nat) (w : Word) : Image :=
  (List.range 4).foldl (fun img j => img.setByte build nr (4 * k + j) (byteOf w j)) img

/-- The byte string of `len` bytes with the listed bytes written over the image of the generated table (log 7). -/
def Image.ofWrites (build : Build) (nr : BitVec 8) (len : Nat) (writes : List Host.Cell) : Image :=
  writes.foldl (fun img c => img.setByte build nr c.1 c.2) { len := len, cells := [] }

/-- `Encode(T, nr, TABLE_MODE)` (20_memory.md R86) of a table given by the entries that differ from the generated table
of `nr`. CHECK changes by the XOR of those differences. -/
def encodeImage (build : Build) (nr : BitVec 8) (tbl : List (Nat × Plane)) : Image :=
  let body := tbl.foldl (fun img e => img.setWord build nr (e.1 + 2) (e.2.setWidth 32))
    ({ len := imageLength, cells := [] } : Image)
  let change := tbl.foldl
    (fun acc e => acc ^^^ (e.2 ^^^ genEntry build nr (BitVec.ofNat 25 e.1)).setWidth 32) (0 : Word)
  body.setWord build nr checkIndex (countWord ^^^ descWord build.mode nr ^^^ change)

/-- A list without a value equal to the one after it. -/
def dropRepeats : List Nat → List Nat
  | [] => []
  | [a] => [a]
  | a :: b :: t => if a = b then dropRepeats (b :: t) else a :: dropRepeats (b :: t)

/-- The entries of which an image lists some byte, rising. -/
def Image.listedEntries (img : Image) : List Nat :=
  (dropRepeats (img.cells.map fun c => c.1 / 4)).filterMap fun k =>
    if 2 ≤ k ∧ k < checkIndex then some (k - 2) else none

/-- `Validate(bytes, nr, TABLE_MODE)` (20_memory.md R87): the entries of the valid table that differ from the generated
table of `nr`, or none for Corrupt. Checks 4 and 5 look at the listed entries only: the others are those of the
generated table, whose words have bits 31:25 zero and XOR to 0 (log 6). -/
def validateImage (build : Build) (nr : BitVec 8) (img : Image) : Option (List (Nat × Plane)) :=
  let word := img.word build nr
  let change := img.listedEntries.foldl (fun acc i => acc ^^^ (word (i + 2) ^^^ genWord build nr (i + 2))) (0 : Word)
  if img.len = imageLength ∧ word 0 = countWord ∧ word 1 = descWord build.mode nr ∧
      (img.listedEntries.all fun i => (word (i + 2)).extractLsb' 25 7 == 0#7) = true ∧
      word checkIndex = word 0 ^^^ word 1 ^^^ change then
    some (img.listedEntries.map fun i => (i, (word (i + 2)).setWidth 25))
  else none

end Sys2Proof.Machine
end

