-- ==== Sys2Proof/Machine/Operands.lean ====
section
/-! DEFINITION. Reading and writing the registers a command names implicitly (30_encoding.md R103; 10_state.md R31 to R35,
R44). -/

namespace Sys2Proof.Machine

/-- A command or the host reads these registers: a clear written mark among them is recorded as `fault UnwrittenRead`,
for good (10_state.md R44, 60_exceptions.md R268; log 4). -/
def State.noteReads (s : State) (regs : List PlaneReg) : State :=
  { s with unwrittenRead := s.unwrittenRead || regs.any fun q => !q.written }

/-- A plane register after a write of `p`: its mark is set (10_state.md R44). -/
def PlaneReg.filled (p : Plane) : PlaneReg := { value := p, written := true }

/-- The state register `S` as an array of planes (10_state.md R32). -/
def State.stateValue (s : State) : List Plane := s.planes.map PlaneReg.value

/-- `S <- v`, all planes at once (41_steps.md R150). -/
def State.writeState (s : State) (v : List Plane) : State := { s with planes := v.map PlaneReg.filled }

/-- The register `S[z]` (10_state.md R32). -/
def State.plane (s : State) (z : Nat) : PlaneReg := s.planes.getD z PlaneReg.atReset

/-- `S[z] <- p` (10_state.md R32). -/
def State.writePlane (s : State) (z : Nat) (p : Plane) : State := { s with planes := s.planes.set z (PlaneReg.filled p) }

/-- `R <- p` (10_state.md R35). -/
def State.writeR (s : State) (p : Plane) : State := { s with r := PlaneReg.filled p }

end Sys2Proof.Machine
end

