-- ==== Sys2Proof/Machine/Ops.lean ====
section
/-! DEFINITION. The operations the commands share: raising an error (60_exceptions.md R265), the shapes of a plane command
and of a step command, the table memory (20_memory.md R70) and the store (20_memory.md R80 to R83). -/

namespace Sys2Proof.Machine

/-! ## Errors -/

/-- `raise E(code)`: the command has no other effect, and STATUS.ERR takes the code if it is NONE (60_exceptions.md R265).
This is the engine's only exception: no state is saved, no control is transferred and there is nothing to return
from (60_exceptions.md R269). -/
def raiseError (code : ErrCode) (s : State) : State :=
  if s.err = .none then { s with err := code } else s

/-! ## Command shapes -/

/-- A plane command that reads `A` and `B` (40_plane.md R130). -/
def planeOp2 (f : Plane → Plane → Plane) (s : State) : State :=
  (s.noteReads [s.a, s.b]).writeR (f s.a.value s.b.value)

/-- A plane command that reads `A` only (40_plane.md R130). -/
def planeOp1 (f : Plane → Plane) (s : State) : State := (s.noteReads [s.a]).writeR (f s.a.value)

/-- A command that reads and writes the whole state register (41_steps.md R150, 42_rounds.md R182, R183). -/
def stepOp (f : List Plane → List Plane) (s : State) : State :=
  (s.noteReads s.planes).writeState (f s.stateValue)

/-! ## Table memory -/

/-- What an unlisted entry of the table memory reads as: the generated table's entry (43_lut.md R201; log 5). -/
def tblFill (build : Build) (tnr : BitVec 8) (i : Nat) : Plane := genEntry build tnr (BitVec.ofNat 25 i)

/-- `TblRead(i)` (20_memory.md R70, R71). -/
def State.tblRead (s : State) (i : Plane) : Plane := Memory.read (tblFill s.build s.tnr) s.tbl i.toNat

/-- The command has the table it needs: the build is the `LOGW = 0` one (60_exceptions.md R262). -/
def State.hasLut (s : State) : Bool := s.build.logw.val == 0

/-! ## The store -/

/-- What an unlisted key of the store reads as: no image is kept (20_memory.md R80). -/
def storeFill (_ : Nat) : Option Image := none

/-- The image kept under a round count (20_memory.md R80, R83). -/
def State.storedImage (s : State) (nr : BitVec 8) : Option Image := Memory.read storeFill s.store nr.toNat

/-- The store with other content under one key (20_memory.md R81, R83). -/
def State.storeContent (s : State) (nr : BitVec 8) (content : Option Image) : State :=
  { s with store := Memory.write storeFill s.store nr.toNat content }

/-- The content left under a key by a failed save, or put there by the platform (20_memory.md R81). -/
def State.storeLeftover (s : State) (nr : BitVec 8) : Leftover → State
  | .absent => s.storeContent nr none
  | .earlier => s
  | .bytes len writes => s.storeContent nr (some (Image.ofWrites s.build nr len writes))

/-- The next draw of the store about reading an existing image: true for `ReadFailure` (20_memory.md R80; log 7). -/
def State.nextReadFailure (s : State) : Bool := s.retrieveDraws.headD (Config.freeReadFailure s.asked)

/-- The next draw of the store about a save (20_memory.md R81; log 7). -/
def State.nextSaveAnswer (s : State) : SaveAnswer := s.saveDraws.headD (Config.freeSaveAnswer s.asked)

/-- The draw about a read is taken. -/
def State.takeReadDraw (s : State) : State := { s with retrieveDraws := s.retrieveDraws.tail, asked := s.asked + 1 }

/-- The draw about a save is taken. -/
def State.takeSaveDraw (s : State) : State := { s with saveDraws := s.saveDraws.tail, asked := s.asked + 1 }

/-- The classes of a retrieval (43_lut.md R204). -/
inductive Retrieval where
  | absent
  | valid (tbl : List (Nat × Plane))
  | corrupt
deriving DecidableEq, Repr

/-- `classify(StoreRetrieve(nr))` (43_lut.md R204): a `ReadFailure`, possible only where an image exists (20_memory.md
R80), is CORRUPT. -/
def State.retrieve (s : State) (nr : BitVec 8) : Retrieval :=
  match s.storedImage nr with
  | none => .absent
  | some img =>
    if s.nextReadFailure then .corrupt
    else
      match validateImage s.build nr img with
      | some tbl => .valid tbl
      | none => .corrupt

/-- The state after `StoreRetrieve(nr)`: a draw is taken where an image exists; the store does not change
(20_memory.md R80). -/
def State.afterRetrieve (s : State) (nr : BitVec 8) : State :=
  match s.storedImage nr with
  | none => s
  | some _ => s.takeReadDraw

/-- `StoreSave(nr, img) == Ok` (20_memory.md R81). -/
def State.saveSucceeds (s : State) : Bool :=
  match s.nextSaveAnswer with
  | .ok => true
  | .storageError _ => false

/-- The state after `StoreSave(nr, img)`: on `Ok` the store keeps exactly `img` under `nr`; on `StorageError` what the
draw left there (20_memory.md R81). -/
def State.afterSave (s : State) (nr : BitVec 8) (img : Image) : State :=
  match s.nextSaveAnswer with
  | .ok => s.takeSaveDraw.storeContent nr (some img)
  | .storageError left => s.takeSaveDraw.storeLeftover nr left

/-- `Encode(TBL, TNR, TABLE_MODE)` (20_memory.md R86; 43_lut.md R215). -/
def State.tableImage (s : State) : Image := encodeImage s.build s.tnr s.tbl

end Sys2Proof.Machine
end

