-- ==== Sys2Proof/Machine/Lut.lean ====
section
/-! DEFINITION. The LUT commands (43_lut.md R200 to R218). -/

namespace Sys2Proof.Machine

/-- A table of round count `nr` is in the table memory: `TBL`, `TNR`, `TAB` and CST (43_lut.md R205). `tbl` lists the
entries that differ from the generated table; none listed is the generated table itself (R202; log 5). -/
def State.tabulate (s : State) (nr : BitVec 8) (tbl : List (Nat × Plane)) (outcome : CstCode) : State :=
  { s with tbl := tbl, tnr := nr, tab := true, cst := outcome }

/-- The effect of CONSTRUCT where it raises no error, for `nr = CTRL.NR` (43_lut.md R205): VALID loads the image's
entries (R206), ABSENT generates the table and saves it (R207), CORRUPT generates it and makes no save (R208). -/
def constructTable (nr : BitVec 8) (s : State) : State :=
  match s.retrieve nr with
  | .valid tbl => (s.afterRetrieve nr).tabulate nr tbl .hit
  | .corrupt => (s.afterRetrieve nr).tabulate nr [] .corrupt
  | .absent =>
    ((s.afterRetrieve nr).afterSave nr (encodeImage s.build nr [])).tabulate nr []
      (if (s.afterRetrieve nr).saveSucceeds then .generated else .storageError)

/-- CONSTRUCT (43_lut.md R205). -/
def execConstruct (s : State) : Host.Outcome State Fault Refusal :=
  if !s.hasLut then .next (raiseError .noLut s)
  else if s.tab then .next (raiseError .alreadyTabulated s)
  else .next (constructTable s.nr s)

/-- The value EVAL gives `s0`: `n` iterations of lookup and round constant for RoundNoIota, the `k`-th with the
constant of index `k + roundIndexBase` (43_lut.md R210). -/
def lookupRounds (s : State) : Nat → Plane → Plane
  | 0, p => p
  | k + 1, p =>
    s.tblRead (lookupRounds s k p) ^^^ (BitVec.ofBool (rc (7 * (k + s.build.roundIndexBase)))).setWidth 25

/-- `Evaluate(p)` with the table in memory and TNR, in either mode (43_lut.md R210, R211). -/
def evaluate (s : State) (p : Plane) : Plane :=
  match s.build.mode with
  | .roundNoIota => lookupRounds s s.tnr.toNat p
  | .fullPermutation => s.tblRead p

/-- EVAL (43_lut.md R210). -/
def execEval (s : State) : Host.Outcome State Fault Refusal :=
  if !s.hasLut then .next (raiseError .noLut s)
  else if !s.tab then .next (raiseError .notTabulated s)
  else .next ((s.noteReads [s.plane 0]).writePlane 0 (evaluate s (s.plane 0).value))

/-- The effect of SAVE where it raises no error (43_lut.md R215). -/
def saveTable (s : State) : State :=
  { s.afterSave s.tnr s.tableImage with cst := if s.saveSucceeds then .saved else .storageError }

/-- SAVE (43_lut.md R215). -/
def execSave (s : State) : Host.Outcome State Fault Refusal :=
  if !s.hasLut then .next (raiseError .noLut s)
  else if !s.tab then .next (raiseError .notTabulated s)
  else .next (saveTable s)

/-- TREAD: `R <- TblRead(A[24:0])` (43_lut.md R217). -/
def execTread (s : State) : Host.Outcome State Fault Refusal :=
  if !s.hasLut then .next (raiseError .noLut s)
  else if !s.tab then .next (raiseError .notTabulated s)
  else .next (planeOp1 s.tblRead s)

end Sys2Proof.Machine
end

