-- ==== Sys2Proof/Machine/PlaneCommands.lean ====
section
/-! DEFINITION. The plane commands (40_plane.md R130 to R136). -/

namespace Sys2Proof.Machine

/-- PAND: `R <- A & B` (40_plane.md R131). -/
def execPand (s : State) : Host.Outcome State Fault Refusal := .next (planeOp2 (fun p q => p &&& q) s)

/-- POR: `R <- A | B` (40_plane.md R132). -/
def execPor (s : State) : Host.Outcome State Fault Refusal := .next (planeOp2 (fun p q => p ||| q) s)

/-- PXOR: `R <- A ^ B` (40_plane.md R133). -/
def execPxor (s : State) : Host.Outcome State Fault Refusal := .next (planeOp2 (fun p q => p ^^^ q) s)

/-- PNOT: `R <- (~A) & M25` (40_plane.md R134). -/
def execPnot (s : State) : Host.Outcome State Fault Refusal := .next (planeOp1 (fun p => ~~~p &&& m25) s)

/-- PROT n: ILLEGAL_OPERAND if `n > 4`, else `R <- prot(A, n)` (40_plane.md R135, 60_exceptions.md R263). -/
def execProt (n : Nat) (s : State) : Host.Outcome State Fault Refusal :=
  if n > 4 then .next (raiseError .illegalOperand s) else .next (planeOp1 (fun p => prot p n) s)

end Sys2Proof.Machine
end

