-- ==== Sys2Proof/Machine/Rounds.lean ====
section
/-! DEFINITION. The round and permutation commands (42_rounds.md R182, R183). -/

namespace Sys2Proof.Machine

/-- ROUND i: `S <- round_i(S)`, the index used as given (42_rounds.md R182). -/
def execRound (i : Nat) (s : State) : Host.Outcome State Fault Refusal := .next (stepOp (roundI i) s)

/-- PERM: `CTRL.NR` rounds, the `k`-th with index `k + roundIndexBase` (42_rounds.md R183). -/
def execPerm (s : State) : Host.Outcome State Fault Refusal :=
  .next (stepOp (perm s.build.roundIndexBase s.nr.toNat) s)

end Sys2Proof.Machine
end

