-- ==== Sys2Proof/Machine/Steps.lean ====
section
/-! DEFINITION. The step commands (41_steps.md R150, R164 to R169). -/

namespace Sys2Proof.Machine

/-- THETA: `S <- theta(S)` (41_steps.md R164). -/
def execTheta (s : State) : Host.Outcome State Fault Refusal := .next (stepOp theta s)

/-- RHO: `S <- rho(S)` (41_steps.md R165). -/
def execRho (s : State) : Host.Outcome State Fault Refusal := .next (stepOp rho s)

/-- PI: `S <- pi(S)` (41_steps.md R166). -/
def execPi (s : State) : Host.Outcome State Fault Refusal := .next (stepOp pi s)

/-- CHI: `S <- chi(S)` (41_steps.md R167). -/
def execChi (s : State) : Host.Outcome State Fault Refusal := .next (stepOp chi s)

/-- CHIC: `mi <- A; mo <- B; S <- chic(S, mi, mo)` (41_steps.md R168). -/
def execChic (s : State) : Host.Outcome State Fault Refusal :=
  .next (stepOp (fun v => chic v s.a.value s.b.value) (s.noteReads [s.a, s.b]))

/-- IOTA i: `S <- iota_i(S)`, the index used as given (41_steps.md R169). -/
def execIota (i : Nat) (s : State) : Host.Outcome State Fault Refusal := .next (stepOp (iota i) s)

end Sys2Proof.Machine
end

