-- ==== Sys2Proof/Machine/System.lean ====
section
/-! DEFINITION. The system command NOP (44_system.md R244). -/

namespace Sys2Proof.Machine

/-- NOP: nothing (44_system.md R244). -/
def execNop (s : State) : Host.Outcome State Fault Refusal := .next s

end Sys2Proof.Machine
end

