-- ==== Sys2Proof/Syntax.lean ====
section
/-! DEFINITION. The commands of the engine, one constructor per row of spec/opcode_table.json (30_encoding.md R104). -/

namespace Sys2Proof

/-- A command. Register operands are implicit in the opcode (30_encoding.md R103); the only fields are the
rotation amount of PROT (format R) and the round index of IOTA and ROUND (format I), both natural numbers
as R103 reads them. -/
inductive Instr where
  | nop
  | pand
  | por
  | pxor
  | pnot
  /-- rotation amount `n = zext(cmd[10:8])` -/
  | prot (n : Nat)
  | theta
  | rho
  | pi
  | chi
  | chic
  /-- round index `i = zext(cmd[15:8])` -/
  | iota (i : Nat)
  /-- round index `i = zext(cmd[15:8])` -/
  | round (i : Nat)
  | perm
  | construct
  | eval
  | save
  | tread
deriving DecidableEq, Repr, Inhabited

end Sys2Proof
end

