-- ==== Sys2Proof/Machine/Dispatch.lean ====
section
/-! DEFINITION. The meaning of every command (30_encoding.md R104). -/

namespace Sys2Proof.Machine

def exec (i : Instr) (s : State) : Host.Outcome State Fault Refusal :=
  match i with
  | .nop => Sys2Proof.Machine.execNop s
  | .pand => Sys2Proof.Machine.execPand s
  | .por => Sys2Proof.Machine.execPor s
  | .pxor => Sys2Proof.Machine.execPxor s
  | .pnot => Sys2Proof.Machine.execPnot s
  | .prot n => Sys2Proof.Machine.execProt n s
  | .theta => Sys2Proof.Machine.execTheta s
  | .rho => Sys2Proof.Machine.execRho s
  | .pi => Sys2Proof.Machine.execPi s
  | .chi => Sys2Proof.Machine.execChi s
  | .chic => Sys2Proof.Machine.execChic s
  | .iota k => Sys2Proof.Machine.execIota k s
  | .round k => Sys2Proof.Machine.execRound k s
  | .perm => Sys2Proof.Machine.execPerm s
  | .construct => Sys2Proof.Machine.execConstruct s
  | .eval => Sys2Proof.Machine.execEval s
  | .save => Sys2Proof.Machine.execSave s
  | .tread => Sys2Proof.Machine.execTread s

end Sys2Proof.Machine
end

