-- ==== Sys2Proof/WellFormed.lean ====
section
/-! DEFINITION. Which commands have an encoding (30_encoding.md R102, R103) and which an assembler accepts (R110). -/

namespace Sys2Proof

/-- The command's field fits its place in the word: `n` in 0..7, `i` in 0..255 (30_encoding.md R103). A PROT with
`n` in 5..7 is well formed: its word exists and raises ILLEGAL_OPERAND (R103, R110). -/
def Instr.wf : Instr → Bool
  | .nop => true
  | .pand => true
  | .por => true
  | .pxor => true
  | .pnot => true
  | .prot n => decide (n < 8)
  | .theta => true
  | .rho => true
  | .pi => true
  | .chi => true
  | .chic => true
  | .iota i => decide (i < 256)
  | .round i => decide (i < 256)
  | .perm => true
  | .construct => true
  | .eval => true
  | .save => true
  | .tread => true

/-- An assembler accepts the command: well formed, and PROT's amount in 0..4 ("An assembler refuses an operand out
of range (`PROT 5`) rather than emitting the ILLEGAL_OPERAND word", 30_encoding.md R110). -/
def Instr.assembles : Instr → Bool
  | .prot n => decide (n ≤ 4)
  | i => i.wf

end Sys2Proof
end

