-- ==== Sys2Proof/Decode.lean ====
section
/-! DEFINITION. Decoding a command word and encoding a command (30_encoding.md R100 to R109). -/

namespace Sys2Proof

/-- Why a word is no command. The engine reports both as ILLEGAL_COMMAND (60_exceptions.md R261). -/
inductive Reject where
  /-- `cmd[7:0]` is not an opcode of R104 (30_encoding.md R107) -/
  | reservedOpcode
  /-- a bit that the format requires to be 0 is 1 (30_encoding.md R102), THETA's TC bit included (R108) -/
  | reservedBits
deriving DecidableEq, Repr

/-- Format N: bits 31:8 must be 0 (30_encoding.md R102). -/
def decodeN (w : Word) (i : Instr) : Except Reject Instr :=
  if w.extractLsb' 8 24 = 0#24 then .ok i else .error .reservedBits

/-- Format R: `n = cmd[10:8]`, bits 31:11 must be 0 (30_encoding.md R102). -/
def decodeR (w : Word) (mk : Nat → Instr) : Except Reject Instr :=
  if w.extractLsb' 11 21 = 0#21 then .ok (mk (w.extractLsb' 8 3).toNat) else .error .reservedBits

/-- Format I: `i = cmd[15:8]`, bits 31:16 must be 0 (30_encoding.md R102). -/
def decodeI (w : Word) (mk : Nat → Instr) : Except Reject Instr :=
  if w.extractLsb' 16 16 = 0#16 then .ok (mk (w.extractLsb' 8 8).toNat) else .error .reservedBits

/-- The command a word stands for, by its OP field `cmd[7:0]` (30_encoding.md R101, R104). -/
def decode (w : Word) : Except Reject Instr :=
  match (w.extractLsb' 0 8).toNat with
  | 0x00 => decodeN w .nop
  | 0x01 => decodeN w .pand
  | 0x02 => decodeN w .por
  | 0x03 => decodeN w .pxor
  | 0x04 => decodeN w .pnot
  | 0x05 => decodeR w .prot
  | 0x10 => decodeN w .theta
  | 0x11 => decodeN w .rho
  | 0x12 => decodeN w .pi
  | 0x13 => decodeN w .chi
  | 0x14 => decodeN w .chic
  | 0x15 => decodeI w .iota
  | 0x16 => decodeI w .round
  | 0x17 => decodeN w .perm
  | 0x20 => decodeN w .construct
  | 0x21 => decodeN w .eval
  | 0x22 => decodeN w .save
  | 0x23 => decodeN w .tread
  | _ => .error .reservedOpcode

/-- The OP field of a command (30_encoding.md R104). -/
def opcode : Instr → Byte
  | .nop => 0x00
  | .pand => 0x01
  | .por => 0x02
  | .pxor => 0x03
  | .pnot => 0x04
  | .prot _ => 0x05
  | .theta => 0x10
  | .rho => 0x11
  | .pi => 0x12
  | .chi => 0x13
  | .chic => 0x14
  | .iota _ => 0x15
  | .round _ => 0x16
  | .perm => 0x17
  | .construct => 0x20
  | .eval => 0x21
  | .save => 0x22
  | .tread => 0x23

/-- The IMM field of a command, bits 15:8 (30_encoding.md R101, R102). -/
def immediate : Instr → Nat
  | .prot n => n
  | .iota i => i
  | .round i => i
  | _ => 0

/-- The command word: RSV = 0, IMM, OP (30_encoding.md R101). -/
def encode (i : Instr) : Word := 0#16 ++ BitVec.ofNat 8 (immediate i) ++ opcode i

/-- What an assembler emits for a command; none where it refuses the operand (30_encoding.md R110). -/
def assemble (i : Instr) : Option Word := if i.assembles then some (encode i) else none

/-- One row of the opcode map: a word is the row's command exactly if `w & mask = pattern` (30_encoding.md R104). -/
structure OpcodeRow where
  mask : Word
  pattern : Word
deriving DecidableEq, Repr

/-- The match and mask pairs of the opcode map (30_encoding.md R104), in its order. -/
def opcodeTable : List OpcodeRow :=
  [⟨0xFFFFFFFF, 0x00⟩, ⟨0xFFFFFFFF, 0x01⟩, ⟨0xFFFFFFFF, 0x02⟩, ⟨0xFFFFFFFF, 0x03⟩, ⟨0xFFFFFFFF, 0x04⟩,
    ⟨0xFFFFF8FF, 0x05⟩] ++
  [⟨0xFFFFFFFF, 0x10⟩, ⟨0xFFFFFFFF, 0x11⟩, ⟨0xFFFFFFFF, 0x12⟩, ⟨0xFFFFFFFF, 0x13⟩, ⟨0xFFFFFFFF, 0x14⟩,
    ⟨0xFFFF00FF, 0x15⟩, ⟨0xFFFF00FF, 0x16⟩, ⟨0xFFFFFFFF, 0x17⟩] ++
  [⟨0xFFFFFFFF, 0x20⟩, ⟨0xFFFFFFFF, 0x21⟩, ⟨0xFFFFFFFF, 0x22⟩, ⟨0xFFFFFFFF, 0x23⟩]

/-- The command the decoder reads from a table word, whose bit 0 is the least significant bit of the one command
word (the host's name; every bit at or above `nbits` is 0). None for a word wider than a command (30_encoding.md R100). -/
def decodeTableWord (nbits w : Nat) : Option Instr :=
  if w % 2 ^ nbits < 2 ^ 32 then (decode (BitVec.ofNat 32 (w % 2 ^ nbits))).toOption else none

end Sys2Proof
end

