-- ==== Sys2Proof/Machine/Flags.lean ====
section
/-! DEFINITION. The codes of STATUS.ERR and STATUS.CST and the words the host reads from STATUS and CTRL (10_state.md R36,
R38, R39; 60_exceptions.md R260). -/

namespace Sys2Proof.Machine

/-- The ERR code (60_exceptions.md R260). -/
def errBits : ErrCode → BitVec 4
  | .none => 0
  | .illegalCommand => 1
  | .noLut => 2
  | .illegalOperand => 3
  | .notTabulated => 4
  | .alreadyTabulated => 5

/-- The CST code (10_state.md R39). -/
def cstBits : CstCode → BitVec 4
  | .none => 0
  | .hit => 1
  | .generated => 2
  | .corrupt => 3
  | .storageError => 4
  | .saved => 5

/-- STATUS.TMODE (10_state.md R38). -/
def tmodeBit : TableMode → Bool
  | .roundNoIota => false
  | .fullPermutation => true

/-- STATUS (10_state.md R38), bit 31 down to bit 0: reserved, TMODE, LOGW, TNR, CST, ERR, reserved, TAB, BUSY. -/
def statusWord (s : State) : Word :=
  0#4 ++ BitVec.ofBool (tmodeBit s.build.mode) ++ BitVec.ofNat 3 s.build.logw.val ++ s.tnr ++ cstBits s.cst ++
    errBits s.err ++ 0#6 ++ BitVec.ofBool s.tab ++ BitVec.ofBool s.pend.isSome

/-- CTRL as it reads: NR in bits 7:0, the rest 0 (10_state.md R36). -/
def ctrlWord (s : State) : Word := 0#24 ++ s.nr

/-- A plane register as it reads: bits 31:25 zero (10_state.md R31). -/
def planeWord (p : Plane) : Word := 0#7 ++ p

end Sys2Proof.Machine
end

