-- ==== Sys2Proof/Machine/Window.lean ====
section
/-! DEFINITION. The register window: which offset is which register, and RegRead and RegWrite (20_memory.md R60 to R67;
44_system.md R240, R246). -/

namespace Sys2Proof.Machine

/-- The registers of the window (20_memory.md R61). -/
inductive WindowReg where
  | ctrl
  | cmd
  | status
  | a
  | b
  | r
  | s (z : Nat)
deriving DecidableEq, Repr

/-- The byte offset of a register (20_memory.md R61, R62). -/
def regOffset : WindowReg → Nat
  | .ctrl => 0x000
  | .cmd => 0x004
  | .status => 0x008
  | .a => 0x00C
  | .b => 0x010
  | .r => 0x014
  | .s z => 0x100 + 4 * z

/-- The register at a 4-byte-aligned offset of the window, none where the offset is reserved (20_memory.md R61, R64). -/
def regAt (build : Build) (off : Nat) : Option WindowReg :=
  if off = 0x000 then some .ctrl
  else if off = 0x004 then some .cmd
  else if off = 0x008 then some .status
  else if off = 0x00C then some .a
  else if off = 0x010 then some .b
  else if off = 0x014 then some .r
  else if 0x100 ≤ off ∧ (off - 0x100) / 4 < build.lanes then some (.s ((off - 0x100) / 4))
  else none

/-- The only admitted host access: 32 bits wide, 4-byte aligned, in the 512-byte window (20_memory.md R60, R63). -/
def admitted (off : Nat) (width : Width) : Bool :=
  width == .w32 && off % 4 == 0 && decide (off < 0x200)

/-- The host is in the busy window: a command is pending, or the host has not read BUSY = 0 since it issued one
(70_reset_and_hazards.md R300, R301; log 15). -/
def State.inBusyWindow (s : State) : Bool := s.pend.isSome || s.busyWindow

/-- An access that the host makes before it has read BUSY = 0, though the command has been performed: `fault BusyHazard` is
recorded, for good, and the access has its effect (70_reset_and_hazards.md R300; 60_exceptions.md R268; 44_system.md R240,
R241; log 15). `quiet` as in `accessReg`. -/
def State.noteHazard (s : State) (quiet : Bool) : State :=
  { s with busyHazardSeen := s.busyHazardSeen || (s.busyWindow && !quiet) }

/-- What the host's read of a register tells it: a read of STATUS that returns BUSY = 0 closes the busy window
(70_reset_and_hazards.md R300). -/
def State.observe (s : State) (reg : WindowReg) : State :=
  { s with busyWindow := if reg = .status ∧ s.pend = none then false else s.busyWindow }

/-- The register a host access reaches, or the fault it is (20_memory.md R63, R64; 70_reset_and_hazards.md R300, R301).
`quiet` says that the access is a read of STATUS, the one access admitted while BUSY = 1 (R301). The order of the checks
is log 10. -/
def accessReg (s : State) (off : Nat) (width : Width) (quiet : Bool) : Except Fault WindowReg :=
  if !admitted off width then .error .unadmittedAccess
  else if s.pend.isSome && !quiet then .error .busyHazard
  else
    match regAt s.build off with
    | some reg => .ok reg
    | none => .error .reservedAccess

/-- The value a register reads as (10_state.md R31 to R38). -/
def regValue (s : State) : WindowReg → Word
  | .ctrl => ctrlWord s
  | .cmd => 0
  | .status => statusWord s
  | .a => planeWord s.a.value
  | .b => planeWord s.b.value
  | .r => planeWord s.r.value
  | .s z => planeWord (s.plane z).value

/-- The plane register a host read reads, if any (10_state.md R44). -/
def readPlanes (s : State) : WindowReg → List PlaneReg
  | .ctrl => []
  | .cmd => []
  | .status => []
  | .a => [s.a]
  | .b => [s.b]
  | .r => [s.r]
  | .s z => [s.plane z]

/-- A CTRL write: NR takes `v[7:0]`, and ERR is cleared if `v[31] = 1` (44_system.md R246, 10_state.md R36). -/
def writeCtrl (v : Word) (s : State) : State :=
  { s with nr := v.setWidth 8, err := if v.getLsbD 31 then .none else s.err }

/-- Issue: a CMD write stores the word in PEND and changes nothing else of the engine (44_system.md R240). The busy window
opens for the host (70_reset_and_hazards.md R300). -/
def issue (v : Word) (s : State) : State := { s with pend := some v, busyWindow := true }

/-- `RegWrite` of a register: planes take `v[24:0]` (10_state.md R31), STATUS and R ignore the write (20_memory.md R61, R65). -/
def writeReg (v : Word) (s : State) : WindowReg → State
  | .ctrl => writeCtrl v s
  | .cmd => issue v s
  | .status => s
  | .a => { s with a := PlaneReg.filled (v.setWidth 25) }
  | .b => { s with b := PlaneReg.filled (v.setWidth 25) }
  | .r => s
  | .s z => s.writePlane z (v.setWidth 25)

end Sys2Proof.Machine
end

