-- ==== Sys2Proof/Machine/Agents.lean ====
section
/-! DEFINITION. One step of each agent (00_scope.md R8): the host's access (44_system.md R241), the engine's perform step
(44_system.md R242), and a reset from outside (70_reset_and_hazards.md R290 to R294). -/

namespace Sys2Proof.Machine

/-! ## Host -/

/-- The host goes on to its next access (10_state.md R33). -/
def State.advanceHost (s : State) : State := { s with hostPos := s.hostPos + 1 }

/-- `RegRead(off)`: the value is the line's result, and no register read has a side effect on the engine (20_memory.md R65;
30_encoding.md R111). -/
def hostRead (off : Nat) (width : Width) (s : State) : Host.Outcome State Fault Refusal :=
  match accessReg s off width (off == regOffset .status) with
  | .error f => .fault f
  | .ok reg =>
    .next ({ ((s.noteReads (readPlanes s reg)).noteHazard (reg == .status)).observe reg with
      results := regValue s reg :: s.results } : State).advanceHost

/-- `RegWrite(off, v)` (20_memory.md R60, R61). -/
def hostWrite (off : Nat) (width : Width) (v : Word) (s : State) : Host.Outcome State Fault Refusal :=
  match accessReg s off width false with
  | .error f => .fault f
  | .ok reg => .next (writeReg v (s.noteHazard false) reg).advanceHost

/-- One turn of WAIT: a read of STATUS, repeated until bit 0 (BUSY) reads 0 (30_encoding.md R111, 44_system.md R243). -/
def hostWait (s : State) : Host.Outcome State Fault Refusal :=
  .next (if (statusWord s).getLsbD 0 then s else (s.observe .status).advanceHost)

/-- The host's step (44_system.md R241); a host that has finished its program does nothing (log 13). -/
def hostStep (s : State) : Host.Outcome State Fault Refusal :=
  match s.program[s.hostPos]? with
  | none => .next s
  | some (.read off width) => hostRead off width s
  | some (.write off width v) => hostWrite off width v s
  | some .wait => hostWait s

/-! ## Engine -/

/-- The engine's perform step: PEND is emptied, and the command is decoded and executed, or ILLEGAL_COMMAND raised
(44_system.md R242; 60_exceptions.md R261, R266). With PEND empty it takes no step (R242; log 13). -/
def performStep (s : State) : Host.Outcome State Fault Refusal :=
  match s.pend with
  | none => .next s
  | some w =>
    match decode w with
    | .ok i => exec i { s with pend := none }
    | .error _ => .next (raiseError .illegalCommand { s with pend := none })

/-! ## Reset -/

/-- The save a pending command would make, if it is a CONSTRUCT or SAVE that reaches StoreSave: its key and its image
(70_reset_and_hazards.md R293; 43_lut.md R205, R215). -/
def State.pendingSave (s : State) : Option (BitVec 8 × Image) :=
  match s.pend with
  | none => none
  | some w =>
    match decode w with
    | .ok .save => if s.hasLut && s.tab then some (s.tnr, s.tableImage) else none
    | .ok .construct =>
      if s.hasLut && !s.tab && (s.storedImage s.nr).isNone then some (s.nr, encodeImage s.build s.nr []) else none
    | _ => none

/-- The store after the abandoned command: a save that may have begun leaves a draw under its key; `earlier` is a save
not begun and `ok` one that had reached the store whole (70_reset_and_hazards.md R293; log 11). -/
def State.abandon (s : State) : State :=
  match s.pendingSave with
  | none => s
  | some (nr, img) => s.afterSave nr img

/-- The changes the platform made to the store before the reset (20_memory.md R84; log 11). -/
def State.editStore (s : State) (edits : List StoreEdit) : State :=
  edits.foldl (fun s e => s.storeLeftover e.key e.content) s

/-- The engine's state as R290 says, idle and ready for the host's first access (R291); the store, the other agents and the record of faults as they were
(70_reset_and_hazards.md R290, R294; 60_exceptions.md R268; log 11). -/
def State.resetEngine (s : State) : State :=
  { State.resetOf s.build with
    store := s.store
    retrieveDraws := s.retrieveDraws
    saveDraws := s.saveDraws
    asked := s.asked
    program := s.program
    hostPos := s.hostPos
    results := s.results
    schedule := s.schedule
    busyHazardSeen := s.busyHazardSeen
    unwrittenRead := s.unwrittenRead }

/-- A reset (70_reset_and_hazards.md R290, R293, R294). -/
def resetStep (edits : List StoreEdit) (s : State) : State := (s.abandon.editStore edits).resetEngine

end Sys2Proof.Machine
end

