-- ==== Sys2Proof/Machine/Step.lean ====
section
/-! DEFINITION. One step of the machine: the schedule says which agent moves (44_system.md R241, R242, R243; log 1). -/

namespace Sys2Proof.Machine

/-- One step. A listed turn is taken and used up; with none listed the engine performs if a command is pending, else the
host moves (44_system.md R243; log 1). -/
def step (s : State) : Host.Outcome State Fault Refusal :=
  match s.schedule with
  | [] => if s.pend.isSome then performStep s else hostStep s
  | .engine :: rest => performStep { s with schedule := rest }
  | .host :: rest => hostStep { s with schedule := rest }
  | .reset edits :: rest => .next (resetStep edits { s with schedule := rest })

/-- `s` with a command word pending and the engine's turn next, so that the next step performs it (the host's name; the
engine fetches from PEND, 10_state.md R33, R43; log 9). The bits of the word at and above `nbits` are 0. -/
def State.withFetchWord (s : State) (nbits w : Nat) : State :=
  { s with pend := some (BitVec.ofNat 32 (w % 2 ^ nbits)), schedule := .engine :: s.schedule }

end Sys2Proof.Machine
end

