-- ==== Sys2Proof/Machine/HostProgram.lean ====
section
/-! DEFINITION. The lines of a host program and the accesses they stand for (30_encoding.md R110, R111). -/

namespace Sys2Proof.Machine

/-- One line of a host program (30_encoding.md R111). -/
inductive Line where
  | wr (reg : WindowReg) (v : Word)
  | rd (reg : WindowReg)
  | wait
  | command (i : Instr)
  | setnr (n : Nat)
  | clrerr (n : Nat)
  | lds (z : Nat) (p : Plane)
deriving DecidableEq, Repr

/-- The accesses of a line; none where the assembler refuses it (30_encoding.md R110, R111). -/
def expandLine : Line → Option (List HostOp)
  | .wr reg v => some [.write (regOffset reg) .w32 v]
  | .rd reg => some [.read (regOffset reg) .w32]
  | .wait => some [.wait]
  | .command i => (assemble i).map fun w => [.write (regOffset .cmd) .w32 w, .wait]
  | .setnr n => if n < 256 then some [.write (regOffset .ctrl) .w32 (BitVec.ofNat 32 n)] else none
  | .clrerr n => if n < 256 then some [.write (regOffset .ctrl) .w32 (0x80000000#32 ||| BitVec.ofNat 32 n)] else none
  | .lds z p => some [.write (regOffset (.s z)) .w32 (planeWord p)]

/-- The accesses of a whole program, in order. -/
def expandProgram : List Line → Option (List HostOp)
  | [] => some []
  | l :: ls =>
    match expandLine l, expandProgram ls with
    | some ops, some rest => some (ops ++ rest)
    | _, _ => none

/-- `s` with a host program loaded and the host at its start (log 9). -/
def State.withProgram (s : State) (program : List HostOp) : State := { s with program := program, hostPos := 0 }

end Sys2Proof.Machine
end

