-- ==== Sys2Proof/Machine/Invariant.lean ====
section
/-! DEFINITION. What holds of the state in every run (10_state.md R32, R39 to R42; log 5, log 6, log 8). -/

namespace Sys2Proof.Machine

/-- The store is canonical: keys are rising 8-bit round counts, and each image is canonical for its key (log 6, log 8). -/
def State.storeWf (s : State) : Bool :=
  Memory.wf storeFill 256 s.store &&
    s.store.all fun e =>
      match e.2 with
      | none => false
      | some img => img.wf s.build (BitVec.ofNat 8 e.1)

/-- The table memory is canonical (log 5). -/
def State.tblWf (s : State) : Bool := Memory.wf (tblFill s.build s.tnr) entryCount s.tbl

/-- The invariant of the machine: `w` state planes (10_state.md R32); table memory and store canonical; CST is NONE
exactly while untabulated (10_state.md R39, R41); TNR is 0 and nothing is listed in the table memory while untabulated
(R42; log 5); only the `LOGW = 0` build tabulates (43_lut.md R200). -/
def State.wf (s : State) : Bool :=
  s.planes.length == s.build.lanes && s.tblWf && s.storeWf && (s.tab == (s.cst != .none)) &&
    (s.tab || (s.tnr == 0 && s.tbl.isEmpty)) && (s.hasLut || !s.tab)

end Sys2Proof.Machine
end

