-- ==== Sys2Proof/Safety.lean ====
section
/-! DEFINITION. What counts as a correct run (60_exceptions.md R268) and as a host program that respects the busy window
(70_reset_and_hazards.md R300, R301; 30_encoding.md R111). -/

namespace Sys2Proof.Machine

/-- `k` steps from `s` reach a state, and none of them is or records a model fault: "no run that records one is a correct
run" (60_exceptions.md R268). -/
def CorrectRun (k : Nat) (s : State) : Prop :=
  ∃ t, Host.Core.run Sys2Proof.core k s = .next t ∧ t.unwrittenRead = false ∧ t.busyHazardSeen = false

/-- The access issues a command, if it is admitted (44_system.md R240). -/
def issues : HostOp → Bool
  | .read _ _ => false
  | .write off _ _ => off == regOffset .cmd
  | .wait => false

/-- Every access that issues a command is followed by WAIT or by the program's end (30_encoding.md R111). -/
def waitsAfterIssue : List HostOp → Bool
  | [] => true
  | [_] => true
  | op :: next :: ops => (!issues op || next == .wait) && waitsAfterIssue (next :: ops)

/-- In the busy window the host is at a WAIT or past its program's end, so that it makes no access but STATUS reads
(70_reset_and_hazards.md R300). -/
def HostWaits (s : State) : Prop :=
  s.inBusyWindow → s.program[s.hostPos]? = none ∨ s.program[s.hostPos]? = some .wait

end Sys2Proof.Machine
end

