-- ==== Sys2Proof/Certificates/Slice0/Obligations.lean ====
section
/-! DEFINITION. The statements for the provers. Each docstring names the rules of spec/ it formalises. A statement that rests
on a choice of the model names its log entry. -/

namespace Sys2Proof.Machine

/-! ## Words used by the statements -/

/-- The state bit `a[x,y,z]` of the state register (00_scope.md R18). -/
def bitOf (s : State) (x y z : Nat) : Bool := stateBit s.stateValue x y z

/-- Every table entry reads as before. -/
def SameTable (s t : State) : Prop := ∀ i : Plane, t.tblRead i = s.tblRead i

/-- Under every key the store keeps the same image: the same length and the same bytes. -/
def SameStore (s t : State) : Prop := ∀ key : BitVec 8, t.storedImage key = s.storedImage key

/-- The state register has its `w` planes (10_state.md R32). -/
def HasPlanes (s : State) : Prop := s.planes.length = s.build.lanes

/-- Every state plane is marked written (10_state.md R44). -/
def PlanesWritten (s : State) : Prop := ∀ q ∈ s.planes, q.written = true

/-- `raise E(code)` as 60_exceptions.md R265 writes it. -/
def withError (code : ErrCode) (s : State) : State := { s with err := if s.err = .none then code else s.err }

/-- The host has made one access that is no STATUS read: it goes on, and `fault BusyHazard` is recorded if it has not read
BUSY = 0 since it issued a command (70_reset_and_hazards.md R300; 60_exceptions.md R268; log 15). -/
def afterAccess (s : State) : State :=
  { s with hostPos := s.hostPos + 1, busyHazardSeen := s.busyHazardSeen || s.busyWindow }

/-- The orbit of (1,0) under `(x,y) <- (y, (2x + 3y) mod 5)` (41_steps.md R152). -/
def rhoOrbit : Nat → Nat × Nat
  | 0 => (1, 0)
  | t + 1 => ((rhoOrbit t).2, (2 * (rhoOrbit t).1 + 3 * (rhoOrbit t).2) % 5)

/-- The 64-bit round constants of 41_steps.md R163, round indices 0 to 23. -/
def roundConstants64 : List (BitVec 64) :=
  [0x0000000000000001, 0x0000000000008082, 0x800000000000808A, 0x8000000080008000, 0x000000000000808B,
    0x0000000080000001, 0x8000000080008081, 0x8000000000008009] ++
  [0x000000000000008A, 0x0000000000000088, 0x0000000080008009, 0x000000008000000A, 0x000000008000808B,
    0x800000000000008B, 0x8000000000008089, 0x8000000000008003] ++
  [0x8000000000008002, 0x8000000000000080, 0x000000000000800A, 0x800000008000000A, 0x8000000080008081,
    0x8000000000008080, 0x0000000080000001, 0x8000000080008008]

/-- The shift register of 41_steps.md R162 after `n` turns of its loop, its bits `R[0..7]` in order. -/
def rcRegister : Nat → List Bool
  | 0 => [true, false, false, false, false, false, false, false]
  | n + 1 =>
    let R := false :: rcRegister n
    let last := R.getD 8 false
    [R.getD 0 false ^^ last, R.getD 1 false, R.getD 2 false, R.getD 3 false, R.getD 4 false ^^ last,
      R.getD 5 false ^^ last, R.getD 6 false ^^ last, R.getD 7 false]

/-- A row of five bits as a plane row `y` (00_scope.md R17). -/
def rowOf (p : Plane) (y : Nat) : BitVec 5 := p.extractLsb' (5 * y) 5

end Sys2Proof.Machine

open Sys2Proof Sys2Proof.Machine

/-! ## Encoding -/

/-- Decoding the word of a well-formed command gives the command back, with every rotation amount and round index the
encoding admits (30_encoding.md R101 to R104). -/
def Obligations.DecodeEncodeRoundTrip : Prop := ∀ i : Instr, i.wf = true → decode (encode i) = .ok i

/-- Each word has one meaning: a word that decodes is the word of the command it decodes to, which is well formed
(30_encoding.md R101 to R104). -/
def Obligations.EncodeDecodeRoundTrip : Prop := ∀ (w : Word) (i : Instr), decode w = .ok i → i.wf = true ∧ encode i = w

/-- The opcode map with its match and mask pairs: a word is a command exactly if its masked bits are the row's pattern
(30_encoding.md R104), the immediates being those of R103. -/
def Obligations.OpcodeMapMatchesMasks : Prop :=
  ∀ w : Word,
    (decode w = .ok .nop ↔ w = 0x00#32) ∧ (decode w = .ok .pand ↔ w = 0x01#32) ∧ (decode w = .ok .por ↔ w = 0x02#32) ∧
    (decode w = .ok .pxor ↔ w = 0x03#32) ∧ (decode w = .ok .pnot ↔ w = 0x04#32) ∧
    (∀ n, decode w = .ok (.prot n) ↔ w &&& 0xFFFFF8FF#32 = 0x05#32 ∧ n = (w.extractLsb' 8 3).toNat) ∧
    (decode w = .ok .theta ↔ w = 0x10#32) ∧ (decode w = .ok .rho ↔ w = 0x11#32) ∧ (decode w = .ok .pi ↔ w = 0x12#32) ∧
    (decode w = .ok .chi ↔ w = 0x13#32) ∧ (decode w = .ok .chic ↔ w = 0x14#32) ∧
    (∀ i, decode w = .ok (.iota i) ↔ w &&& 0xFFFF00FF#32 = 0x15#32 ∧ i = (w.extractLsb' 8 8).toNat) ∧
    (∀ i, decode w = .ok (.round i) ↔ w &&& 0xFFFF00FF#32 = 0x16#32 ∧ i = (w.extractLsb' 8 8).toNat) ∧
    (decode w = .ok .perm ↔ w = 0x17#32) ∧ (decode w = .ok .construct ↔ w = 0x20#32) ∧
    (decode w = .ok .eval ↔ w = 0x21#32) ∧ (decode w = .ok .save ↔ w = 0x22#32) ∧ (decode w = .ok .tread ↔ w = 0x23#32)

/-- A pending word that matches no row of the opcode map raises ILLEGAL_COMMAND at the perform step: PEND is emptied, ERR
takes code 1 if it was NONE, and nothing else changes (60_exceptions.md R261). -/
def Obligations.IllegalWordsRaiseIllegalCommand : Prop :=
  ∀ (s : State) (w : Word), s.pend = some w → (∀ row ∈ opcodeTable, w &&& row.mask ≠ row.pattern) →
    performStep s = .next (withError .illegalCommand { s with pend := none })

/-- Words of the spec's vectors decode to the commands they stand for, and THETA with its TC bit to none
(95_test_vectors.md V-D1 to V-D13; 30_encoding.md R108, R110). -/
def Obligations.SampleWordsDecode : Prop :=
  decode 0x00000000#32 = .ok .nop ∧ decode 0x00000010#32 = .ok .theta ∧ decode 0x00000405#32 = .ok (.prot 4) ∧
    decode 0x00000505#32 = .ok (.prot 5) ∧ decode 0x00000B15#32 = .ok (.iota 11) ∧
    decode 0x0000FF16#32 = .ok (.round 255) ∧ decode 0x00000023#32 = .ok .tread ∧
    decode 0x00010010#32 = .error .reservedBits ∧ decode 0x00000805#32 = .error .reservedBits ∧
    decode 0x000000FF#32 = .error .reservedOpcode ∧ assemble (.prot 5) = none ∧ assemble (.prot 4) = some 0x00000405#32

/-- A step performs the decoded command: with a command pending and the engine to move, the step is the command's meaning
at the state with PEND emptied and the turn used up (44_system.md R242; the schedule is the model's, log 1). -/
def Obligations.StepPerformsTheDecodedCommand : Prop :=
  ∀ (s : State) (w : Word) (i : Instr), s.pend = some w → decode w = .ok i →
    (s.schedule = [] → step s = exec i { s with pend := none }) ∧
      (∀ rest, s.schedule = .engine :: rest → step s = exec i { s with pend := none, schedule := rest })

/-! ## Plane commands -/

/-- PAND, POR, PXOR and PNOT write R with the planes' AND, OR, XOR and 25-bit complement, with the corner cases and
examples of the rules (40_plane.md R131, R132, R133, R134), in every state. -/
def Obligations.PlaneLogicCommandsWriteR : Prop :=
  ∀ s : State,
    (decode 0x00000001#32 = .ok .pand ∧ ∃ t, exec .pand s = .next t ∧ t.r.value = s.a.value &&& s.b.value ∧
      (s.a.value = s.b.value → t.r.value = s.a.value) ∧ (s.b.value = 0 → t.r.value = 0) ∧
      (s.b.value = m25 → t.r.value = s.a.value) ∧
      (s.a.value = 0x1FFFFFF#25 ∧ s.b.value = 0x1234567#25 → t.r.value = 0x1234567#25)) ∧
    (decode 0x00000002#32 = .ok .por ∧ ∃ t, exec .por s = .next t ∧ t.r.value = s.a.value ||| s.b.value ∧
      (s.a.value = s.b.value → t.r.value = s.a.value) ∧ (s.b.value = m25 → t.r.value = m25) ∧
      (s.b.value = 0 → t.r.value = s.a.value) ∧
      (s.a.value = 0x0000001#25 ∧ s.b.value = 0x1000000#25 → t.r.value = 0x1000001#25)) ∧
    (decode 0x00000003#32 = .ok .pxor ∧ ∃ t, exec .pxor s = .next t ∧ t.r.value = s.a.value ^^^ s.b.value ∧
      (s.a.value = s.b.value → t.r.value = 0) ∧ (s.b.value = m25 → t.r.value = ~~~s.a.value) ∧
      (s.a.value = 0x1FFFFFF#25 ∧ s.b.value = 0x1234567#25 → t.r.value = 0x0DCBA98#25)) ∧
    (decode 0x00000004#32 = .ok .pnot ∧ ∃ t, exec .pnot s = .next t ∧ t.r.value = ~~~s.a.value &&& m25 ∧
      planeWord t.r.value = ~~~(planeWord s.a.value) &&& 0x01FFFFFF#32 ∧
      (s.a.value = 0 → t.r.value = m25) ∧ (s.a.value = m25 → t.r.value = 0) ∧
      (s.a.value = 0x1234567#25 → t.r.value = 0x0DCBA98#25))

/-- PROT n with `n` in 0..4 writes R with every bit of A moved from lane `(x, y)` to lane `((x + n) mod 5, y)`
(40_plane.md R136); the function is that of the rule's formula for every plane. -/
def Obligations.ProtMovesBitsTowardsLargerX : Prop :=
  (∀ (s : State) (n : Nat), n ≤ 4 → ∃ t, exec (.prot n) s = .next t ∧ t.r.value = prot s.a.value n ∧
    t.r.written = true) ∧
  ∀ (p : Plane) (n x y : Nat), n ≤ 4 → x < 5 → y < 5 →
    planeBit (prot p n) x y = planeBit p ((x + 5 - n) % 5) y ∧ planeBit (prot p n) ((x + n) % 5) y = planeBit p x y ∧
      rowOf (prot p n) y = (rowOf p y).rotateLeft n

/-- PROT n with `n` above 4 (5, 6 and 7 in a word) raises ILLEGAL_OPERAND and has no other effect
(60_exceptions.md R263). -/
def Obligations.ProtRejectsAmountsAboveFour : Prop :=
  ∀ (s : State) (n : Nat), 4 < n → exec (.prot n) s = .next (withError .illegalOperand s)

/-- The laws of prot (40_plane.md R137). -/
def Obligations.ProtObeysItsLaws : Prop :=
  (∀ p : Plane, prot p 0 = p) ∧
  (∀ (p : Plane) (m n : Nat), m ≤ 4 → n ≤ 4 → prot (prot p m) n = prot p ((m + n) % 5)) ∧
  (∀ (p : Plane) (n : Nat), 1 ≤ n → n ≤ 4 → prot (prot p n) (5 - n) = p) ∧
  ∀ (p q : Plane) (n : Nat), n ≤ 4 →
    prot (p &&& q) n = prot p n &&& prot q n ∧ prot (p ||| q) n = prot p n ||| prot q n ∧
      prot (p ^^^ q) n = prot p n ^^^ prot q n ∧ prot (~~~p &&& m25) n = ~~~(prot p n) &&& m25

/-- The plane commands change R and the model's record of unwritten reads (log 4), and nothing else: no other register, no
status, no table entry, no image (40_plane.md section 1). -/
def Obligations.PlaneCommandsChangeOnlyR : Prop :=
  ∀ (i : Instr) (s t : State), (i = .pand ∨ i = .por ∨ i = .pxor ∨ i = .pnot ∨ ∃ n, n ≤ 4 ∧ i = .prot n) →
    exec i s = .next t →
      t = { s with r := t.r, unwrittenRead := t.unwrittenRead } ∧ t.r.written = true ∧ SameTable s t ∧ SameStore s t

/-! ## Steps -/

/-- THETA: every bit is XORed with the parity of column `x-1` of its slice and of column `x+1` of the slice before
(41_steps.md R151), written back to all `w` planes; the same in plane operations, with `P(p)` the plane whose every row is
the column parity vector of `p` (41_steps.md R156). -/
def Obligations.ThetaXorsNeighbourSheets : Prop :=
  ∀ s : State, HasPlanes s → ∃ t, exec .theta s = .next t ∧ HasPlanes t ∧ PlanesWritten t ∧
    ∀ z < s.build.lanes,
      (∀ x < 5, ∀ y < 5,
        let parity := fun x z => bitOf s x 0 z ^^ bitOf s x 1 z ^^ bitOf s x 2 z ^^ bitOf s x 3 z ^^ bitOf s x 4 z
        bitOf t x y z =
          (bitOf s x y z ^^ parity ((x + 4) % 5) z ^^ parity ((x + 1) % 5) ((z + s.build.lanes - 1) % s.build.lanes))) ∧
      let P := fun p : Plane => planeOf fun x _ =>
        planeBit p x 0 ^^ planeBit p x 1 ^^ planeBit p x 2 ^^ planeBit p x 3 ^^ planeBit p x 4
      let S := s.stateValue
      t.stateValue.getD z 0 =
        S.getD z 0 ^^^ prot (P (S.getD z 0)) 1 ^^^ prot (P (S.getD ((z + s.build.lanes - 1) % s.build.lanes) 0)) 4

/-- RHO: every lane is rotated towards higher `z` by its offset, lane (0,0) by 0 and the `k`-th lane of the orbit of (1,0),
which reaches every other lane, by `(k+1)(k+2)/2`; the identity at `w = 1` (41_steps.md R152, R153). -/
def Obligations.RhoRotatesEachLane : Prop :=
  (∀ s : State, HasPlanes s → ∃ t, exec .rho s = .next t ∧ HasPlanes t ∧ PlanesWritten t ∧
    (∀ z < s.build.lanes, bitOf t 0 0 z = bitOf s 0 0 z) ∧
    (∀ k < 24, ∀ z < s.build.lanes,
      bitOf t (rhoOrbit k).1 (rhoOrbit k).2 ((z + (k + 1) * (k + 2) / 2) % s.build.lanes) =
        bitOf s (rhoOrbit k).1 (rhoOrbit k).2 z) ∧
    (s.build.lanes = 1 → t.stateValue = s.stateValue)) ∧
  ∀ x < 5, ∀ y < 5, x = 0 ∧ y = 0 ∨ ∃ k < 24, rhoOrbit k = (x, y)

/-- PI: the lane at `(x, y)` moves to `(y, (2x + 3y) mod 5)`; equivalently bit `(x, y)` comes from `((x + 3y) mod 5, x)`
(41_steps.md R154). -/
def Obligations.PiMovesLanes : Prop :=
  ∀ s : State, HasPlanes s → ∃ t, exec .pi s = .next t ∧ HasPlanes t ∧ PlanesWritten t ∧
    ∀ x y z, x < 5 → y < 5 → z < s.build.lanes →
      bitOf t y ((2 * x + 3 * y) % 5) z = bitOf s x y z ∧ bitOf t x y z = bitOf s ((x + 3 * y) % 5) x z ∧
        (t.stateValue.getD z 0).getLsbD (y + 5 * ((2 * x + 3 * y) % 5)) = (s.stateValue.getD z 0).getLsbD (x + 5 * y) ∧
        bitOf t 0 0 z = bitOf s 0 0 z

/-- CHI: every bit is XORed with the AND of the complement of its first row neighbour and its second row neighbour; the same
in plane operations (41_steps.md R157). -/
def Obligations.ChiCombinesRowNeighbours : Prop :=
  ∀ s : State, HasPlanes s → ∃ t, exec .chi s = .next t ∧ HasPlanes t ∧ PlanesWritten t ∧
    ∀ z < s.build.lanes,
      (∀ x < 5, ∀ y < 5, bitOf t x y z = (bitOf s x y z ^^ (!bitOf s ((x + 1) % 5) y z && bitOf s ((x + 2) % 5) y z))) ∧
      t.stateValue.getD z 0 =
        s.stateValue.getD z 0 ^^^ (prot (~~~(s.stateValue.getD z 0) &&& m25) 4 &&& prot (s.stateValue.getD z 0) 3)

/-- χ acts on each 5-bit row separately and is a bijection on the 32 row values; it fixes the all-zero and the all-one row,
and a state all of whose rows are such (41_steps.md R158). -/
def Obligations.ChiIsARowBijection : Prop :=
  (∃ f : BitVec 5 → BitVec 5, Function.Bijective f ∧ f 0 = 0 ∧ f 0b11111#5 = 0b11111#5 ∧
    ∀ (p : Plane), ∀ y < 5, rowOf (chiPlane p) y = f (rowOf p y)) ∧
  ∀ S : List Plane, (∀ p ∈ S, ∀ y < 5, rowOf p y = 0 ∨ rowOf p y = 0b11111#5) → chi S = S

/-- CHIC: with A the input mask and B the output mask, each plane becomes `chi_plane(S[z] ^ A) ^ B` (41_steps.md R159); so a
state that holds `a` complemented by A becomes χ of `a` complemented by B (95_test_vectors.md V-X7). -/
def Obligations.ChicComputesMaskedChi : Prop :=
  ∀ s : State, HasPlanes s → ∃ t, exec .chic s = .next t ∧ HasPlanes t ∧ PlanesWritten t ∧
    (∀ z < s.build.lanes, ∀ x < 5, ∀ y < 5,
      let held := fun x y => bitOf s x y z ^^ planeBit s.a.value x y
      bitOf t x y z = ((held x y ^^ (!held ((x + 1) % 5) y && held ((x + 2) % 5) y)) ^^ planeBit s.b.value x y)) ∧
    ∀ a : List Plane, s.stateValue = a.map (· ^^^ s.a.value) → t.stateValue = (chi a).map (· ^^^ s.b.value)

/-- IOTA i: bit `z` of lane (0,0) is XORed with `rc(j + 7i)` where `z = 2^j - 1` for a `j` in 0..LOGW, and nothing else
changes; the index is used as given (41_steps.md R161). -/
def Obligations.IotaInjectsTheRoundConstant : Prop :=
  ∀ (s : State) (i : Nat), HasPlanes s → ∃ t, exec (.iota i) s = .next t ∧ HasPlanes t ∧ PlanesWritten t ∧
    (∀ j ≤ s.build.logw.val, bitOf t 0 0 (2 ^ j - 1) = (bitOf s 0 0 (2 ^ j - 1) ^^ rc (j + 7 * i))) ∧
    (∀ z < s.build.lanes, (∀ j ≤ s.build.logw.val, z ≠ 2 ^ j - 1) → bitOf t 0 0 z = bitOf s 0 0 z) ∧
    ∀ x < 5, ∀ y < 5, (x, y) ≠ (0, 0) → ∀ z < s.build.lanes, bitOf t x y z = bitOf s x y z

/-- The round constants: `rc(t)` is 1 where `t mod 255 = 0` and otherwise bit 0 of the shift register after `t mod 255` turns, for
every `t`, so that it has period 255 (41_steps.md R162); the constants of indices 0 to 23 are those of the table, and at `w = 1`
its last column (41_steps.md R163); those of indices 24 and 255 are the values of 95_test_vectors.md V-W9 and V-W10. -/
def Obligations.RoundConstantsAgreeWithTheTable : Prop :=
  (∀ t : Nat, rc t = (if t % 255 = 0 then true else (rcRegister (t % 255)).getD 0 false) ∧ rc (t + 255) = rc t) ∧
  (∀ i < 24, (∀ z < 64, roundConstantBit i z = (roundConstants64.getD i 0).getLsbD z) ∧
    rc (7 * i) = (roundConstants64.getD i 0).getLsbD 0) ∧
  ∀ z < 64, roundConstantBit 24 z = (0x8000000080008082#64).getLsbD z ∧ roundConstantBit 255 z = (1#64).getLsbD z

/-- The step, round and permutation commands change the state planes and the record of unwritten reads (log 4), and nothing
else (41_steps.md section 1). -/
def Obligations.StepCommandsChangeOnlyThePlanes : Prop :=
  ∀ (i : Instr) (s t : State),
    (i = .theta ∨ i = .rho ∨ i = .pi ∨ i = .chi ∨ i = .chic ∨ (∃ k, i = .iota k) ∨ (∃ k, i = .round k) ∨ i = .perm) →
    exec i s = .next t →
      t = { s with planes := t.planes, unwrittenRead := t.unwrittenRead } ∧ t.planes.length = s.planes.length ∧
        SameTable s t ∧ SameStore s t

/-! ## Rounds -/

/-- ROUND i does what THETA, RHO, PI, CHI and IOTA i do one after the other (42_rounds.md R180). -/
def Obligations.RoundIsTheFiveSteps : Prop :=
  ∀ (s : State) (i : Nat), ∃ t1 t2 t3 t4 t5 t, exec .theta s = .next t1 ∧ exec .rho t1 = .next t2 ∧
    exec .pi t2 = .next t3 ∧ exec .chi t3 = .next t4 ∧ exec (.iota i) t4 = .next t5 ∧
    exec (.round i) s = .next t ∧ t.stateValue = t5.stateValue ∧ t = t5

/-- PERM applies `CTRL.NR` rounds, the `k`-th with index `k + roundIndexBase`; no round at NR = 0 leaves the state register's
value as it is (42_rounds.md R181). Every plane is marked written (10_state.md R44). -/
def Obligations.PermRunsTheRoundsInOrder : Prop :=
  ∀ s : State, ∃ t, exec .perm s = .next t ∧ PlanesWritten t ∧
    t.stateValue = (List.range s.nr.toNat).foldl
      (fun S k => iota (k + s.build.roundIndexBase) (chi (pi (rho (theta S))))) s.stateValue ∧
    (s.nr = 0 → t.stateValue = s.stateValue)

/-! ## Table, EVAL, TREAD -/

/-- In a build with `LOGW != 0` each of the four LUT commands raises NO_LUT and has no other effect, whatever the other
state (60_exceptions.md R262). -/
def Obligations.LutCommandsNeedTheNarrowBuild : Prop :=
  ∀ (s : State) (i : Instr), s.build.logw ≠ 0 → i = .construct ∨ i = .eval ∨ i = .save ∨ i = .tread →
    exec i s = .next (withError .noLut s)

/-- In the `LOGW = 0` build EVAL, SAVE and TREAD raise NOT_TABULATED while TAB = 0, and CONSTRUCT raises ALREADY_TABULATED
while TAB = 1; neither has another effect (60_exceptions.md R264). -/
def Obligations.TableCommandsNeedTheirTabState : Prop :=
  ∀ s : State, s.build.logw = 0 →
    (s.tab = false → ∀ i, i = .eval ∨ i = .save ∨ i = .tread → exec i s = .next (withError .notTabulated s)) ∧
    (s.tab = true → exec .construct s = .next (withError .alreadyTabulated s))

/-- CONSTRUCT with no image kept: the table is the generated one at every index, TAB = 1 and TNR = CTRL.NR whether the save
succeeds or not; on Ok the store keeps exactly the image of the generated table and CST is GENERATED, on StorageError CST
is STORAGE_ERROR (43_lut.md R207). -/
def Obligations.ConstructGeneratesWhenAbsent : Prop :=
  ∀ s : State, s.build.logw = 0 → s.tab = false → s.storeWf = true → s.storedImage s.nr = none →
    ∃ t, exec .construct s = .next t ∧ t.tab = true ∧ t.tnr = s.nr ∧
      (∀ i : Plane, t.tblRead i = genEntry s.build s.nr i) ∧
      (s.nextSaveAnswer = .ok → t.cst = .generated ∧ ∃ img, t.storedImage s.nr = some img ∧ img.len = imageLength ∧
        ∀ o < imageLength, img.byte s.build s.nr o =
          encodeByte s.build.mode s.nr (fun i => genEntry s.build s.nr (BitVec.ofNat 25 i)) o) ∧
      (s.nextSaveAnswer ≠ .ok → t.cst = .storageError)

/-- CONSTRUCT with a well-formed image kept and read: the table is the image's entries, whatever they are, CST is HIT, TAB = 1,
TNR = CTRL.NR, and the store is as before (43_lut.md R206). Well-formed is the five checks of 20_memory.md R87, literally. -/
def Obligations.ConstructLoadsAWellFormedImage : Prop :=
  ∀ (s : State) (img : Image), s.build.logw = 0 → s.tab = false → s.storeWf = true → s.storedImage s.nr = some img →
    s.nextReadFailure = false → validBytes s.build.mode s.nr img.len (img.byte s.build s.nr) →
    ∃ t, exec .construct s = .next t ∧ t.tab = true ∧ t.tnr = s.nr ∧ t.cst = .hit ∧ SameStore s t ∧
      ∀ i : Plane, t.tblRead i = tableOfBytes (img.byte s.build s.nr) i.toNat

/-- CONSTRUCT with an image that cannot be read or that fails one of the five checks: CST is CORRUPT, no entry of the image is
loaded, the table is the generated one, TAB = 1, and the store is as before (43_lut.md R208). -/
def Obligations.ConstructReportsACorruptImage : Prop :=
  ∀ (s : State) (img : Image), s.build.logw = 0 → s.tab = false → s.storeWf = true → s.storedImage s.nr = some img →
    (s.nextReadFailure = true ∨ ¬validBytes s.build.mode s.nr img.len (img.byte s.build s.nr)) →
    ∃ t, exec .construct s = .next t ∧ t.tab = true ∧ t.tnr = s.nr ∧ t.cst = .corrupt ∧ SameStore s t ∧
      ∀ i : Plane, t.tblRead i = genEntry s.build s.nr i

/-- The frame of CONSTRUCT and SAVE: registers, ERR, PEND, host and schedule are as before, and so is the image under every key
but the one saved to; SAVE leaves every table entry as it is (43_lut.md section 2). -/
def Obligations.ConstructAndSaveFrame : Prop :=
  ∀ s t : State,
    (exec .construct s = .next t → s.tab = false → s.build.logw = 0 →
      t = { s with tbl := t.tbl, tnr := t.tnr, tab := t.tab, cst := t.cst, store := t.store,
                   retrieveDraws := t.retrieveDraws, saveDraws := t.saveDraws, asked := t.asked } ∧
        ∀ key, key ≠ s.nr → t.storedImage key = s.storedImage key) ∧
    (exec .save s = .next t → s.tab = true → s.build.logw = 0 →
      t = { s with cst := t.cst, store := t.store, saveDraws := t.saveDraws, asked := t.asked } ∧ SameTable s t ∧
        ∀ key, key ≠ s.tnr → t.storedImage key = s.storedImage key)

/-- EVAL in the `LOGW = 0` build with a table: in RoundNoIota, TNR iterations of a lookup and the XOR of `rc(7(k + base))` into
bit 0; in FullPermutation, one lookup. The result is in `S[0]` (43_lut.md R210). With TNR = 0 `S[0]` is as before: in RoundNoIota
whatever the table holds, in FullPermutation with the table generated for 0 rounds (43_lut.md R213). `S[0]` is marked written
(10_state.md R44). -/
def Obligations.EvalIteratesLookups : Prop :=
  ∀ s : State, s.build.logw = 0 → s.tab = true → HasPlanes s → ∃ t, exec .eval s = .next t ∧ HasPlanes t ∧
    (t.plane 0).written = true ∧
    (s.build.mode = .roundNoIota → (t.plane 0).value = (List.range s.tnr.toNat).foldl
      (fun p k => s.tblRead p ^^^ (if rc (7 * (k + s.build.roundIndexBase)) then 1#25 else 0#25)) (s.plane 0).value) ∧
    (s.build.mode = .fullPermutation → (t.plane 0).value = s.tblRead (s.plane 0).value) ∧
    (s.tnr = 0 → (s.build.mode = .fullPermutation → ∀ i : Plane, s.tblRead i = genEntry s.build 0 i) →
      t.stateValue = s.stateValue)

/-- EVAL changes `S[0]` only (and the record of unwritten reads, log 4): table, TNR, TAB, CST, A, B, R, the other planes and
the store are as before, and a second EVAL on the same `S[0]` gives the same value (43_lut.md section 2, R212). -/
def Obligations.EvalChangesOnlyItsPlane : Prop :=
  ∀ s t : State, exec .eval s = .next t → s.tab = true → s.build.logw = 0 →
    t = { s with planes := t.planes, unwrittenRead := t.unwrittenRead } ∧ SameTable s t ∧ SameStore s t ∧
      t.planes.length = s.planes.length ∧ (∀ z, z ≠ 0 → t.plane z = s.plane z) ∧
      ∀ u, exec .eval (t.writePlane 0 (s.plane 0).value) = .next u → (u.plane 0).value = (t.plane 0).value

/-- With the generated table in memory EVAL computes the permutation of TNR rounds in both table modes (43_lut.md R214), and
so agrees with PERM when CTRL.NR = TNR (42_rounds.md R185). -/
def Obligations.EvalAgreesWithPerm : Prop :=
  ∀ s : State, s.build.logw = 0 → s.tab = true → HasPlanes s →
    (∀ i : Plane, s.tblRead i = genEntry s.build s.tnr i) →
    ∃ t, exec .eval s = .next t ∧ t.stateValue = perm s.build.roundIndexBase s.tnr.toNat s.stateValue ∧
      (s.nr = s.tnr → ∃ u, exec .perm s = .next u ∧ u.stateValue = t.stateValue)

/-- SAVE with a table: on Ok the store keeps under TNR exactly the bytes of `Encode(TBL, TNR, TABLE_MODE)` and CST is SAVED; on
StorageError CST is STORAGE_ERROR (43_lut.md R215). -/
def Obligations.SaveWritesTheTablesImage : Prop :=
  ∀ s : State, s.build.logw = 0 → s.tab = true → s.tblWf = true → s.storeWf = true →
    ∃ t, exec .save s = .next t ∧
      (s.nextSaveAnswer = .ok → t.cst = .saved ∧ ∃ img, t.storedImage s.tnr = some img ∧ img.len = imageLength ∧
        ∀ o < imageLength, img.byte s.build s.tnr o =
          encodeByte s.build.mode s.tnr (fun i => s.tblRead (BitVec.ofNat 25 i)) o) ∧
      (s.nextSaveAnswer ≠ .ok → t.cst = .storageError) ∧ SameTable s t

/-- TREAD with a table writes R with the entry at `A[24:0]`, marks it written, and changes nothing else but the record of unwritten
reads (log 4) (43_lut.md R217; 10_state.md R44). -/
def Obligations.TreadReadsOneEntry : Prop :=
  ∀ s : State, s.build.logw = 0 → s.tab = true → ∃ t, exec .tread s = .next t ∧ t.r.value = s.tblRead s.a.value ∧
    t.r.written = true ∧ t = { s with r := t.r, unwrittenRead := t.unwrittenRead } ∧ SameTable s t ∧ SameStore s t

/-! ## Images -/

/-- Validate of an encoded table is valid and gives the table back, for every table, round count and mode
(20_memory.md R88). -/
def Obligations.EncodedTablesValidate : Prop :=
  ∀ (mode : TableMode) (nr : BitVec 8) (T : Nat → Plane),
    validBytes mode nr imageLength (encodeByte mode nr T) ∧
      ∀ i < entryCount, tableOfBytes (encodeByte mode nr T) i = T i

/-- A byte string that differs from an encoded table in exactly one byte, or in its length, is Corrupt (20_memory.md R89). -/
def Obligations.OneChangedByteIsCorrupt : Prop :=
  ∀ (mode : TableMode) (nr : BitVec 8) (T : Nat → Plane) (bytes : Nat → Byte) (len : Nat),
    (len ≠ imageLength → ¬validBytes mode nr len bytes) ∧
    ∀ o < imageLength, bytes o ≠ encodeByte mode nr T o →
      (∀ a < imageLength, a ≠ o → bytes a = encodeByte mode nr T a) → ¬validBytes mode nr imageLength bytes

/-- The sparse encoder writes the format: every byte of the image made from a canonical table is the byte of
`Encode(T, nr, mode)` (20_memory.md R86; log 6). -/
def Obligations.SparseEncoderWritesTheFormat : Prop :=
  ∀ (build : Build) (nr : BitVec 8) (tbl : List (Nat × Plane)), Memory.wf (tblFill build nr) entryCount tbl = true →
    (encodeImage build nr tbl).len = imageLength ∧ (encodeImage build nr tbl).wf build nr = true ∧
      ∀ o < imageLength, (encodeImage build nr tbl).byte build nr o =
        encodeByte build.mode nr (Memory.read (tblFill build nr) tbl) o

/-- The sparse validator is Validate: on a canonical image it answers a table exactly if the five checks hold, and then entry
`i` of the table is `E[i][24:0]` (20_memory.md R87; log 6). -/
def Obligations.SparseValidatorIsTheFiveChecks : Prop :=
  ∀ (build : Build) (nr : BitVec 8) (img : Image), img.wf build nr = true →
    ((validateImage build nr img = none ↔ ¬validBytes build.mode nr img.len (img.byte build nr)) ∧
      ∀ tbl, validateImage build nr img = some tbl → ∀ i < entryCount,
        Memory.read (tblFill build nr) tbl i = tableOfBytes (img.byte build nr) i)

/-- The cache round trip across a reset: a table saved with Ok is loaded again, entry for entry, by a CONSTRUCT of the reset
engine with the same round count, unless the store answers ReadFailure (20_memory.md R82; 43_lut.md R216). -/
def Obligations.SaveResetConstructRestoresTheTable : Prop :=
  ∀ s : State, s.wf = true → s.build.logw = 0 → s.tab = true → s.nextSaveAnswer = .ok →
    ∃ t, exec .save s = .next t ∧
      let u := writeCtrl (s.tnr.setWidth 32) (resetStep [] { t with pend := none })
      (u.nextReadFailure = false →
        ∃ v, exec .construct u = .next v ∧ v.cst = .hit ∧ v.tnr = s.tnr ∧ ∀ i : Plane, v.tblRead i = s.tblRead i)

/-! ## Errors, registers and the host's accesses -/

/-- The order of checks of one pending word: an illegal word is ILLEGAL_COMMAND whatever else applies; a LUT command in a wide
build is NO_LUT whatever TAB is; a PROT above 4 is ILLEGAL_OPERAND; then the TAB errors. An erroring command reads no operand:
the record of unwritten reads is as before (60_exceptions.md R266). -/
def Obligations.ErrorsAreCheckedInOrder : Prop :=
  ∀ (s : State) (w : Word), s.pend = some w →
    (∀ e, decode w = .error e → performStep s = .next (withError .illegalCommand { s with pend := none })) ∧
    (∀ i, decode w = .ok i → i = .construct ∨ i = .eval ∨ i = .save ∨ i = .tread → s.build.logw ≠ 0 →
      performStep s = .next (withError .noLut { s with pend := none })) ∧
    (∀ n, decode w = .ok (.prot n) → 4 < n →
      performStep s = .next (withError .illegalOperand { s with pend := none })) ∧
    (∀ i, decode w = .ok i → i = .eval ∨ i = .save ∨ i = .tread → s.build.logw = 0 → s.tab = false →
      performStep s = .next (withError .notTabulated { s with pend := none })) ∧
    (decode w = .ok .construct → s.build.logw = 0 → s.tab = true →
      performStep s = .next (withError .alreadyTabulated { s with pend := none }))

/-- NOP changes nothing (44_system.md R244). -/
def Obligations.NopChangesNothing : Prop := ∀ s : State, exec .nop s = .next s

/-- STATUS reads as its fields, reserved bits as 0; after reset only LOGW and TMODE are set; a host's write to it is
ignored; and a read of it is admitted at any time, also while a command is pending (10_state.md R38). The write is one that
is not made while BUSY = 1 (70_reset_and_hazards.md R301), and what it records in the busy window is the model's (log 15). -/
def Obligations.StatusReadsAsItsFields : Prop :=
  (∀ s : State, let w := regValue s .status
    w.getLsbD 0 = s.pend.isSome ∧ w.getLsbD 1 = s.tab ∧ w.extractLsb' 2 6 = 0#6 ∧
    w.extractLsb' 8 4 = (match s.err with
      | .none => 0#4 | .illegalCommand => 1#4 | .noLut => 2#4 | .illegalOperand => 3#4 | .notTabulated => 4#4
      | .alreadyTabulated => 5#4) ∧
    w.extractLsb' 12 4 = (match s.cst with
      | .none => 0#4 | .hit => 1#4 | .generated => 2#4 | .corrupt => 3#4 | .storageError => 4#4 | .saved => 5#4) ∧
    w.extractLsb' 16 8 = s.tnr ∧ (w.extractLsb' 24 3).toNat = s.build.logw.val ∧
    w.getLsbD 27 = (s.build.mode == .fullPermutation) ∧ w.extractLsb' 28 4 = 0#4) ∧
  (∀ b : Build, let w := regValue (State.resetOf b) .status
    w.extractLsb' 0 24 = 0#24 ∧ (w.extractLsb' 24 3).toNat = b.logw.val ∧ w.getLsbD 27 = (b.mode == .fullPermutation) ∧
      w.extractLsb' 28 4 = 0#4) ∧
  ∀ (s : State) (v : Word), writeReg v s .status = s ∧
    (s.pend = none → hostWrite 0x008 .w32 v s = .next (afterAccess s)) ∧
    ∃ t, hostRead 0x008 .w32 s = .next t ∧ t.results = regValue s .status :: s.results

/-- Plane registers hold 25 bits: A, B and every S[z] read back the low 25 bits of the last write, and every plane register
reads with bits 31:25 zero (10_state.md R31). A host's write of A, B or S[z] while no command is pending sets that register
to `v[24:0]` and its written mark, and changes nothing else but the host's position and the record of a hazard (log 15): no other
register, mark, status, table entry or image (10_state.md R44). -/
def Obligations.PlaneRegistersKeepTheLowBits : Prop :=
  (∀ (s : State) (v : Word),
    regValue (writeReg v s .a) .a = v &&& 0x01FFFFFF#32 ∧ regValue (writeReg v s .b) .b = v &&& 0x01FFFFFF#32 ∧
    (∀ z < s.planes.length, regValue (writeReg v s (.s z)) (.s z) = v &&& 0x01FFFFFF#32) ∧
    ∀ reg, reg = .a ∨ reg = .b ∨ reg = .r ∨ (∃ z, reg = .s z) → (regValue s reg).extractLsb' 25 7 = 0#7) ∧
  ∀ (s : State) (v : Word), s.pend = none →
    let q : PlaneReg := { value := v.extractLsb' 0 25, written := true }
    hostWrite 0x00C .w32 v s = .next { afterAccess s with a := q } ∧
    hostWrite 0x010 .w32 v s = .next { afterAccess s with b := q } ∧
    (HasPlanes s → ∀ z < s.build.lanes, ∃ t, hostWrite (0x100 + 4 * z) .w32 v s = .next t ∧
      t = { afterAccess s with planes := t.planes } ∧ HasPlanes t ∧ t.plane z = q ∧
        ∀ z', z' ≠ z → t.plane z' = s.plane z')

/-- The register map: each register is found at its offset, an aligned offset of the window is reserved exactly if it is in
0x018 to 0x0FF or is the place of a state plane `z >= w` (20_memory.md R61); CMD reads 0, CTRL reads NR with its other bits 0,
and a host's write of R while no command is pending changes nothing but the host's position and the record of a hazard (log 15)
(10_state.md R35 to R37). -/
def Obligations.RegisterMapOfTheWindow : Prop :=
  (∀ b : Build,
    regAt b 0x000 = some .ctrl ∧ regAt b 0x004 = some .cmd ∧ regAt b 0x008 = some .status ∧ regAt b 0x00C = some .a ∧
    regAt b 0x010 = some .b ∧ regAt b 0x014 = some .r ∧
    (∀ z < b.lanes, regAt b (0x100 + 4 * z) = some (.s z)) ∧
    ∀ off < 0x200, off % 4 = 0 →
      (regAt b off = none ↔ (0x018 ≤ off ∧ off < 0x100) ∨ ∃ z, b.lanes ≤ z ∧ z < 64 ∧ off = 0x100 + 4 * z)) ∧
  ∀ (s : State) (v : Word), writeReg v s .r = s ∧
    (s.pend = none → hostWrite 0x014 .w32 v s = .next (afterAccess s)) ∧
    regValue s .cmd = 0 ∧
    regValue s .ctrl = s.nr.setWidth 32 ∧ regValue (writeReg v s .ctrl) .ctrl = v &&& 0x000000FF#32

/-- An access of another width than 32 bits, or at an offset that is not a multiple of 4, is UnadmittedAccess
(20_memory.md R63). That it is this fault also while BUSY = 1 and in the reserved range is the model's choice (log 10). -/
def Obligations.UnadmittedAccessesFault : Prop :=
  ∀ (s : State) (off : Nat) (width : Width) (v : Word), width ≠ .w32 ∨ off % 4 ≠ 0 →
    hostRead off width s = .fault .unadmittedAccess ∧ hostWrite off width v s = .fault .unadmittedAccess

/-- An admitted access at a reserved offset while no command is pending is ReservedAccess (20_memory.md R64; while BUSY = 1 it is
BusyHazard, log 10). -/
def Obligations.ReservedOffsetsFault : Prop :=
  ∀ (s : State) (off : Nat) (v : Word), s.pend = none → off < 0x200 → off % 4 = 0 →
    (0x018 ≤ off ∧ off < 0x100) ∨ (∃ z, s.build.lanes ≤ z ∧ z < 64 ∧ off = 0x100 + 4 * z) →
    hostRead off .w32 s = .fault .reservedAccess ∧ hostWrite off .w32 v s = .fault .reservedAccess

/-- While BUSY = 1 every admitted access but a read of STATUS is BusyHazard and stops the model (70_reset_and_hazards.md R301). That
an access at a reserved offset is this fault then, and not ReservedAccess, is the model's choice (log 10). After the perform step,
until a read of STATUS returns BUSY = 0 (R300; 95_test_vectors.md V-G13), such an access has its effect and the fault is recorded
(log 15). The busy window is opened by a CMD write, kept open by an engine step, and kept open by a read of STATUS while a command
is pending; the record is kept by all of them. -/
def Obligations.AccessesWhileBusyFault : Prop :=
  (∀ (s : State) (off : Nat) (v : Word), s.pend.isSome = true → off < 0x200 → off % 4 = 0 →
    hostWrite off .w32 v s = .fault .busyHazard ∧ (off ≠ 0x008 → hostRead off .w32 s = .fault .busyHazard)) ∧
  (∀ (s t : State) (off : Nat) (width : Width) (v : Word), s.busyWindow = true →
    (hostWrite off width v s = .next t → t.busyHazardSeen = true) ∧
    (off ≠ 0x008 → hostRead off width s = .next t → t.busyHazardSeen = true)) ∧
  (∀ (s t : State) (v : Word), hostWrite 0x004 .w32 v s = .next t → t.busyWindow = true) ∧
  (∀ s t : State, performStep s = .next t → t.busyWindow = s.busyWindow ∧ t.busyHazardSeen = s.busyHazardSeen) ∧
  ∀ (s t : State) (off : Nat) (width : Width), s.pend.isSome = true → hostRead off width s = .next t →
    t.busyWindow = s.busyWindow ∧ t.busyHazardSeen = s.busyHazardSeen

/-- Issue: a CMD write while no command is pending stores the word in PEND and changes nothing else of the engine; BUSY reads 1
from then on (44_system.md R240). The busy window opens for the host (70_reset_and_hazards.md R300); that window and what the write records in
it are the model's (log 15). -/
def Obligations.CmdWriteIssuesTheCommand : Prop :=
  ∀ (s : State) (v : Word), s.pend = none →
    hostWrite 0x004 .w32 v s = .next { afterAccess s with pend := some v, busyWindow := true } ∧
      (regValue { afterAccess s with pend := some v, busyWindow := true } .status).getLsbD 0 = true

/-- CTRL write: NR takes `v[7:0]`; ERR is cleared if `v[31] = 1` and kept otherwise; bits 30:8 have no effect; nothing else
of the engine changes (44_system.md R246). The write is one that is not made while BUSY = 1 (70_reset_and_hazards.md R301), and
what it records in the busy window is the model's (log 15). -/
def Obligations.CtrlWriteSetsNrAndClearsErr : Prop :=
  ∀ (s : State) (v : Word), s.pend = none →
    hostWrite 0x000 .w32 v s = .next { afterAccess s with
      nr := v.extractLsb' 0 8, err := if v.getLsbD 31 = true then .none else s.err }

/-- A register read has no side effect on the engine (20_memory.md R65): the host gets the value and goes on; `fault UnwrittenRead`
is recorded exactly if the register read is a plane register whose written mark is clear (10_state.md R44; log 4, log 12); and the
busy window closes exactly at a read of STATUS that returns BUSY = 0 (70_reset_and_hazards.md R300; log 15). A read that
is not of STATUS records `fault BusyHazard` exactly if it is made in the busy window (log 15). A read completes at every register's
offset while no command is pending, and at STATUS always. WAIT leaves the host where it is while BUSY reads 1 and
lets it go on otherwise, the engine unchanged (30_encoding.md R111; 44_system.md R243). -/
def Obligations.HostReadsHaveNoSideEffect : Prop :=
  let afterRead := fun (s : State) (reg : WindowReg) =>
    { s with
      results := regValue s reg :: s.results
      hostPos := s.hostPos + 1
      busyWindow := if reg = .status ∧ s.pend = none then false else s.busyWindow
      busyHazardSeen := s.busyHazardSeen || (s.busyWindow && reg != .status)
      unwrittenRead := s.unwrittenRead || (readPlanes s reg).any fun q => !q.written }
  (∀ (s t : State) (off : Nat) (width : Width), hostRead off width s = .next t →
    ∃ reg, regAt s.build off = some reg ∧ t = afterRead s reg) ∧
  (∀ (s : State) (off : Nat) (reg : WindowReg), off < 0x200 → off % 4 = 0 → regAt s.build off = some reg →
    s.pend = none ∨ reg = .status → hostRead off .w32 s = .next (afterRead s reg)) ∧
  (∀ s : State, readPlanes s .a = [s.a] ∧ readPlanes s .b = [s.b] ∧ readPlanes s .r = [s.r] ∧
    (∀ z, readPlanes s (.s z) = [s.plane z]) ∧ ∀ reg, reg = .ctrl ∨ reg = .cmd ∨ reg = .status → readPlanes s reg = []) ∧
  ∀ s : State, s.program[s.hostPos]? = some .wait →
    ((regValue s .status).getLsbD 0 = true → hostStep s = .next s) ∧
    ((regValue s .status).getLsbD 0 = false →
      hostStep s = .next { s with hostPos := s.hostPos + 1, busyWindow := false })

/-! ## Whole-machine rules -/

/-- No command writes A or B (10_state.md R34). -/
def Obligations.NoCommandWritesTheOperandPlanes : Prop :=
  ∀ (i : Instr) (s t : State), exec i s = .next t → t.a = s.a ∧ t.b = s.b ∧ t.nr = s.nr ∧ t.build = s.build

/-- Only CONSTRUCT writes the table memory, and only CONSTRUCT and SAVE the store (20_memory.md R71, R95). -/
def Obligations.OnlyConstructWritesTheTableOnlyConstructAndSaveTheStore : Prop :=
  ∀ (i : Instr) (s t : State), exec i s = .next t →
    (i ≠ .construct → t.tbl = s.tbl ∧ t.tnr = s.tnr ∧ t.tab = s.tab ∧ SameTable s t) ∧
    (i ≠ .construct → i ≠ .save → t.store = s.store ∧ t.cst = s.cst ∧ SameStore s t)

/-- Nothing but a reset makes the engine untabulated, and only the perform step of a CONSTRUCT tabulates it
(10_state.md R41; 70_reset_and_hazards.md R292). -/
def Obligations.OnlyResetUntabulates : Prop :=
  ∀ s t : State, step s = .next t →
    (s.tab = true → t.tab = false → ∃ edits rest, s.schedule = .reset edits :: rest) ∧
    (s.tab = false → t.tab = true → ∃ w, s.pend = some w ∧ decode w = .ok .construct ∧ s.build.logw = 0)

/-- No step changes the build parameters (00_scope.md R9 to R11), and none clears the record of a model fault (60_exceptions.md
R268; log 4, log 15). STATUS.ERR keeps the first error since the last clear (60_exceptions.md R265): a step that changes a code other than
NONE makes it NONE, and is a reset or the host's CTRL write with bit 31 set; and only a perform step records a code. -/
def Obligations.BuildIsConstantAndFaultsStayRecorded : Prop :=
  ∀ s t : State, step s = .next t →
    t.build = s.build ∧ (s.unwrittenRead = true → t.unwrittenRead = true) ∧
    (s.busyHazardSeen = true → t.busyHazardSeen = true) ∧
    (s.err ≠ .none → t.err ≠ s.err → t.err = .none ∧
      ((∃ edits rest, s.schedule = .reset edits :: rest) ∨
        ∃ v, s.program[s.hostPos]? = some (.write 0x000 .w32 v) ∧ v.getLsbD 31 = true ∧ t.hostPos = s.hostPos + 1)) ∧
    (s.err = .none → t.err ≠ .none → s.pend.isSome = true ∧ t.pend = none)

/-- A command that reads a plane register nothing has written since reset records `fault UnwrittenRead`, and the record is set by
nothing else: PAND, POR and PXOR read A and B, PNOT and PROT read A, the step, round and permutation commands every state
plane (PERM also at NR = 0), CHIC A and B besides, EVAL `S[0]` and TREAD A (10_state.md R44; that the machine goes on is log 4). -/
def Obligations.UnwrittenOperandReadsAreRecorded : Prop :=
  ∀ (i : Instr) (s t : State), exec i s = .next t →
    let planesUnwritten := s.planes.any fun q => !q.written
    (i = .pand ∨ i = .por ∨ i = .pxor → t.unwrittenRead = (s.unwrittenRead || !s.a.written || !s.b.written)) ∧
    (i = .pnot ∨ (∃ n, n ≤ 4 ∧ i = .prot n) → t.unwrittenRead = (s.unwrittenRead || !s.a.written)) ∧
    (i = .theta ∨ i = .rho ∨ i = .pi ∨ i = .chi ∨ (∃ k, i = .iota k) ∨ (∃ k, i = .round k) ∨ i = .perm →
      t.unwrittenRead = (s.unwrittenRead || planesUnwritten)) ∧
    (i = .chic → t.unwrittenRead = (s.unwrittenRead || !s.a.written || !s.b.written || planesUnwritten)) ∧
    (s.build.logw = 0 → s.tab = true →
      (i = .eval → t.unwrittenRead = (s.unwrittenRead || !(s.plane 0).written)) ∧
        (i = .tread → t.unwrittenRead = (s.unwrittenRead || !s.a.written))) ∧
    (i = .nop ∨ i = .construct ∨ i = .save → t.unwrittenRead = s.unwrittenRead)

/-- The reset values the spec states, in every build, and a reset's effect on a running engine: the pending command is
abandoned, the busy window closed and the records of model faults kept; with no save pending and no change by the platform every image is as before, and in any
case the image under every key that the platform leaves alone and that no pending SAVE or CONSTRUCT would save to
(70_reset_and_hazards.md R290, R291, R293, R294; log 11, log 15). -/
def Obligations.ResetLeavesTheSpecifiedState : Prop :=
  (∀ b : Build, let s := State.resetOf b
    s.nr.toNat = 12 + 2 * b.logw.val ∧ s.pend = none ∧ s.tab = false ∧ s.err = .none ∧ s.cst = .none ∧ s.tnr = 0 ∧
    HasPlanes s ∧ (∀ q ∈ s.planes, q.written = false) ∧ s.a.written = false ∧ s.b.written = false ∧
    s.r.written = false) ∧
  ∀ (s : State) (edits : List StoreEdit), let t := resetStep edits s
    t.nr.toNat = 12 + 2 * s.build.logw.val ∧ t.pend = none ∧ t.tab = false ∧ t.err = .none ∧ t.cst = .none ∧
    t.tnr = 0 ∧ HasPlanes t ∧ (∀ q ∈ t.planes, q.written = false) ∧ t.a.written = false ∧ t.b.written = false ∧
    t.r.written = false ∧ t.build = s.build ∧ t.busyWindow = false ∧
    t.unwrittenRead = s.unwrittenRead ∧ t.busyHazardSeen = s.busyHazardSeen ∧
    (s.pendingSave = none → edits = [] → SameStore s t) ∧
    ∀ key : BitVec 8, (∀ e ∈ edits, e.key ≠ key) →
      (∀ w, s.pend = some w → decode w = .ok .save → s.build.logw = 0 → s.tab = true → key ≠ s.tnr) →
      (∀ w, s.pend = some w → decode w = .ok .construct → s.build.logw = 0 → s.tab = false →
        s.storedImage s.nr = none → key ≠ s.nr) →
      t.storedImage key = s.storedImage key

/-- The invariant holds at the reset of every build (70_reset_and_hazards.md R290; log 5, log 6, log 8). -/
def Obligations.ResetMeetsTheInvariant : Prop := (∀ b : Build, (State.resetOf b).wf = true) ∧ State.reset.wf = true

/-- Every step keeps the invariant: `w` planes, table memory and store canonical, CST NONE exactly while untabulated, TNR 0 while
untabulated, no table in a wide build (10_state.md R32, R39 to R42; 43_lut.md R200; log 5, log 6, log 8). -/
def Obligations.StepKeepsTheInvariant : Prop := ∀ s t : State, s.wf = true → step s = .next t → t.wf = true

/-- A pending command completes: within one step more than there are turns listed, it has been performed or abandoned by a reset,
or the host has stopped the run (44_system.md R243; the default turn is log 1). -/
def Obligations.PendingCommandsComplete : Prop :=
  ∀ s : State, s.pend.isSome = true →
    (∃ k ≤ s.schedule.length + 1, ∃ t, Host.Core.run Sys2Proof.core k s = .next t ∧ t.pend = none) ∨
      ∃ k ≤ s.schedule.length, ∃ f, Host.Core.run Sys2Proof.core k s = .fault f

/-- That a host waits after every command it issues is kept by every step, and such a host's step neither is nor records BusyHazard:
while the program waits after every issue and the host is at a WAIT in the busy window, each step leaves both so. So no run of it
meets BusyHazard or records it, however the turns fall, resets included (30_encoding.md R111; 70_reset_and_hazards.md R300, R301). -/
def Obligations.WaitingProgramsNeverMeetBusyHazard : Prop :=
  (∀ s : State, waitsAfterIssue s.program = true → HostWaits s →
    step s ≠ .fault .busyHazard ∧ ∀ t, step s = .next t →
      waitsAfterIssue t.program = true ∧ HostWaits t ∧ t.busyHazardSeen = s.busyHazardSeen) ∧
  ∀ (s : State) (k : Nat), waitsAfterIssue s.program = true → HostWaits s →
    Host.Core.run Sys2Proof.core k s ≠ .fault .busyHazard ∧
      ∀ t, Host.Core.run Sys2Proof.core k s = .next t → t.busyHazardSeen = s.busyHazardSeen

/-- The lines of a host program expand to programs that wait after every command, unless a line writes CMD itself
(30_encoding.md R111). -/
def Obligations.CommandLinesExpandToWaitingPrograms : Prop :=
  ∀ (lines : List Line) (ops : List HostOp), (∀ v, Line.wr .cmd v ∉ lines) → expandProgram lines = some ops →
    waitsAfterIssue ops = true
end

