-- ==== Sys2Proof/Laws/Keccak.lean ====
section
/-! SUPPORT. The bits and lengths of the step functions, and that a generated table is a bijection. -/

namespace Sys2Proof.Machine

/-! ## Bits -/

@[simp] theorem planeBit_planeOf (f : Nat → Nat → Bool) {x y : Nat} (hx : x < 5) (hy : y < 5) :
    planeBit (planeOf f) x y = f x y := by
  have h : x + 5 * y < 25 := by omega
  have h1 : (x + 5 * y) % 5 = x := by omega
  have h2 : (x + 5 * y) / 5 = y := by omega
  simp [planeBit, planeOf, h, h1, h2]

/-- Two planes with equal bits are equal. -/
theorem plane_ext {p q : Plane} (h : ∀ x < 5, ∀ y < 5, planeBit p x y = planeBit q x y) : p = q := by
  apply BitVec.eq_of_getLsbD_eq
  intro i hi
  have := h (i % 5) (by omega) (i / 5) (by omega)
  simpa [planeBit, Nat.mod_add_div] using this

@[simp] theorem planeBit_xor (p q : Plane) (x y : Nat) :
    planeBit (p ^^^ q) x y = (planeBit p x y ^^ planeBit q x y) := by simp [planeBit]

@[simp] theorem planeBit_and (p q : Plane) (x y : Nat) :
    planeBit (p &&& q) x y = (planeBit p x y && planeBit q x y) := by simp [planeBit]

@[simp] theorem planeBit_or (p q : Plane) (x y : Nat) :
    planeBit (p ||| q) x y = (planeBit p x y || planeBit q x y) := by simp [planeBit]

@[simp] theorem planeBit_not (p : Plane) {x y : Nat} (hx : x < 5) (hy : y < 5) :
    planeBit (~~~p) x y = !planeBit p x y := by
  have h : x + 5 * y < 25 := by omega
  simp [planeBit, h]

@[simp] theorem planeBit_zero (x y : Nat) : planeBit 0 x y = false := by simp [planeBit]

@[simp] theorem planeBit_m25 {x y : Nat} (hx : x < 5) (hy : y < 5) : planeBit m25 x y = true := by
  interval_cases x <;> interval_cases y <;> decide

@[simp] theorem length_stateOf (w : Nat) (f : Nat → Nat → Nat → Bool) : (stateOf w f).length = w := by simp [stateOf]

@[simp] theorem stateBit_stateOf {w : Nat} (f : Nat → Nat → Nat → Bool) {x y z : Nat} (hx : x < 5) (hy : y < 5)
    (hz : z < w) : stateBit (stateOf w f) x y z = f x y z := by
  simp [stateBit, stateOf, List.getD_eq_getElem?_getD, hz, hx, hy]

/-- Two states of equal length with equal bits are equal. -/
theorem state_ext {S T : List Plane} (hl : S.length = T.length)
    (h : ∀ x < 5, ∀ y < 5, ∀ z < S.length, stateBit S x y z = stateBit T x y z) : S = T := by
  apply List.ext_getElem hl
  intro z hz hz'
  apply plane_ext
  intro x hx y hy
  simpa [stateBit, List.getD_eq_getElem?_getD, hz, hz'] using h x hx y hy z hz

/-! ## Lengths -/

@[simp] theorem length_theta (S : List Plane) : (theta S).length = S.length := by simp [theta]
@[simp] theorem length_rho (S : List Plane) : (rho S).length = S.length := by simp [rho]
@[simp] theorem length_pi (S : List Plane) : (pi S).length = S.length := by simp [pi]
@[simp] theorem length_chi (S : List Plane) : (chi S).length = S.length := by simp [chi]
@[simp] theorem length_chic (S : List Plane) (mi mo : Plane) : (chic S mi mo).length = S.length := by simp [chic]
@[simp] theorem length_iota (i : Nat) (S : List Plane) : (iota i S).length = S.length := by simp [iota]
@[simp] theorem length_roundI (i : Nat) (S : List Plane) : (roundI i S).length = S.length := by simp [roundI]
@[simp] theorem length_perm (base n : Nat) (S : List Plane) : (perm base n S).length = S.length := by
  induction n with
  | zero => rfl
  | succ n ih => simp [perm, ih]

/-! ## One plane: the steps at `w = 1` -/

/-- θ on the one plane of a `w = 1` state. -/
def thetaPlane (p : Plane) : Plane :=
  planeOf fun x y => planeBit p x y ^^ columnParity [p] ((x + 4) % 5) 0 ^^ columnParity [p] ((x + 1) % 5) 0

/-- π on the one plane of a `w = 1` state. -/
def piPlane (p : Plane) : Plane := planeOf fun x y => planeBit p ((x + 3 * y) % 5) x

@[simp] theorem theta_singleton (p : Plane) : theta [p] = [thetaPlane p] := by
  simp [theta, stateOf, thetaPlane, List.range_succ, stateBit]

@[simp] theorem rho_singleton (p : Plane) : rho [p] = [p] := by
  refine state_ext (by simp) fun x hx y hy z hz => ?_
  have hz0 : z = 0 := by simpa using hz
  subst hz0
  simp [rho, hx, hy, Nat.mod_one]

@[simp] theorem pi_singleton (p : Plane) : pi [p] = [piPlane p] := by
  simp [pi, stateOf, piPlane, List.range_succ, stateBit]

@[simp] theorem chi_singleton (p : Plane) : chi [p] = [chiPlane p] := rfl

/-- The round constant of index `i` at `w = 1`, as a plane: bit 0 is `rc(7*i)` (41_steps.md R161). -/
def iotaMask (i : Nat) : Plane := (BitVec.ofBool (rc (7 * i))).setWidth 25

theorem roundConstantBit_zero (i : Nat) : roundConstantBit i 0 = rc (7 * i) := by
  have h : ((List.range 7).find? fun j => (0 : Nat) == 2 ^ j - 1) = some 0 := by decide
  simp [roundConstantBit, h]

theorem planeBit_iotaMask (i : Nat) {x y : Nat} (hx : x < 5) (hy : y < 5) :
    planeBit (iotaMask i) x y = (x == 0 && y == 0 && rc (7 * i)) := by
  cases h : rc (7 * i) <;> interval_cases x <;> interval_cases y <;> simp [iotaMask, planeBit, h]

@[simp] theorem iota_singleton (i : Nat) (p : Plane) : iota i [p] = [p ^^^ iotaMask i] := by
  refine state_ext (by simp) fun x hx y hy z hz => ?_
  have hz0 : z = 0 := by simpa using hz
  subst hz0
  simp only [iota, List.length_singleton]
  rw [stateBit_stateOf _ hx hy (by omega), roundConstantBit_zero]
  simp [stateBit, planeBit_iotaMask i hx hy]

theorem roundNoIota_eq (s : Plane) : roundNoIota s = chiPlane (piPlane (thetaPlane s)) := by simp [roundNoIota]

@[simp] theorem roundI_singleton (i : Nat) (p : Plane) : roundI i [p] = [roundNoIota p ^^^ iotaMask i] := by
  simp [roundI, roundNoIota_eq]

/-- `perm_nr` on the one plane of a `w = 1` state. -/
def permPlane (base : Nat) : Nat → Plane → Plane
  | 0, p => p
  | k + 1, p => roundNoIota (permPlane base k p) ^^^ iotaMask (k + base)

@[simp] theorem perm_singleton (base n : Nat) (p : Plane) : perm base n [p] = [permPlane base n p] := by
  induction n with
  | zero => rfl
  | succ n ih => simp [perm, permPlane, ih]

/-! ## A generated table is a bijection -/

theorem five_parities (c0 c1 c2 c3 c4 d0 d1 d2 d3 d4 : Bool)
    (h0 : (c0 ^^ c4 ^^ c1) = (d0 ^^ d4 ^^ d1)) (h1 : (c1 ^^ c0 ^^ c2) = (d1 ^^ d0 ^^ d2))
    (h2 : (c2 ^^ c1 ^^ c3) = (d2 ^^ d1 ^^ d3)) (h3 : (c3 ^^ c2 ^^ c4) = (d3 ^^ d2 ^^ d4))
    (h4 : (c4 ^^ c3 ^^ c0) = (d4 ^^ d3 ^^ d0)) :
    c0 = d0 ∧ c1 = d1 ∧ c2 = d2 ∧ c3 = d3 ∧ c4 = d4 := by
  revert c0 c1 c2 c3 c4 d0 d1 d2 d3 d4
  decide +kernel

theorem column_sum (a0 a1 a2 a3 a4 b0 b1 b2 b3 b4 p q : Bool) (h0 : (a0 ^^ p) = (b0 ^^ q)) (h1 : (a1 ^^ p) = (b1 ^^ q))
    (h2 : (a2 ^^ p) = (b2 ^^ q)) (h3 : (a3 ^^ p) = (b3 ^^ q)) (h4 : (a4 ^^ p) = (b4 ^^ q)) :
    ((a0 ^^ a1 ^^ a2 ^^ a3 ^^ a4) ^^ p) = ((b0 ^^ b1 ^^ b2 ^^ b3 ^^ b4) ^^ q) := by
  revert a0 a1 a2 a3 a4 b0 b1 b2 b3 b4 p q
  decide +kernel

theorem thetaPlane_injective : Function.Injective thetaPlane := by
  intro p q h
  have hb : ∀ x < 5, ∀ y < 5,
      (planeBit p x y ^^ (columnParity [p] ((x + 4) % 5) 0 ^^ columnParity [p] ((x + 1) % 5) 0)) =
        (planeBit q x y ^^ (columnParity [q] ((x + 4) % 5) 0 ^^ columnParity [q] ((x + 1) % 5) 0)) := by
    intro x hx y hy
    have := congrArg (fun r => planeBit r x y) h
    simpa [thetaPlane, hx, hy, Bool.xor_assoc] using this
  have hc : ∀ x < 5,
      (columnParity [p] x 0 ^^ (columnParity [p] ((x + 4) % 5) 0 ^^ columnParity [p] ((x + 1) % 5) 0)) =
        (columnParity [q] x 0 ^^ (columnParity [q] ((x + 4) % 5) 0 ^^ columnParity [q] ((x + 1) % 5) 0)) := by
    intro x hx
    have := column_sum _ _ _ _ _ _ _ _ _ _ _ _ (hb x hx 0 (by omega)) (hb x hx 1 (by omega)) (hb x hx 2 (by omega))
      (hb x hx 3 (by omega)) (hb x hx 4 (by omega))
    simpa [columnParity, stateBit, Bool.xor_assoc] using this
  obtain ⟨e0, e1, e2, e3, e4⟩ := five_parities _ _ _ _ _ _ _ _ _ _ (by simpa [Bool.xor_assoc] using hc 0 (by omega))
    (by simpa [Bool.xor_assoc] using hc 1 (by omega)) (by simpa [Bool.xor_assoc] using hc 2 (by omega))
    (by simpa [Bool.xor_assoc] using hc 3 (by omega)) (by simpa [Bool.xor_assoc] using hc 4 (by omega))
  apply plane_ext
  intro x hx y hy
  have := hb x hx y hy
  interval_cases x <;> simpa [e0, e1, e2, e3, e4] using this

theorem piPlane_injective : Function.Injective piPlane := by
  intro p q h
  apply plane_ext
  intro x hx y hy
  have := congrArg (fun r => planeBit r y ((2 * x + 3 * y) % 5)) h
  simp only [piPlane] at this
  rw [planeBit_planeOf _ hy (by omega), planeBit_planeOf _ hy (by omega)] at this
  have hx' : (y + 3 * ((2 * x + 3 * y) % 5)) % 5 = x := by omega
  rwa [hx'] at this

theorem chi_row (c0 c1 c2 c3 c4 d0 d1 d2 d3 d4 : Bool)
    (h0 : (c0 ^^ (!c1 && c2)) = (d0 ^^ (!d1 && d2))) (h1 : (c1 ^^ (!c2 && c3)) = (d1 ^^ (!d2 && d3)))
    (h2 : (c2 ^^ (!c3 && c4)) = (d2 ^^ (!d3 && d4))) (h3 : (c3 ^^ (!c4 && c0)) = (d3 ^^ (!d4 && d0)))
    (h4 : (c4 ^^ (!c0 && c1)) = (d4 ^^ (!d0 && d1))) :
    c0 = d0 ∧ c1 = d1 ∧ c2 = d2 ∧ c3 = d3 ∧ c4 = d4 := by
  revert c0 c1 c2 c3 c4 d0 d1 d2 d3 d4
  decide +kernel

theorem chiPlane_injective : Function.Injective chiPlane := by
  intro p q h
  have hb : ∀ x < 5, ∀ y < 5,
      (planeBit p x y ^^ (!planeBit p ((x + 1) % 5) y && planeBit p ((x + 2) % 5) y)) =
        (planeBit q x y ^^ (!planeBit q ((x + 1) % 5) y && planeBit q ((x + 2) % 5) y)) := by
    intro x hx y hy
    have := congrArg (fun r => planeBit r x y) h
    simpa [chiPlane, hx, hy] using this
  apply plane_ext
  intro x hx y hy
  obtain ⟨e0, e1, e2, e3, e4⟩ := chi_row _ _ _ _ _ _ _ _ _ _ (hb 0 (by omega) y hy) (hb 1 (by omega) y hy)
    (hb 2 (by omega) y hy) (hb 3 (by omega) y hy) (hb 4 (by omega) y hy)
  interval_cases x <;> assumption

theorem roundNoIota_injective : Function.Injective roundNoIota := by
  intro p q h
  rw [roundNoIota_eq, roundNoIota_eq] at h
  exact thetaPlane_injective (piPlane_injective (chiPlane_injective h))

theorem permPlane_injective (base n : Nat) : Function.Injective (permPlane base n) := by
  induction n with
  | zero => exact fun _ _ h => h
  | succ n ih =>
    intro p q h
    exact ih (roundNoIota_injective (BitVec.xor_left_inj _ |>.1 h))

/-- The generated table is a bijection on planes in either mode (95_test_vectors.md V-T6). -/
theorem genEntry_injective (build : Build) (nr : BitVec 8) : Function.Injective (genEntry build nr) := by
  intro p q h
  unfold genEntry at h
  split at h
  · exact roundNoIota_injective h
  · exact permPlane_injective _ _ (by simpa using h)

end Sys2Proof.Machine
end

