-- ==== Sys2Proof/Laws/Memory.lean ====
section
/-! SUPPORT. The laws of sparse storage: read after write, and that a write keeps the canonical form. -/

namespace Sys2Proof.Machine

variable {β : Type} [DecidableEq β] (fill : Nat → β)

/-- Every key of a list lies above `k`. -/
def Memory.above (k : Nat) (m : List (Nat × β)) : Prop := ∀ e ∈ m, k < e.1

omit [DecidableEq β] in
theorem Memory.read_of_above {k : Nat} {m : List (Nat × β)} (h : Memory.above k m) : Memory.read fill m k = fill k := by
  induction m with
  | nil => rfl
  | cons e m ih =>
    obtain ⟨a, v⟩ := e
    have ha : k < a := h (a, v) (by simp)
    have hm : Memory.above k m := fun e he => h e (by simp [he])
    simp [Memory.read, Nat.ne_of_lt ha, ih hm]

omit [DecidableEq β] in
theorem Memory.rising_cons {a : Nat} {v : β} {m : List (Nat × β)} :
    Memory.rising ((a, v) :: m) = true ↔ Memory.above a m ∧ Memory.rising m = true := by
  induction m generalizing a v with
  | nil => simp [Memory.rising, Memory.above]
  | cons e m ih =>
    obtain ⟨b, u⟩ := e
    constructor
    · intro h
      simp only [Memory.rising, Bool.and_eq_true, decide_eq_true_eq] at h
      refine ⟨?_, h.2⟩
      intro e he
      rcases List.mem_cons.1 he with rfl | he
      · exact h.1
      · exact Nat.lt_trans h.1 ((ih.1 h.2).1 e he)
    · rintro ⟨h, hr⟩
      simp only [Memory.rising, Bool.and_eq_true, decide_eq_true_eq]
      exact ⟨h (b, u) (by simp), hr⟩

theorem Memory.read_consUnlessFill_same (k : Nat) (v : β) {m : List (Nat × β)} (h : Memory.above k m) :
    Memory.read fill (Memory.consUnlessFill fill k v m) k = v := by
  unfold Memory.consUnlessFill
  split
  · next hv => rw [Memory.read_of_above fill h, hv]
  · simp [Memory.read]

theorem Memory.read_consUnlessFill_other {k j : Nat} (hj : j ≠ k) (v : β) (m : List (Nat × β)) :
    Memory.read fill (Memory.consUnlessFill fill k v m) j = Memory.read fill m j := by
  unfold Memory.consUnlessFill
  split <;> simp [Memory.read, hj]

/-- Reading the written key gives the written value. -/
theorem Memory.read_write_same (m : List (Nat × β)) (hm : Memory.rising m = true) (k : Nat) (v : β) :
    Memory.read fill (Memory.write fill m k v) k = v := by
  induction m with
  | nil => exact Memory.read_consUnlessFill_same fill k v (by simp [Memory.above])
  | cons e m ih =>
    obtain ⟨a, u⟩ := e
    obtain ⟨ha, hr⟩ := Memory.rising_cons.1 hm
    simp only [Memory.write]
    split
    · next h =>
      refine Memory.read_consUnlessFill_same fill k v ?_
      intro e he
      rcases List.mem_cons.1 he with rfl | he
      · exact h
      · exact Nat.lt_trans h (ha e he)
    · split
      · next h => exact Memory.read_consUnlessFill_same fill k v (h ▸ ha)
      · next h => simp [Memory.read, h, ih hr]

/-- A write leaves every other key alone. -/
theorem Memory.read_write_other (m : List (Nat × β)) {k j : Nat} (hj : j ≠ k) (v : β) :
    Memory.read fill (Memory.write fill m k v) j = Memory.read fill m j := by
  induction m with
  | nil => exact Memory.read_consUnlessFill_other fill hj v []
  | cons e m ih =>
    obtain ⟨a, u⟩ := e
    simp only [Memory.write]
    split
    · exact Memory.read_consUnlessFill_other fill hj v _
    · split
      · next h => subst h; rw [Memory.read_consUnlessFill_other fill hj v]; simp [Memory.read, hj]
      · simp only [Memory.read]; split
        · rfl
        · exact ih

theorem Memory.mem_consUnlessFill {k : Nat} {v : β} {m : List (Nat × β)} {e : Nat × β}
    (h : e ∈ Memory.consUnlessFill fill k v m) : (e = (k, v) ∧ v ≠ fill k) ∨ e ∈ m := by
  unfold Memory.consUnlessFill at h
  split at h
  · exact .inr h
  · next hv =>
    rcases List.mem_cons.1 h with rfl | h
    · exact .inl ⟨rfl, hv⟩
    · exact .inr h

/-- What a write lists: the written entry, if it is not the fill, or an entry listed before. -/
theorem Memory.mem_write {m : List (Nat × β)} {k : Nat} {v : β} {e : Nat × β}
    (h : e ∈ Memory.write fill m k v) : (e = (k, v) ∧ v ≠ fill k) ∨ e ∈ m := by
  induction m with
  | nil => exact Memory.mem_consUnlessFill fill h
  | cons c m ih =>
    obtain ⟨a, u⟩ := c
    simp only [Memory.write] at h
    split at h
    · exact Memory.mem_consUnlessFill fill h
    · split at h
      · rcases Memory.mem_consUnlessFill fill h with h | h
        · exact .inl h
        · exact .inr (List.mem_cons_of_mem _ h)
      · rcases List.mem_cons.1 h with rfl | h
        · exact .inr (by simp)
        · rcases ih h with h | h
          · exact .inl h
          · exact .inr (List.mem_cons_of_mem _ h)

theorem Memory.rising_consUnlessFill {k : Nat} {v : β} {m : List (Nat × β)} (ha : Memory.above k m)
    (hr : Memory.rising m = true) : Memory.rising (Memory.consUnlessFill fill k v m) = true := by
  unfold Memory.consUnlessFill
  split
  · exact hr
  · exact Memory.rising_cons.2 ⟨ha, hr⟩

theorem Memory.rising_write (m : List (Nat × β)) (hm : Memory.rising m = true) (k : Nat) (v : β) :
    Memory.rising (Memory.write fill m k v) = true := by
  induction m with
  | nil => exact Memory.rising_consUnlessFill fill (by simp [Memory.above]) rfl
  | cons e m ih =>
    obtain ⟨a, u⟩ := e
    obtain ⟨ha, hr⟩ := Memory.rising_cons.1 hm
    simp only [Memory.write]
    split
    · next h =>
      refine Memory.rising_consUnlessFill fill ?_ hm
      intro e he
      rcases List.mem_cons.1 he with rfl | he
      · exact h
      · exact Nat.lt_trans h (ha e he)
    · next h1 =>
      split
      · next h => exact Memory.rising_consUnlessFill fill (h ▸ ha) hr
      · next h2 =>
        refine Memory.rising_cons.2 ⟨?_, ih hr⟩
        intro e he
        rcases Memory.mem_write fill he with ⟨rfl, -⟩ | he
        · simp only; omega
        · exact ha e he

theorem Memory.wf_iff {bound : Nat} {m : List (Nat × β)} :
    Memory.wf fill bound m = true ↔ Memory.rising m = true ∧ ∀ e ∈ m, e.1 < bound ∧ e.2 ≠ fill e.1 := by
  simp [Memory.wf]

/-- A write keeps the canonical form. -/
theorem Memory.wf_write {bound : Nat} {m : List (Nat × β)} (hm : Memory.wf fill bound m = true) {k : Nat}
    (hk : k < bound) (v : β) : Memory.wf fill bound (Memory.write fill m k v) = true := by
  rw [Memory.wf_iff] at hm ⊢
  refine ⟨Memory.rising_write fill m hm.1 k v, fun e he => ?_⟩
  rcases Memory.mem_write fill he with ⟨rfl, hv⟩ | he
  · exact ⟨hk, hv⟩
  · exact hm.2 e he

@[simp] theorem Memory.wf_nil (bound : Nat) : Memory.wf fill bound [] = true := rfl

omit [DecidableEq β] in
@[simp] theorem Memory.read_nil (k : Nat) : Memory.read fill [] k = fill k := rfl

omit [DecidableEq β] in
/-- A listed entry is what its key reads as. -/
theorem Memory.read_of_mem {m : List (Nat × β)} (hm : Memory.rising m = true) {e : Nat × β} (he : e ∈ m) :
    Memory.read fill m e.1 = e.2 := by
  induction m with
  | nil => simp at he
  | cons c m ih =>
    obtain ⟨a, u⟩ := c
    obtain ⟨ha, hr⟩ := Memory.rising_cons.1 hm
    rcases List.mem_cons.1 he with rfl | he
    · simp [Memory.read]
    · simp [Memory.read, Nat.ne_of_gt (ha e he), ih hr he]

omit [DecidableEq β] in
/-- A key with no entry reads as unlisted. -/
theorem Memory.read_of_not_mem {m : List (Nat × β)} {k : Nat} (h : ∀ e ∈ m, e.1 ≠ k) :
    Memory.read fill m k = fill k := by
  induction m with
  | nil => rfl
  | cons c m ih =>
    obtain ⟨a, u⟩ := c
    have ha : a ≠ k := h (a, u) (by simp)
    simp [Memory.read, Ne.symm ha, ih fun e he => h e (by simp [he])]

/-- The canonical form is unique: equal reads are equal lists. -/
theorem Memory.eq_of_read_eq {bound : Nat} {m n : List (Nat × β)} (hm : Memory.wf fill bound m = true)
    (hn : Memory.wf fill bound n = true) (h : ∀ k, Memory.read fill m k = Memory.read fill n k) : m = n := by
  rw [Memory.wf_iff] at hm hn
  induction m generalizing n with
  | nil =>
    cases n with
    | nil => rfl
    | cons e n =>
      have := h e.1
      rw [Memory.read_of_mem fill hn.1 (List.mem_cons_self)] at this
      exact absurd this.symm (hn.2 e (by simp)).2
  | cons c m ih =>
    cases n with
    | nil =>
      have := h c.1
      rw [Memory.read_of_mem fill hm.1 (List.mem_cons_self)] at this
      exact absurd this (hm.2 c (by simp)).2
    | cons e n =>
      obtain ⟨a, u⟩ := c
      obtain ⟨b, v⟩ := e
      obtain ⟨ha, hmr⟩ := Memory.rising_cons.1 hm.1
      obtain ⟨hb, hnr⟩ := Memory.rising_cons.1 hn.1
      have hu : u ≠ fill a := (hm.2 (a, u) (by simp)).2
      have hv : v ≠ fill b := (hn.2 (b, v) (by simp)).2
      have key : a = b := by
        rcases Nat.lt_trichotomy a b with hlt | heq | hlt
        · have hab : Memory.above a ((b, v) :: n) := by
            intro e he
            rcases List.mem_cons.1 he with rfl | he
            · exact hlt
            · exact Nat.lt_trans hlt (hb e he)
          have h1 := h a
          rw [Memory.read_of_above fill hab] at h1
          exact absurd (by simpa [Memory.read] using h1) hu
        · exact heq
        · have hba : Memory.above b ((a, u) :: m) := by
            intro e he
            rcases List.mem_cons.1 he with rfl | he
            · exact hlt
            · exact Nat.lt_trans hlt (ha e he)
          have h1 := h b
          rw [Memory.read_of_above fill hba] at h1
          exact absurd (by simpa [Memory.read] using h1.symm) hv
      subst key
      have huv : u = v := by simpa [Memory.read] using h a
      subst huv
      have hmn : m = n := by
        refine ih ⟨hmr, fun e he => hm.2 e (by simp [he])⟩ ⟨hnr, fun e he => hn.2 e (by simp [he])⟩ fun k => ?_
        by_cases hk : k = a
        · subst hk
          rw [Memory.read_of_above fill ha, Memory.read_of_above fill hb]
        · simpa [Memory.read, hk] using h k
      rw [hmn]

end Sys2Proof.Machine
end

