-- ==== Sys2Proof/Laws/Image.lean ====
section
/-! SUPPORT. The laws of images: words and bytes, that the entries of a generated table XOR to 0 (so that the CHECK of
`genWord` is the one 20_memory.md R85 asks for), and what writing a byte or a word into a sparse image does. -/

namespace Sys2Proof.Machine

/-! ## Words and bytes -/

@[simp] theorem wordOf_byteOf (w : Word) : wordOf (byteOf w 0) (byteOf w 1) (byteOf w 2) (byteOf w 3) = w := by
  apply BitVec.eq_of_getLsbD_eq
  intro i hi
  simp only [wordOf, byteOf, BitVec.getLsbD_append, BitVec.getLsbD_extractLsb']
  interval_cases i <;> simp

theorem byteOf_wordOf (b0 b1 b2 b3 : Byte) :
    byteOf (wordOf b0 b1 b2 b3) 0 = b0 ∧ byteOf (wordOf b0 b1 b2 b3) 1 = b1 ∧ byteOf (wordOf b0 b1 b2 b3) 2 = b2 ∧
      byteOf (wordOf b0 b1 b2 b3) 3 = b3 := by
  refine ⟨?_, ?_, ?_, ?_⟩ <;> apply BitVec.eq_of_getLsbD_eq <;> intro i hi <;>
    simp only [wordOf, byteOf, BitVec.getLsbD_append, BitVec.getLsbD_extractLsb'] <;> interval_cases i <;> simp

/-- The word read back from bytes that are the bytes of `W`. -/
theorem wordAt_byteOf (W : Nat → Word) (k : Nat) : wordAt (fun o => byteOf (W (o / 4)) (o % 4)) k = W k := by
  have h0 : 4 * k / 4 = k := by omega
  have h1 : (4 * k + 1) / 4 = k := by omega
  have h2 : (4 * k + 2) / 4 = k := by omega
  have h3 : (4 * k + 3) / 4 = k := by omega
  have m0 : 4 * k % 4 = 0 := by omega
  have m1 : (4 * k + 1) % 4 = 1 := by omega
  have m2 : (4 * k + 2) % 4 = 2 := by omega
  have m3 : (4 * k + 3) % 4 = 3 := by omega
  simp [wordAt, h0, h1, h2, h3, m0, m1, m2, m3]

@[simp] theorem wordAt_genByte (build : Build) (nr : BitVec 8) (k : Nat) :
    wordAt (genByte build nr) k = genWord build nr k := wordAt_byteOf (genWord build nr) k

@[simp] theorem wordAt_encodeByte (mode : TableMode) (nr : BitVec 8) (T : Nat → Plane) (k : Nat) :
    wordAt (encodeByte mode nr T) k = encodeWord mode nr T k := wordAt_byteOf (encodeWord mode nr T) k

theorem wordAt_congr {f g : Nat → Byte} {k : Nat} (h : ∀ j < 4, f (4 * k + j) = g (4 * k + j)) :
    wordAt f k = wordAt g k := by
  have h0 := h 0 (by omega)
  have h1 := h 1 (by omega)
  have h2 := h 2 (by omega)
  have h3 := h 3 (by omega)
  simp only [Nat.add_zero] at h0
  simp [wordAt, h0, h1, h2, h3]

/-- Two byte strings with the same word have its four bytes in common. -/
theorem wordAt_inj {f g : Nat → Byte} {k : Nat} (h : wordAt f k = wordAt g k) : ∀ j < 4, f (4 * k + j) = g (4 * k + j) := by
  have hf := byteOf_wordOf (f (4 * k)) (f (4 * k + 1)) (f (4 * k + 2)) (f (4 * k + 3))
  have hg := byteOf_wordOf (g (4 * k)) (g (4 * k + 1)) (g (4 * k + 2)) (g (4 * k + 3))
  simp only [wordAt] at h
  rw [h] at hf
  intro j hj
  interval_cases j
  · exact hf.1.symm.trans hg.1
  · exact hf.2.1.symm.trans hg.2.1
  · exact hf.2.2.1.symm.trans hg.2.2.1
  · exact hf.2.2.2.symm.trans hg.2.2.2

/-! ## XOR of entry words -/

theorem xorEntries_congr {E F : Nat → Word} {n : Nat} (h : ∀ i < n, E i = F i) : xorEntries E n = xorEntries F n := by
  induction n with
  | zero => rfl
  | succ n ih => simp [xorEntries, ih fun i hi => h i (by omega), h n (by omega)]

/-- XOR is associative and commutative over the entries. -/
theorem xorEntries_xor (E F : Nat → Word) (n : Nat) :
    xorEntries (fun i => E i ^^^ F i) n = xorEntries E n ^^^ xorEntries F n := by
  induction n with
  | zero => simp [xorEntries]
  | succ n ih =>
    simp only [xorEntries, ih]
    ac_rfl

theorem xorEntries_eq_foldr (E : Nat → Word) (n : Nat) :
    xorEntries E n = ((List.range n).map E).foldr (· ^^^ ·) 0 := by
  induction n with
  | zero => rfl
  | succ n ih =>
    have acc : ∀ (l : List Word) (a : Word), l.foldr (· ^^^ ·) a = l.foldr (· ^^^ ·) 0 ^^^ a := by
      intro l a
      induction l with
      | nil => simp
      | cons b l ihl => simp [ihl, BitVec.xor_assoc]
    rw [List.range_succ, List.map_append, List.foldr_append, acc]
    simp [xorEntries, ih]

/-- The numbers below a multiple of 4 XOR to 0. -/
theorem xorEntries_count (m : Nat) : xorEntries (BitVec.ofNat 32) (4 * m) = 0 := by
  induction m with
  | zero => rfl
  | succ m ih =>
    have h : 4 * (m + 1) = 4 * m + 1 + 1 + 1 + 1 := by omega
    rw [h]
    simp only [xorEntries, ih]
    have e : ∀ j < 4, BitVec.ofNat 32 (4 * m + j) = (BitVec.ofNat 32 m <<< 2) ^^^ BitVec.ofNat 32 j := by
      intro j hj
      apply BitVec.eq_of_getLsbD_eq
      intro i hi
      have hj' : j < 2 ^ 2 := by omega
      have key : (4 * m + j).testBit i = (if i < 2 then j.testBit i else m.testBit (i - 2)) := by
        have := Nat.testBit_two_pow_mul_add m hj' i
        simpa using this
      rcases Nat.lt_or_ge i 2 with h2 | h2
      · simp only [BitVec.getLsbD_xor, BitVec.getLsbD_shiftLeft, BitVec.getLsbD_ofNat, key, h2, if_true]
        simp
      · have : j.testBit i = false := Nat.testBit_lt_two_pow (Nat.lt_of_lt_of_le hj' (Nat.pow_le_pow_right (by omega) h2))
        have hi2 : i - 2 < 32 := by omega
        simp only [BitVec.getLsbD_xor, BitVec.getLsbD_shiftLeft, BitVec.getLsbD_ofNat, key, Nat.not_lt.2 h2, if_false, this]
        simp [hi, hi2]
    have e0 := e 0 (by omega)
    simp only [Nat.add_zero] at e0
    rw [e0, e 1 (by omega), show 4 * m + 1 + 1 = 4 * m + 2 by omega, e 2 (by omega),
      show 4 * m + 2 + 1 = 4 * m + 3 by omega, e 3 (by omega)]
    generalize BitVec.ofNat 32 m <<< 2 = q
    have : ∀ q : Word, (0 ^^^ (q ^^^ 0#32) ^^^ (q ^^^ 1#32) ^^^ (q ^^^ 2#32) ^^^ (q ^^^ 3#32)) =
        ((q ^^^ q) ^^^ (q ^^^ q)) ^^^ (0#32 ^^^ 1#32 ^^^ 2#32 ^^^ 3#32) := by
      intro q
      simp only [BitVec.zero_xor]
      ac_rfl
    rw [this]
    simp

/-- The values of an injection of the numbers below `2^k` into themselves are those numbers in some order. -/
theorem perm_of_injective {k : Nat} (f : BitVec k → BitVec k) (hf : Function.Injective f) :
    ((List.range (2 ^ k)).map fun i => (f (BitVec.ofNat k i)).toNat).Perm (List.range (2 ^ k)) := by
  have hnd : ((List.range (2 ^ k)).map fun i => (f (BitVec.ofNat k i)).toNat).Nodup := by
    refine List.Nodup.map_on ?_ List.nodup_range
    intro i hi j hj h
    have := congrArg BitVec.toNat (hf (BitVec.eq_of_toNat_eq h))
    simpa [Nat.mod_eq_of_lt (List.mem_range.1 hi), Nat.mod_eq_of_lt (List.mem_range.1 hj)] using this
  refine (List.subperm_of_subset hnd ?_).perm_of_length_le (by simp)
  intro a ha
  obtain ⟨i, -, rfl⟩ := List.mem_map.1 ha
  exact List.mem_range.2 (f (BitVec.ofNat k i)).isLt

/-- The entries of a bijective table XOR to what their indexes XOR to. -/
theorem xorEntries_injective {k : Nat} (f : BitVec k → BitVec k) (hf : Function.Injective f) :
    xorEntries (fun i => (f (BitVec.ofNat k i)).setWidth 32) (2 ^ k) = xorEntries (BitVec.ofNat 32) (2 ^ k) := by
  have h1 : (fun i => (f (BitVec.ofNat k i)).setWidth 32) =
      BitVec.ofNat 32 ∘ fun i => (f (BitVec.ofNat k i)).toNat := by
    funext i
    exact BitVec.eq_of_toNat_eq (by simp)
  rw [xorEntries_eq_foldr, xorEntries_eq_foldr, h1, ← List.map_map]
  exact List.Perm.foldr_eq (lcomm := ⟨fun a b c => by ac_rfl⟩) ((perm_of_injective f hf).map _) 0

/-- The entries of a generated table XOR to 0 (95_test_vectors.md V-T6), so the CHECK of its image is `COUNT ^ DESC`. -/
theorem xorEntries_genEntry (build : Build) (nr : BitVec 8) :
    xorEntries (fun i => (genEntry build nr (BitVec.ofNat 25 i)).setWidth 32) entryCount = 0 := by
  have h : entryCount = 2 ^ 25 := by decide
  have h4 : (2 : Nat) ^ 25 = 4 * 2 ^ 23 := by decide
  rw [h, xorEntries_injective _ (genEntry_injective build nr), h4, xorEntries_count]

/-! ## Sparse images -/

@[simp] theorem Image.setByte_len (build : Build) (nr : BitVec 8) (img : Image) (o : Nat) (v : Byte) :
    (img.setByte build nr o v).len = img.len := by
  unfold Image.setByte; split <;> rfl

theorem Image.setByte_wf {build : Build} {nr : BitVec 8} {img : Image} (h : img.wf build nr = true) (o : Nat) (v : Byte) :
    (img.setByte build nr o v).wf build nr = true := by
  unfold Image.setByte
  split
  · next ho => exact Memory.wf_write _ h ho v
  · exact h

/-- A byte written below the length is read back, and every other byte is as before. -/
theorem Image.byte_setByte {build : Build} {nr : BitVec 8} {img : Image} (h : img.wf build nr = true) {o : Nat}
    (ho : o < img.len) (v : Byte) (a : Nat) :
    (img.setByte build nr o v).byte build nr a = if a = o then v else img.byte build nr a := by
  have hr := ((Memory.wf_iff _).1 h).1
  simp only [Image.setByte, ho, if_true, Image.byte]
  split
  · next h => subst h; exact Memory.read_write_same _ _ hr _ _
  · next h => exact Memory.read_write_other _ _ h _

@[simp] theorem Image.setWord_len (build : Build) (nr : BitVec 8) (img : Image) (k : Nat) (w : Word) :
    (img.setWord build nr k w).len = img.len := by
  simp [Image.setWord, List.range_succ]

theorem Image.setWord_wf {build : Build} {nr : BitVec 8} {img : Image} (h : img.wf build nr = true) (k : Nat) (w : Word) :
    (img.setWord build nr k w).wf build nr = true := by
  simp only [Image.setWord, List.range_succ, List.range_zero, List.nil_append, List.foldl_append, List.foldl_cons,
    List.foldl_nil]
  exact setByte_wf (setByte_wf (setByte_wf (setByte_wf h _ _) _ _) _ _) _ _

/-- A word written inside an image is read back, and every other word is as before. -/
theorem Image.word_setWord {build : Build} {nr : BitVec 8} {img : Image} (h : img.wf build nr = true) {k : Nat}
    (hk : 4 * k + 4 ≤ img.len) (w : Word) (j : Nat) :
    (img.setWord build nr k w).word build nr j = if j = k then w else img.word build nr j := by
  have h0 := setByte_wf h (4 * k + 0) (byteOf w 0)
  have h1 := setByte_wf h0 (4 * k + 1) (byteOf w 1)
  have h2 := setByte_wf h1 (4 * k + 2) (byteOf w 2)
  have hb : ∀ a, (img.setWord build nr k w).byte build nr a =
      if a = 4 * k + 3 then byteOf w 3 else if a = 4 * k + 2 then byteOf w 2 else if a = 4 * k + 1 then byteOf w 1
      else if a = 4 * k + 0 then byteOf w 0 else img.byte build nr a := by
    intro a
    simp only [Image.setWord, List.range_succ, List.range_zero, List.nil_append, List.foldl_append, List.foldl_cons,
      List.foldl_nil]
    rw [byte_setByte h2 (by simp; omega), byte_setByte h1 (by simp; omega), byte_setByte h0 (by simp; omega),
      byte_setByte h (by omega)]
  by_cases hj : j = k
  · subst hj
    rw [if_pos rfl]
    simp only [Image.word, wordAt, hb]
    simp
  · rw [if_neg hj]
    refine wordAt_congr fun i hi => ?_
    rw [hb, if_neg (by omega), if_neg (by omega), if_neg (by omega), if_neg (by omega)]

/-- An image of any length that lists nothing is canonical. -/
theorem Image.wf_unlisted (build : Build) (nr : BitVec 8) (len : Nat) :
    ({ len := len, cells := [] } : Image).wf build nr = true := rfl

theorem Image.ofWrites_wf (build : Build) (nr : BitVec 8) (len : Nat) (writes : List Host.Cell) :
    (Image.ofWrites build nr len writes).wf build nr = true := by
  unfold Image.ofWrites
  have : ∀ img : Image, img.wf build nr = true →
      (writes.foldl (fun img c => img.setByte build nr c.1 c.2) img).wf build nr = true := by
    induction writes with
    | nil => exact fun _ h => h
    | cons c ws ih => exact fun img h => ih _ (setByte_wf h _ _)
  exact this _ (wf_unlisted build nr len)

theorem Image.ofWrites_len (build : Build) (nr : BitVec 8) (len : Nat) (writes : List Host.Cell) :
    (Image.ofWrites build nr len writes).len = len := by
  unfold Image.ofWrites
  have : ∀ img : Image, (writes.foldl (fun img c => img.setByte build nr c.1 c.2) img).len = img.len := by
    induction writes with
    | nil => exact fun _ => rfl
    | cons c ws ih => intro img; rw [List.foldl_cons, ih, setByte_len]
  exact this _

theorem encodeImage_wf (build : Build) (nr : BitVec 8) (tbl : List (Nat × Plane)) :
    (encodeImage build nr tbl).wf build nr = true := by
  unfold encodeImage
  refine Image.setWord_wf ?_ _ _
  have : ∀ img : Image, img.wf build nr = true →
      (tbl.foldl (fun img e => img.setWord build nr (e.1 + 2) (e.2.setWidth 32)) img).wf build nr = true := by
    induction tbl with
    | nil => exact fun _ h => h
    | cons c t ih => exact fun img h => ih _ (Image.setWord_wf h _ _)
  exact this _ (Image.wf_unlisted build nr imageLength)

theorem encodeImage_len (build : Build) (nr : BitVec 8) (tbl : List (Nat × Plane)) :
    (encodeImage build nr tbl).len = imageLength := by
  unfold encodeImage
  rw [Image.setWord_len]
  have : ∀ img : Image,
      (tbl.foldl (fun img e => img.setWord build nr (e.1 + 2) (e.2.setWidth 32)) img).len = img.len := by
    induction tbl with
    | nil => exact fun _ => rfl
    | cons c t ih => intro img; rw [List.foldl_cons, ih, Image.setWord_len]
  exact this _

end Sys2Proof.Machine
end

