-- ==== Sys2Proof/Laws/State.lean ====
section
/-! SUPPORT. One lemma per field per update: what each named update of the state does to each field. -/

namespace Sys2Proof.Machine

/-! ## A read by a command or the host -/

@[simp] theorem State.noteReads_build (s : State) (regs : List PlaneReg) : (s.noteReads regs).build = s.build := rfl
@[simp] theorem State.noteReads_planes (s : State) (regs : List PlaneReg) : (s.noteReads regs).planes = s.planes := rfl
@[simp] theorem State.noteReads_a (s : State) (regs : List PlaneReg) : (s.noteReads regs).a = s.a := rfl
@[simp] theorem State.noteReads_b (s : State) (regs : List PlaneReg) : (s.noteReads regs).b = s.b := rfl
@[simp] theorem State.noteReads_r (s : State) (regs : List PlaneReg) : (s.noteReads regs).r = s.r := rfl
@[simp] theorem State.noteReads_nr (s : State) (regs : List PlaneReg) : (s.noteReads regs).nr = s.nr := rfl
@[simp] theorem State.noteReads_err (s : State) (regs : List PlaneReg) : (s.noteReads regs).err = s.err := rfl
@[simp] theorem State.noteReads_cst (s : State) (regs : List PlaneReg) : (s.noteReads regs).cst = s.cst := rfl
@[simp] theorem State.noteReads_tab (s : State) (regs : List PlaneReg) : (s.noteReads regs).tab = s.tab := rfl
@[simp] theorem State.noteReads_tnr (s : State) (regs : List PlaneReg) : (s.noteReads regs).tnr = s.tnr := rfl
@[simp] theorem State.noteReads_tbl (s : State) (regs : List PlaneReg) : (s.noteReads regs).tbl = s.tbl := rfl
@[simp] theorem State.noteReads_pend (s : State) (regs : List PlaneReg) : (s.noteReads regs).pend = s.pend := rfl
@[simp] theorem State.noteReads_store (s : State) (regs : List PlaneReg) : (s.noteReads regs).store = s.store := rfl
@[simp] theorem State.noteReads_retrieveDraws (s : State) (regs : List PlaneReg) : (s.noteReads regs).retrieveDraws = s.retrieveDraws := rfl
@[simp] theorem State.noteReads_saveDraws (s : State) (regs : List PlaneReg) : (s.noteReads regs).saveDraws = s.saveDraws := rfl
@[simp] theorem State.noteReads_asked (s : State) (regs : List PlaneReg) : (s.noteReads regs).asked = s.asked := rfl
@[simp] theorem State.noteReads_program (s : State) (regs : List PlaneReg) : (s.noteReads regs).program = s.program := rfl
@[simp] theorem State.noteReads_hostPos (s : State) (regs : List PlaneReg) : (s.noteReads regs).hostPos = s.hostPos := rfl
@[simp] theorem State.noteReads_results (s : State) (regs : List PlaneReg) : (s.noteReads regs).results = s.results := rfl
@[simp] theorem State.noteReads_schedule (s : State) (regs : List PlaneReg) : (s.noteReads regs).schedule = s.schedule := rfl
@[simp] theorem State.noteReads_busyHazardSeen (s : State) (regs : List PlaneReg) : (s.noteReads regs).busyHazardSeen = s.busyHazardSeen := rfl
@[simp] theorem State.noteReads_busyWindow (s : State) (regs : List PlaneReg) : (s.noteReads regs).busyWindow = s.busyWindow := rfl
@[simp] theorem State.noteReads_unwrittenRead (s : State) (regs : List PlaneReg) : (s.noteReads regs).unwrittenRead = (s.unwrittenRead || regs.any fun q => !q.written) := rfl

/-! ## A write of the state register -/

@[simp] theorem State.writeState_build (s : State) (v : List Plane) : (s.writeState v).build = s.build := rfl
@[simp] theorem State.writeState_planes (s : State) (v : List Plane) : (s.writeState v).planes = v.map PlaneReg.filled := rfl
@[simp] theorem State.writeState_a (s : State) (v : List Plane) : (s.writeState v).a = s.a := rfl
@[simp] theorem State.writeState_b (s : State) (v : List Plane) : (s.writeState v).b = s.b := rfl
@[simp] theorem State.writeState_r (s : State) (v : List Plane) : (s.writeState v).r = s.r := rfl
@[simp] theorem State.writeState_nr (s : State) (v : List Plane) : (s.writeState v).nr = s.nr := rfl
@[simp] theorem State.writeState_err (s : State) (v : List Plane) : (s.writeState v).err = s.err := rfl
@[simp] theorem State.writeState_cst (s : State) (v : List Plane) : (s.writeState v).cst = s.cst := rfl
@[simp] theorem State.writeState_tab (s : State) (v : List Plane) : (s.writeState v).tab = s.tab := rfl
@[simp] theorem State.writeState_tnr (s : State) (v : List Plane) : (s.writeState v).tnr = s.tnr := rfl
@[simp] theorem State.writeState_tbl (s : State) (v : List Plane) : (s.writeState v).tbl = s.tbl := rfl
@[simp] theorem State.writeState_pend (s : State) (v : List Plane) : (s.writeState v).pend = s.pend := rfl
@[simp] theorem State.writeState_store (s : State) (v : List Plane) : (s.writeState v).store = s.store := rfl
@[simp] theorem State.writeState_retrieveDraws (s : State) (v : List Plane) : (s.writeState v).retrieveDraws = s.retrieveDraws := rfl
@[simp] theorem State.writeState_saveDraws (s : State) (v : List Plane) : (s.writeState v).saveDraws = s.saveDraws := rfl
@[simp] theorem State.writeState_asked (s : State) (v : List Plane) : (s.writeState v).asked = s.asked := rfl
@[simp] theorem State.writeState_program (s : State) (v : List Plane) : (s.writeState v).program = s.program := rfl
@[simp] theorem State.writeState_hostPos (s : State) (v : List Plane) : (s.writeState v).hostPos = s.hostPos := rfl
@[simp] theorem State.writeState_results (s : State) (v : List Plane) : (s.writeState v).results = s.results := rfl
@[simp] theorem State.writeState_schedule (s : State) (v : List Plane) : (s.writeState v).schedule = s.schedule := rfl
@[simp] theorem State.writeState_busyHazardSeen (s : State) (v : List Plane) : (s.writeState v).busyHazardSeen = s.busyHazardSeen := rfl
@[simp] theorem State.writeState_busyWindow (s : State) (v : List Plane) : (s.writeState v).busyWindow = s.busyWindow := rfl
@[simp] theorem State.writeState_unwrittenRead (s : State) (v : List Plane) : (s.writeState v).unwrittenRead = s.unwrittenRead := rfl

/-! ## A write of one state plane -/

@[simp] theorem State.writePlane_build (s : State) (z : Nat) (p : Plane) : (s.writePlane z p).build = s.build := rfl
@[simp] theorem State.writePlane_planes (s : State) (z : Nat) (p : Plane) : (s.writePlane z p).planes = s.planes.set z (PlaneReg.filled p) := rfl
@[simp] theorem State.writePlane_a (s : State) (z : Nat) (p : Plane) : (s.writePlane z p).a = s.a := rfl
@[simp] theorem State.writePlane_b (s : State) (z : Nat) (p : Plane) : (s.writePlane z p).b = s.b := rfl
@[simp] theorem State.writePlane_r (s : State) (z : Nat) (p : Plane) : (s.writePlane z p).r = s.r := rfl
@[simp] theorem State.writePlane_nr (s : State) (z : Nat) (p : Plane) : (s.writePlane z p).nr = s.nr := rfl
@[simp] theorem State.writePlane_err (s : State) (z : Nat) (p : Plane) : (s.writePlane z p).err = s.err := rfl
@[simp] theorem State.writePlane_cst (s : State) (z : Nat) (p : Plane) : (s.writePlane z p).cst = s.cst := rfl
@[simp] theorem State.writePlane_tab (s : State) (z : Nat) (p : Plane) : (s.writePlane z p).tab = s.tab := rfl
@[simp] theorem State.writePlane_tnr (s : State) (z : Nat) (p : Plane) : (s.writePlane z p).tnr = s.tnr := rfl
@[simp] theorem State.writePlane_tbl (s : State) (z : Nat) (p : Plane) : (s.writePlane z p).tbl = s.tbl := rfl
@[simp] theorem State.writePlane_pend (s : State) (z : Nat) (p : Plane) : (s.writePlane z p).pend = s.pend := rfl
@[simp] theorem State.writePlane_store (s : State) (z : Nat) (p : Plane) : (s.writePlane z p).store = s.store := rfl
@[simp] theorem State.writePlane_retrieveDraws (s : State) (z : Nat) (p : Plane) : (s.writePlane z p).retrieveDraws = s.retrieveDraws := rfl
@[simp] theorem State.writePlane_saveDraws (s : State) (z : Nat) (p : Plane) : (s.writePlane z p).saveDraws = s.saveDraws := rfl
@[simp] theorem State.writePlane_asked (s : State) (z : Nat) (p : Plane) : (s.writePlane z p).asked = s.asked := rfl
@[simp] theorem State.writePlane_program (s : State) (z : Nat) (p : Plane) : (s.writePlane z p).program = s.program := rfl
@[simp] theorem State.writePlane_hostPos (s : State) (z : Nat) (p : Plane) : (s.writePlane z p).hostPos = s.hostPos := rfl
@[simp] theorem State.writePlane_results (s : State) (z : Nat) (p : Plane) : (s.writePlane z p).results = s.results := rfl
@[simp] theorem State.writePlane_schedule (s : State) (z : Nat) (p : Plane) : (s.writePlane z p).schedule = s.schedule := rfl
@[simp] theorem State.writePlane_busyHazardSeen (s : State) (z : Nat) (p : Plane) : (s.writePlane z p).busyHazardSeen = s.busyHazardSeen := rfl
@[simp] theorem State.writePlane_busyWindow (s : State) (z : Nat) (p : Plane) : (s.writePlane z p).busyWindow = s.busyWindow := rfl
@[simp] theorem State.writePlane_unwrittenRead (s : State) (z : Nat) (p : Plane) : (s.writePlane z p).unwrittenRead = s.unwrittenRead := rfl

/-! ## A write of `R` -/

@[simp] theorem State.writeR_build (s : State) (p : Plane) : (s.writeR p).build = s.build := rfl
@[simp] theorem State.writeR_planes (s : State) (p : Plane) : (s.writeR p).planes = s.planes := rfl
@[simp] theorem State.writeR_a (s : State) (p : Plane) : (s.writeR p).a = s.a := rfl
@[simp] theorem State.writeR_b (s : State) (p : Plane) : (s.writeR p).b = s.b := rfl
@[simp] theorem State.writeR_r (s : State) (p : Plane) : (s.writeR p).r = PlaneReg.filled p := rfl
@[simp] theorem State.writeR_nr (s : State) (p : Plane) : (s.writeR p).nr = s.nr := rfl
@[simp] theorem State.writeR_err (s : State) (p : Plane) : (s.writeR p).err = s.err := rfl
@[simp] theorem State.writeR_cst (s : State) (p : Plane) : (s.writeR p).cst = s.cst := rfl
@[simp] theorem State.writeR_tab (s : State) (p : Plane) : (s.writeR p).tab = s.tab := rfl
@[simp] theorem State.writeR_tnr (s : State) (p : Plane) : (s.writeR p).tnr = s.tnr := rfl
@[simp] theorem State.writeR_tbl (s : State) (p : Plane) : (s.writeR p).tbl = s.tbl := rfl
@[simp] theorem State.writeR_pend (s : State) (p : Plane) : (s.writeR p).pend = s.pend := rfl
@[simp] theorem State.writeR_store (s : State) (p : Plane) : (s.writeR p).store = s.store := rfl
@[simp] theorem State.writeR_retrieveDraws (s : State) (p : Plane) : (s.writeR p).retrieveDraws = s.retrieveDraws := rfl
@[simp] theorem State.writeR_saveDraws (s : State) (p : Plane) : (s.writeR p).saveDraws = s.saveDraws := rfl
@[simp] theorem State.writeR_asked (s : State) (p : Plane) : (s.writeR p).asked = s.asked := rfl
@[simp] theorem State.writeR_program (s : State) (p : Plane) : (s.writeR p).program = s.program := rfl
@[simp] theorem State.writeR_hostPos (s : State) (p : Plane) : (s.writeR p).hostPos = s.hostPos := rfl
@[simp] theorem State.writeR_results (s : State) (p : Plane) : (s.writeR p).results = s.results := rfl
@[simp] theorem State.writeR_schedule (s : State) (p : Plane) : (s.writeR p).schedule = s.schedule := rfl
@[simp] theorem State.writeR_busyHazardSeen (s : State) (p : Plane) : (s.writeR p).busyHazardSeen = s.busyHazardSeen := rfl
@[simp] theorem State.writeR_busyWindow (s : State) (p : Plane) : (s.writeR p).busyWindow = s.busyWindow := rfl
@[simp] theorem State.writeR_unwrittenRead (s : State) (p : Plane) : (s.writeR p).unwrittenRead = s.unwrittenRead := rfl

/-! ## Other content under one key of the store -/

@[simp] theorem State.storeContent_build (s : State) (nr : BitVec 8) (c : Option Image) : (s.storeContent nr c).build = s.build := rfl
@[simp] theorem State.storeContent_planes (s : State) (nr : BitVec 8) (c : Option Image) : (s.storeContent nr c).planes = s.planes := rfl
@[simp] theorem State.storeContent_a (s : State) (nr : BitVec 8) (c : Option Image) : (s.storeContent nr c).a = s.a := rfl
@[simp] theorem State.storeContent_b (s : State) (nr : BitVec 8) (c : Option Image) : (s.storeContent nr c).b = s.b := rfl
@[simp] theorem State.storeContent_r (s : State) (nr : BitVec 8) (c : Option Image) : (s.storeContent nr c).r = s.r := rfl
@[simp] theorem State.storeContent_nr (s : State) (nr : BitVec 8) (c : Option Image) : (s.storeContent nr c).nr = s.nr := rfl
@[simp] theorem State.storeContent_err (s : State) (nr : BitVec 8) (c : Option Image) : (s.storeContent nr c).err = s.err := rfl
@[simp] theorem State.storeContent_cst (s : State) (nr : BitVec 8) (c : Option Image) : (s.storeContent nr c).cst = s.cst := rfl
@[simp] theorem State.storeContent_tab (s : State) (nr : BitVec 8) (c : Option Image) : (s.storeContent nr c).tab = s.tab := rfl
@[simp] theorem State.storeContent_tnr (s : State) (nr : BitVec 8) (c : Option Image) : (s.storeContent nr c).tnr = s.tnr := rfl
@[simp] theorem State.storeContent_tbl (s : State) (nr : BitVec 8) (c : Option Image) : (s.storeContent nr c).tbl = s.tbl := rfl
@[simp] theorem State.storeContent_pend (s : State) (nr : BitVec 8) (c : Option Image) : (s.storeContent nr c).pend = s.pend := rfl
@[simp] theorem State.storeContent_store (s : State) (nr : BitVec 8) (c : Option Image) : (s.storeContent nr c).store = Memory.write storeFill s.store nr.toNat c := rfl
@[simp] theorem State.storeContent_retrieveDraws (s : State) (nr : BitVec 8) (c : Option Image) : (s.storeContent nr c).retrieveDraws = s.retrieveDraws := rfl
@[simp] theorem State.storeContent_saveDraws (s : State) (nr : BitVec 8) (c : Option Image) : (s.storeContent nr c).saveDraws = s.saveDraws := rfl
@[simp] theorem State.storeContent_asked (s : State) (nr : BitVec 8) (c : Option Image) : (s.storeContent nr c).asked = s.asked := rfl
@[simp] theorem State.storeContent_program (s : State) (nr : BitVec 8) (c : Option Image) : (s.storeContent nr c).program = s.program := rfl
@[simp] theorem State.storeContent_hostPos (s : State) (nr : BitVec 8) (c : Option Image) : (s.storeContent nr c).hostPos = s.hostPos := rfl
@[simp] theorem State.storeContent_results (s : State) (nr : BitVec 8) (c : Option Image) : (s.storeContent nr c).results = s.results := rfl
@[simp] theorem State.storeContent_schedule (s : State) (nr : BitVec 8) (c : Option Image) : (s.storeContent nr c).schedule = s.schedule := rfl
@[simp] theorem State.storeContent_busyHazardSeen (s : State) (nr : BitVec 8) (c : Option Image) : (s.storeContent nr c).busyHazardSeen = s.busyHazardSeen := rfl
@[simp] theorem State.storeContent_busyWindow (s : State) (nr : BitVec 8) (c : Option Image) : (s.storeContent nr c).busyWindow = s.busyWindow := rfl
@[simp] theorem State.storeContent_unwrittenRead (s : State) (nr : BitVec 8) (c : Option Image) : (s.storeContent nr c).unwrittenRead = s.unwrittenRead := rfl

/-! ## A draw about a read is taken -/

@[simp] theorem State.takeReadDraw_build (s : State) : (s.takeReadDraw).build = s.build := rfl
@[simp] theorem State.takeReadDraw_planes (s : State) : (s.takeReadDraw).planes = s.planes := rfl
@[simp] theorem State.takeReadDraw_a (s : State) : (s.takeReadDraw).a = s.a := rfl
@[simp] theorem State.takeReadDraw_b (s : State) : (s.takeReadDraw).b = s.b := rfl
@[simp] theorem State.takeReadDraw_r (s : State) : (s.takeReadDraw).r = s.r := rfl
@[simp] theorem State.takeReadDraw_nr (s : State) : (s.takeReadDraw).nr = s.nr := rfl
@[simp] theorem State.takeReadDraw_err (s : State) : (s.takeReadDraw).err = s.err := rfl
@[simp] theorem State.takeReadDraw_cst (s : State) : (s.takeReadDraw).cst = s.cst := rfl
@[simp] theorem State.takeReadDraw_tab (s : State) : (s.takeReadDraw).tab = s.tab := rfl
@[simp] theorem State.takeReadDraw_tnr (s : State) : (s.takeReadDraw).tnr = s.tnr := rfl
@[simp] theorem State.takeReadDraw_tbl (s : State) : (s.takeReadDraw).tbl = s.tbl := rfl
@[simp] theorem State.takeReadDraw_pend (s : State) : (s.takeReadDraw).pend = s.pend := rfl
@[simp] theorem State.takeReadDraw_store (s : State) : (s.takeReadDraw).store = s.store := rfl
@[simp] theorem State.takeReadDraw_retrieveDraws (s : State) : (s.takeReadDraw).retrieveDraws = s.retrieveDraws.tail := rfl
@[simp] theorem State.takeReadDraw_saveDraws (s : State) : (s.takeReadDraw).saveDraws = s.saveDraws := rfl
@[simp] theorem State.takeReadDraw_asked (s : State) : (s.takeReadDraw).asked = s.asked + 1 := rfl
@[simp] theorem State.takeReadDraw_program (s : State) : (s.takeReadDraw).program = s.program := rfl
@[simp] theorem State.takeReadDraw_hostPos (s : State) : (s.takeReadDraw).hostPos = s.hostPos := rfl
@[simp] theorem State.takeReadDraw_results (s : State) : (s.takeReadDraw).results = s.results := rfl
@[simp] theorem State.takeReadDraw_schedule (s : State) : (s.takeReadDraw).schedule = s.schedule := rfl
@[simp] theorem State.takeReadDraw_busyHazardSeen (s : State) : (s.takeReadDraw).busyHazardSeen = s.busyHazardSeen := rfl
@[simp] theorem State.takeReadDraw_busyWindow (s : State) : (s.takeReadDraw).busyWindow = s.busyWindow := rfl
@[simp] theorem State.takeReadDraw_unwrittenRead (s : State) : (s.takeReadDraw).unwrittenRead = s.unwrittenRead := rfl

/-! ## A draw about a save is taken -/

@[simp] theorem State.takeSaveDraw_build (s : State) : (s.takeSaveDraw).build = s.build := rfl
@[simp] theorem State.takeSaveDraw_planes (s : State) : (s.takeSaveDraw).planes = s.planes := rfl
@[simp] theorem State.takeSaveDraw_a (s : State) : (s.takeSaveDraw).a = s.a := rfl
@[simp] theorem State.takeSaveDraw_b (s : State) : (s.takeSaveDraw).b = s.b := rfl
@[simp] theorem State.takeSaveDraw_r (s : State) : (s.takeSaveDraw).r = s.r := rfl
@[simp] theorem State.takeSaveDraw_nr (s : State) : (s.takeSaveDraw).nr = s.nr := rfl
@[simp] theorem State.takeSaveDraw_err (s : State) : (s.takeSaveDraw).err = s.err := rfl
@[simp] theorem State.takeSaveDraw_cst (s : State) : (s.takeSaveDraw).cst = s.cst := rfl
@[simp] theorem State.takeSaveDraw_tab (s : State) : (s.takeSaveDraw).tab = s.tab := rfl
@[simp] theorem State.takeSaveDraw_tnr (s : State) : (s.takeSaveDraw).tnr = s.tnr := rfl
@[simp] theorem State.takeSaveDraw_tbl (s : State) : (s.takeSaveDraw).tbl = s.tbl := rfl
@[simp] theorem State.takeSaveDraw_pend (s : State) : (s.takeSaveDraw).pend = s.pend := rfl
@[simp] theorem State.takeSaveDraw_store (s : State) : (s.takeSaveDraw).store = s.store := rfl
@[simp] theorem State.takeSaveDraw_retrieveDraws (s : State) : (s.takeSaveDraw).retrieveDraws = s.retrieveDraws := rfl
@[simp] theorem State.takeSaveDraw_saveDraws (s : State) : (s.takeSaveDraw).saveDraws = s.saveDraws.tail := rfl
@[simp] theorem State.takeSaveDraw_asked (s : State) : (s.takeSaveDraw).asked = s.asked + 1 := rfl
@[simp] theorem State.takeSaveDraw_program (s : State) : (s.takeSaveDraw).program = s.program := rfl
@[simp] theorem State.takeSaveDraw_hostPos (s : State) : (s.takeSaveDraw).hostPos = s.hostPos := rfl
@[simp] theorem State.takeSaveDraw_results (s : State) : (s.takeSaveDraw).results = s.results := rfl
@[simp] theorem State.takeSaveDraw_schedule (s : State) : (s.takeSaveDraw).schedule = s.schedule := rfl
@[simp] theorem State.takeSaveDraw_busyHazardSeen (s : State) : (s.takeSaveDraw).busyHazardSeen = s.busyHazardSeen := rfl
@[simp] theorem State.takeSaveDraw_busyWindow (s : State) : (s.takeSaveDraw).busyWindow = s.busyWindow := rfl
@[simp] theorem State.takeSaveDraw_unwrittenRead (s : State) : (s.takeSaveDraw).unwrittenRead = s.unwrittenRead := rfl

/-! ## A table comes into the table memory -/

@[simp] theorem State.tabulate_build (s : State) (nr : BitVec 8) (tbl : List (Nat × Plane)) (c : CstCode) : (s.tabulate nr tbl c).build = s.build := rfl
@[simp] theorem State.tabulate_planes (s : State) (nr : BitVec 8) (tbl : List (Nat × Plane)) (c : CstCode) : (s.tabulate nr tbl c).planes = s.planes := rfl
@[simp] theorem State.tabulate_a (s : State) (nr : BitVec 8) (tbl : List (Nat × Plane)) (c : CstCode) : (s.tabulate nr tbl c).a = s.a := rfl
@[simp] theorem State.tabulate_b (s : State) (nr : BitVec 8) (tbl : List (Nat × Plane)) (c : CstCode) : (s.tabulate nr tbl c).b = s.b := rfl
@[simp] theorem State.tabulate_r (s : State) (nr : BitVec 8) (tbl : List (Nat × Plane)) (c : CstCode) : (s.tabulate nr tbl c).r = s.r := rfl
@[simp] theorem State.tabulate_nr (s : State) (nr : BitVec 8) (tbl : List (Nat × Plane)) (c : CstCode) : (s.tabulate nr tbl c).nr = s.nr := rfl
@[simp] theorem State.tabulate_err (s : State) (nr : BitVec 8) (tbl : List (Nat × Plane)) (c : CstCode) : (s.tabulate nr tbl c).err = s.err := rfl
@[simp] theorem State.tabulate_cst (s : State) (nr : BitVec 8) (tbl : List (Nat × Plane)) (c : CstCode) : (s.tabulate nr tbl c).cst = c := rfl
@[simp] theorem State.tabulate_tab (s : State) (nr : BitVec 8) (tbl : List (Nat × Plane)) (c : CstCode) : (s.tabulate nr tbl c).tab = true := rfl
@[simp] theorem State.tabulate_tnr (s : State) (nr : BitVec 8) (tbl : List (Nat × Plane)) (c : CstCode) : (s.tabulate nr tbl c).tnr = nr := rfl
@[simp] theorem State.tabulate_tbl (s : State) (nr : BitVec 8) (tbl : List (Nat × Plane)) (c : CstCode) : (s.tabulate nr tbl c).tbl = tbl := rfl
@[simp] theorem State.tabulate_pend (s : State) (nr : BitVec 8) (tbl : List (Nat × Plane)) (c : CstCode) : (s.tabulate nr tbl c).pend = s.pend := rfl
@[simp] theorem State.tabulate_store (s : State) (nr : BitVec 8) (tbl : List (Nat × Plane)) (c : CstCode) : (s.tabulate nr tbl c).store = s.store := rfl
@[simp] theorem State.tabulate_retrieveDraws (s : State) (nr : BitVec 8) (tbl : List (Nat × Plane)) (c : CstCode) : (s.tabulate nr tbl c).retrieveDraws = s.retrieveDraws := rfl
@[simp] theorem State.tabulate_saveDraws (s : State) (nr : BitVec 8) (tbl : List (Nat × Plane)) (c : CstCode) : (s.tabulate nr tbl c).saveDraws = s.saveDraws := rfl
@[simp] theorem State.tabulate_asked (s : State) (nr : BitVec 8) (tbl : List (Nat × Plane)) (c : CstCode) : (s.tabulate nr tbl c).asked = s.asked := rfl
@[simp] theorem State.tabulate_program (s : State) (nr : BitVec 8) (tbl : List (Nat × Plane)) (c : CstCode) : (s.tabulate nr tbl c).program = s.program := rfl
@[simp] theorem State.tabulate_hostPos (s : State) (nr : BitVec 8) (tbl : List (Nat × Plane)) (c : CstCode) : (s.tabulate nr tbl c).hostPos = s.hostPos := rfl
@[simp] theorem State.tabulate_results (s : State) (nr : BitVec 8) (tbl : List (Nat × Plane)) (c : CstCode) : (s.tabulate nr tbl c).results = s.results := rfl
@[simp] theorem State.tabulate_schedule (s : State) (nr : BitVec 8) (tbl : List (Nat × Plane)) (c : CstCode) : (s.tabulate nr tbl c).schedule = s.schedule := rfl
@[simp] theorem State.tabulate_busyHazardSeen (s : State) (nr : BitVec 8) (tbl : List (Nat × Plane)) (c : CstCode) : (s.tabulate nr tbl c).busyHazardSeen = s.busyHazardSeen := rfl
@[simp] theorem State.tabulate_busyWindow (s : State) (nr : BitVec 8) (tbl : List (Nat × Plane)) (c : CstCode) : (s.tabulate nr tbl c).busyWindow = s.busyWindow := rfl
@[simp] theorem State.tabulate_unwrittenRead (s : State) (nr : BitVec 8) (tbl : List (Nat × Plane)) (c : CstCode) : (s.tabulate nr tbl c).unwrittenRead = s.unwrittenRead := rfl

/-! ## The host goes on -/

@[simp] theorem State.advanceHost_build (s : State) : (s.advanceHost).build = s.build := rfl
@[simp] theorem State.advanceHost_planes (s : State) : (s.advanceHost).planes = s.planes := rfl
@[simp] theorem State.advanceHost_a (s : State) : (s.advanceHost).a = s.a := rfl
@[simp] theorem State.advanceHost_b (s : State) : (s.advanceHost).b = s.b := rfl
@[simp] theorem State.advanceHost_r (s : State) : (s.advanceHost).r = s.r := rfl
@[simp] theorem State.advanceHost_nr (s : State) : (s.advanceHost).nr = s.nr := rfl
@[simp] theorem State.advanceHost_err (s : State) : (s.advanceHost).err = s.err := rfl
@[simp] theorem State.advanceHost_cst (s : State) : (s.advanceHost).cst = s.cst := rfl
@[simp] theorem State.advanceHost_tab (s : State) : (s.advanceHost).tab = s.tab := rfl
@[simp] theorem State.advanceHost_tnr (s : State) : (s.advanceHost).tnr = s.tnr := rfl
@[simp] theorem State.advanceHost_tbl (s : State) : (s.advanceHost).tbl = s.tbl := rfl
@[simp] theorem State.advanceHost_pend (s : State) : (s.advanceHost).pend = s.pend := rfl
@[simp] theorem State.advanceHost_store (s : State) : (s.advanceHost).store = s.store := rfl
@[simp] theorem State.advanceHost_retrieveDraws (s : State) : (s.advanceHost).retrieveDraws = s.retrieveDraws := rfl
@[simp] theorem State.advanceHost_saveDraws (s : State) : (s.advanceHost).saveDraws = s.saveDraws := rfl
@[simp] theorem State.advanceHost_asked (s : State) : (s.advanceHost).asked = s.asked := rfl
@[simp] theorem State.advanceHost_program (s : State) : (s.advanceHost).program = s.program := rfl
@[simp] theorem State.advanceHost_hostPos (s : State) : (s.advanceHost).hostPos = s.hostPos + 1 := rfl
@[simp] theorem State.advanceHost_results (s : State) : (s.advanceHost).results = s.results := rfl
@[simp] theorem State.advanceHost_schedule (s : State) : (s.advanceHost).schedule = s.schedule := rfl
@[simp] theorem State.advanceHost_busyHazardSeen (s : State) : (s.advanceHost).busyHazardSeen = s.busyHazardSeen := rfl
@[simp] theorem State.advanceHost_busyWindow (s : State) : (s.advanceHost).busyWindow = s.busyWindow := rfl
@[simp] theorem State.advanceHost_unwrittenRead (s : State) : (s.advanceHost).unwrittenRead = s.unwrittenRead := rfl

/-! ## An access before the host has read BUSY = 0 -/

@[simp] theorem State.noteHazard_build (s : State) (quiet : Bool) : (s.noteHazard quiet).build = s.build := rfl
@[simp] theorem State.noteHazard_planes (s : State) (quiet : Bool) : (s.noteHazard quiet).planes = s.planes := rfl
@[simp] theorem State.noteHazard_a (s : State) (quiet : Bool) : (s.noteHazard quiet).a = s.a := rfl
@[simp] theorem State.noteHazard_b (s : State) (quiet : Bool) : (s.noteHazard quiet).b = s.b := rfl
@[simp] theorem State.noteHazard_r (s : State) (quiet : Bool) : (s.noteHazard quiet).r = s.r := rfl
@[simp] theorem State.noteHazard_nr (s : State) (quiet : Bool) : (s.noteHazard quiet).nr = s.nr := rfl
@[simp] theorem State.noteHazard_err (s : State) (quiet : Bool) : (s.noteHazard quiet).err = s.err := rfl
@[simp] theorem State.noteHazard_cst (s : State) (quiet : Bool) : (s.noteHazard quiet).cst = s.cst := rfl
@[simp] theorem State.noteHazard_tab (s : State) (quiet : Bool) : (s.noteHazard quiet).tab = s.tab := rfl
@[simp] theorem State.noteHazard_tnr (s : State) (quiet : Bool) : (s.noteHazard quiet).tnr = s.tnr := rfl
@[simp] theorem State.noteHazard_tbl (s : State) (quiet : Bool) : (s.noteHazard quiet).tbl = s.tbl := rfl
@[simp] theorem State.noteHazard_pend (s : State) (quiet : Bool) : (s.noteHazard quiet).pend = s.pend := rfl
@[simp] theorem State.noteHazard_store (s : State) (quiet : Bool) : (s.noteHazard quiet).store = s.store := rfl
@[simp] theorem State.noteHazard_retrieveDraws (s : State) (quiet : Bool) : (s.noteHazard quiet).retrieveDraws = s.retrieveDraws := rfl
@[simp] theorem State.noteHazard_saveDraws (s : State) (quiet : Bool) : (s.noteHazard quiet).saveDraws = s.saveDraws := rfl
@[simp] theorem State.noteHazard_asked (s : State) (quiet : Bool) : (s.noteHazard quiet).asked = s.asked := rfl
@[simp] theorem State.noteHazard_program (s : State) (quiet : Bool) : (s.noteHazard quiet).program = s.program := rfl
@[simp] theorem State.noteHazard_hostPos (s : State) (quiet : Bool) : (s.noteHazard quiet).hostPos = s.hostPos := rfl
@[simp] theorem State.noteHazard_results (s : State) (quiet : Bool) : (s.noteHazard quiet).results = s.results := rfl
@[simp] theorem State.noteHazard_schedule (s : State) (quiet : Bool) : (s.noteHazard quiet).schedule = s.schedule := rfl
@[simp] theorem State.noteHazard_busyWindow (s : State) (quiet : Bool) : (s.noteHazard quiet).busyWindow = s.busyWindow := rfl
@[simp] theorem State.noteHazard_unwrittenRead (s : State) (quiet : Bool) : (s.noteHazard quiet).unwrittenRead = s.unwrittenRead := rfl
@[simp] theorem State.noteHazard_busyHazardSeen (s : State) (quiet : Bool) :
    (s.noteHazard quiet).busyHazardSeen = (s.busyHazardSeen || (s.busyWindow && !quiet)) := rfl

/-- Outside the busy window nothing is recorded (70_reset_and_hazards.md R300). -/
theorem State.noteHazard_of_closed {s : State} (h : s.busyWindow = false) (quiet : Bool) : s.noteHazard quiet = s := by
  cases s
  simp_all [State.noteHazard]

/-! ## The host reads BUSY -/

@[simp] theorem State.observe_build (s : State) (reg : WindowReg) : (s.observe reg).build = s.build := rfl
@[simp] theorem State.observe_planes (s : State) (reg : WindowReg) : (s.observe reg).planes = s.planes := rfl
@[simp] theorem State.observe_a (s : State) (reg : WindowReg) : (s.observe reg).a = s.a := rfl
@[simp] theorem State.observe_b (s : State) (reg : WindowReg) : (s.observe reg).b = s.b := rfl
@[simp] theorem State.observe_r (s : State) (reg : WindowReg) : (s.observe reg).r = s.r := rfl
@[simp] theorem State.observe_nr (s : State) (reg : WindowReg) : (s.observe reg).nr = s.nr := rfl
@[simp] theorem State.observe_err (s : State) (reg : WindowReg) : (s.observe reg).err = s.err := rfl
@[simp] theorem State.observe_cst (s : State) (reg : WindowReg) : (s.observe reg).cst = s.cst := rfl
@[simp] theorem State.observe_tab (s : State) (reg : WindowReg) : (s.observe reg).tab = s.tab := rfl
@[simp] theorem State.observe_tnr (s : State) (reg : WindowReg) : (s.observe reg).tnr = s.tnr := rfl
@[simp] theorem State.observe_tbl (s : State) (reg : WindowReg) : (s.observe reg).tbl = s.tbl := rfl
@[simp] theorem State.observe_pend (s : State) (reg : WindowReg) : (s.observe reg).pend = s.pend := rfl
@[simp] theorem State.observe_store (s : State) (reg : WindowReg) : (s.observe reg).store = s.store := rfl
@[simp] theorem State.observe_retrieveDraws (s : State) (reg : WindowReg) : (s.observe reg).retrieveDraws = s.retrieveDraws := rfl
@[simp] theorem State.observe_saveDraws (s : State) (reg : WindowReg) : (s.observe reg).saveDraws = s.saveDraws := rfl
@[simp] theorem State.observe_asked (s : State) (reg : WindowReg) : (s.observe reg).asked = s.asked := rfl
@[simp] theorem State.observe_program (s : State) (reg : WindowReg) : (s.observe reg).program = s.program := rfl
@[simp] theorem State.observe_hostPos (s : State) (reg : WindowReg) : (s.observe reg).hostPos = s.hostPos := rfl
@[simp] theorem State.observe_results (s : State) (reg : WindowReg) : (s.observe reg).results = s.results := rfl
@[simp] theorem State.observe_schedule (s : State) (reg : WindowReg) : (s.observe reg).schedule = s.schedule := rfl
@[simp] theorem State.observe_busyHazardSeen (s : State) (reg : WindowReg) : (s.observe reg).busyHazardSeen = s.busyHazardSeen := rfl
@[simp] theorem State.observe_unwrittenRead (s : State) (reg : WindowReg) : (s.observe reg).unwrittenRead = s.unwrittenRead := rfl
@[simp] theorem State.observe_busyWindow (s : State) (reg : WindowReg) :
    (s.observe reg).busyWindow = if reg = .status ∧ s.pend = none then false else s.busyWindow := rfl

/-! ## A host program is loaded -/

@[simp] theorem State.withProgram_build (s : State) (ops : List HostOp) : (s.withProgram ops).build = s.build := rfl
@[simp] theorem State.withProgram_planes (s : State) (ops : List HostOp) : (s.withProgram ops).planes = s.planes := rfl
@[simp] theorem State.withProgram_a (s : State) (ops : List HostOp) : (s.withProgram ops).a = s.a := rfl
@[simp] theorem State.withProgram_b (s : State) (ops : List HostOp) : (s.withProgram ops).b = s.b := rfl
@[simp] theorem State.withProgram_r (s : State) (ops : List HostOp) : (s.withProgram ops).r = s.r := rfl
@[simp] theorem State.withProgram_nr (s : State) (ops : List HostOp) : (s.withProgram ops).nr = s.nr := rfl
@[simp] theorem State.withProgram_err (s : State) (ops : List HostOp) : (s.withProgram ops).err = s.err := rfl
@[simp] theorem State.withProgram_cst (s : State) (ops : List HostOp) : (s.withProgram ops).cst = s.cst := rfl
@[simp] theorem State.withProgram_tab (s : State) (ops : List HostOp) : (s.withProgram ops).tab = s.tab := rfl
@[simp] theorem State.withProgram_tnr (s : State) (ops : List HostOp) : (s.withProgram ops).tnr = s.tnr := rfl
@[simp] theorem State.withProgram_tbl (s : State) (ops : List HostOp) : (s.withProgram ops).tbl = s.tbl := rfl
@[simp] theorem State.withProgram_pend (s : State) (ops : List HostOp) : (s.withProgram ops).pend = s.pend := rfl
@[simp] theorem State.withProgram_store (s : State) (ops : List HostOp) : (s.withProgram ops).store = s.store := rfl
@[simp] theorem State.withProgram_retrieveDraws (s : State) (ops : List HostOp) : (s.withProgram ops).retrieveDraws = s.retrieveDraws := rfl
@[simp] theorem State.withProgram_saveDraws (s : State) (ops : List HostOp) : (s.withProgram ops).saveDraws = s.saveDraws := rfl
@[simp] theorem State.withProgram_asked (s : State) (ops : List HostOp) : (s.withProgram ops).asked = s.asked := rfl
@[simp] theorem State.withProgram_program (s : State) (ops : List HostOp) : (s.withProgram ops).program = ops := rfl
@[simp] theorem State.withProgram_hostPos (s : State) (ops : List HostOp) : (s.withProgram ops).hostPos = 0 := rfl
@[simp] theorem State.withProgram_results (s : State) (ops : List HostOp) : (s.withProgram ops).results = s.results := rfl
@[simp] theorem State.withProgram_schedule (s : State) (ops : List HostOp) : (s.withProgram ops).schedule = s.schedule := rfl
@[simp] theorem State.withProgram_busyHazardSeen (s : State) (ops : List HostOp) : (s.withProgram ops).busyHazardSeen = s.busyHazardSeen := rfl
@[simp] theorem State.withProgram_busyWindow (s : State) (ops : List HostOp) : (s.withProgram ops).busyWindow = s.busyWindow := rfl
@[simp] theorem State.withProgram_unwrittenRead (s : State) (ops : List HostOp) : (s.withProgram ops).unwrittenRead = s.unwrittenRead := rfl

/-! ## A CTRL write -/

@[simp] theorem writeCtrl_build (v : Word) (s : State) : (writeCtrl v s).build = s.build := rfl
@[simp] theorem writeCtrl_planes (v : Word) (s : State) : (writeCtrl v s).planes = s.planes := rfl
@[simp] theorem writeCtrl_a (v : Word) (s : State) : (writeCtrl v s).a = s.a := rfl
@[simp] theorem writeCtrl_b (v : Word) (s : State) : (writeCtrl v s).b = s.b := rfl
@[simp] theorem writeCtrl_r (v : Word) (s : State) : (writeCtrl v s).r = s.r := rfl
@[simp] theorem writeCtrl_nr (v : Word) (s : State) : (writeCtrl v s).nr = v.setWidth 8 := rfl
@[simp] theorem writeCtrl_err (v : Word) (s : State) : (writeCtrl v s).err = if v.getLsbD 31 then .none else s.err := rfl
@[simp] theorem writeCtrl_cst (v : Word) (s : State) : (writeCtrl v s).cst = s.cst := rfl
@[simp] theorem writeCtrl_tab (v : Word) (s : State) : (writeCtrl v s).tab = s.tab := rfl
@[simp] theorem writeCtrl_tnr (v : Word) (s : State) : (writeCtrl v s).tnr = s.tnr := rfl
@[simp] theorem writeCtrl_tbl (v : Word) (s : State) : (writeCtrl v s).tbl = s.tbl := rfl
@[simp] theorem writeCtrl_pend (v : Word) (s : State) : (writeCtrl v s).pend = s.pend := rfl
@[simp] theorem writeCtrl_store (v : Word) (s : State) : (writeCtrl v s).store = s.store := rfl
@[simp] theorem writeCtrl_retrieveDraws (v : Word) (s : State) : (writeCtrl v s).retrieveDraws = s.retrieveDraws := rfl
@[simp] theorem writeCtrl_saveDraws (v : Word) (s : State) : (writeCtrl v s).saveDraws = s.saveDraws := rfl
@[simp] theorem writeCtrl_asked (v : Word) (s : State) : (writeCtrl v s).asked = s.asked := rfl
@[simp] theorem writeCtrl_program (v : Word) (s : State) : (writeCtrl v s).program = s.program := rfl
@[simp] theorem writeCtrl_hostPos (v : Word) (s : State) : (writeCtrl v s).hostPos = s.hostPos := rfl
@[simp] theorem writeCtrl_results (v : Word) (s : State) : (writeCtrl v s).results = s.results := rfl
@[simp] theorem writeCtrl_schedule (v : Word) (s : State) : (writeCtrl v s).schedule = s.schedule := rfl
@[simp] theorem writeCtrl_busyHazardSeen (v : Word) (s : State) : (writeCtrl v s).busyHazardSeen = s.busyHazardSeen := rfl
@[simp] theorem writeCtrl_busyWindow (v : Word) (s : State) : (writeCtrl v s).busyWindow = s.busyWindow := rfl
@[simp] theorem writeCtrl_unwrittenRead (v : Word) (s : State) : (writeCtrl v s).unwrittenRead = s.unwrittenRead := rfl

/-! ## A CMD write -/

@[simp] theorem issue_build (v : Word) (s : State) : (issue v s).build = s.build := rfl
@[simp] theorem issue_planes (v : Word) (s : State) : (issue v s).planes = s.planes := rfl
@[simp] theorem issue_a (v : Word) (s : State) : (issue v s).a = s.a := rfl
@[simp] theorem issue_b (v : Word) (s : State) : (issue v s).b = s.b := rfl
@[simp] theorem issue_r (v : Word) (s : State) : (issue v s).r = s.r := rfl
@[simp] theorem issue_nr (v : Word) (s : State) : (issue v s).nr = s.nr := rfl
@[simp] theorem issue_err (v : Word) (s : State) : (issue v s).err = s.err := rfl
@[simp] theorem issue_cst (v : Word) (s : State) : (issue v s).cst = s.cst := rfl
@[simp] theorem issue_tab (v : Word) (s : State) : (issue v s).tab = s.tab := rfl
@[simp] theorem issue_tnr (v : Word) (s : State) : (issue v s).tnr = s.tnr := rfl
@[simp] theorem issue_tbl (v : Word) (s : State) : (issue v s).tbl = s.tbl := rfl
@[simp] theorem issue_pend (v : Word) (s : State) : (issue v s).pend = some v := rfl
@[simp] theorem issue_store (v : Word) (s : State) : (issue v s).store = s.store := rfl
@[simp] theorem issue_retrieveDraws (v : Word) (s : State) : (issue v s).retrieveDraws = s.retrieveDraws := rfl
@[simp] theorem issue_saveDraws (v : Word) (s : State) : (issue v s).saveDraws = s.saveDraws := rfl
@[simp] theorem issue_asked (v : Word) (s : State) : (issue v s).asked = s.asked := rfl
@[simp] theorem issue_program (v : Word) (s : State) : (issue v s).program = s.program := rfl
@[simp] theorem issue_hostPos (v : Word) (s : State) : (issue v s).hostPos = s.hostPos := rfl
@[simp] theorem issue_results (v : Word) (s : State) : (issue v s).results = s.results := rfl
@[simp] theorem issue_schedule (v : Word) (s : State) : (issue v s).schedule = s.schedule := rfl
@[simp] theorem issue_busyHazardSeen (v : Word) (s : State) : (issue v s).busyHazardSeen = s.busyHazardSeen := rfl
@[simp] theorem issue_busyWindow (v : Word) (s : State) : (issue v s).busyWindow = true := rfl
@[simp] theorem issue_unwrittenRead (v : Word) (s : State) : (issue v s).unwrittenRead = s.unwrittenRead := rfl

/-! ## An error -/

@[simp] theorem raiseError_build (code : ErrCode) (s : State) : (raiseError code s).build = s.build := by unfold raiseError; split <;> rfl
@[simp] theorem raiseError_planes (code : ErrCode) (s : State) : (raiseError code s).planes = s.planes := by unfold raiseError; split <;> rfl
@[simp] theorem raiseError_a (code : ErrCode) (s : State) : (raiseError code s).a = s.a := by unfold raiseError; split <;> rfl
@[simp] theorem raiseError_b (code : ErrCode) (s : State) : (raiseError code s).b = s.b := by unfold raiseError; split <;> rfl
@[simp] theorem raiseError_r (code : ErrCode) (s : State) : (raiseError code s).r = s.r := by unfold raiseError; split <;> rfl
@[simp] theorem raiseError_nr (code : ErrCode) (s : State) : (raiseError code s).nr = s.nr := by unfold raiseError; split <;> rfl
@[simp] theorem raiseError_err (code : ErrCode) (s : State) :
    (raiseError code s).err = if s.err = .none then code else s.err := by unfold raiseError; split <;> simp_all
@[simp] theorem raiseError_cst (code : ErrCode) (s : State) : (raiseError code s).cst = s.cst := by unfold raiseError; split <;> rfl
@[simp] theorem raiseError_tab (code : ErrCode) (s : State) : (raiseError code s).tab = s.tab := by unfold raiseError; split <;> rfl
@[simp] theorem raiseError_tnr (code : ErrCode) (s : State) : (raiseError code s).tnr = s.tnr := by unfold raiseError; split <;> rfl
@[simp] theorem raiseError_tbl (code : ErrCode) (s : State) : (raiseError code s).tbl = s.tbl := by unfold raiseError; split <;> rfl
@[simp] theorem raiseError_pend (code : ErrCode) (s : State) : (raiseError code s).pend = s.pend := by unfold raiseError; split <;> rfl
@[simp] theorem raiseError_store (code : ErrCode) (s : State) : (raiseError code s).store = s.store := by unfold raiseError; split <;> rfl
@[simp] theorem raiseError_retrieveDraws (code : ErrCode) (s : State) : (raiseError code s).retrieveDraws = s.retrieveDraws := by unfold raiseError; split <;> rfl
@[simp] theorem raiseError_saveDraws (code : ErrCode) (s : State) : (raiseError code s).saveDraws = s.saveDraws := by unfold raiseError; split <;> rfl
@[simp] theorem raiseError_asked (code : ErrCode) (s : State) : (raiseError code s).asked = s.asked := by unfold raiseError; split <;> rfl
@[simp] theorem raiseError_program (code : ErrCode) (s : State) : (raiseError code s).program = s.program := by unfold raiseError; split <;> rfl
@[simp] theorem raiseError_hostPos (code : ErrCode) (s : State) : (raiseError code s).hostPos = s.hostPos := by unfold raiseError; split <;> rfl
@[simp] theorem raiseError_results (code : ErrCode) (s : State) : (raiseError code s).results = s.results := by unfold raiseError; split <;> rfl
@[simp] theorem raiseError_schedule (code : ErrCode) (s : State) : (raiseError code s).schedule = s.schedule := by unfold raiseError; split <;> rfl
@[simp] theorem raiseError_busyHazardSeen (code : ErrCode) (s : State) : (raiseError code s).busyHazardSeen = s.busyHazardSeen := by unfold raiseError; split <;> rfl
@[simp] theorem raiseError_busyWindow (code : ErrCode) (s : State) : (raiseError code s).busyWindow = s.busyWindow := by unfold raiseError; split <;> rfl
@[simp] theorem raiseError_unwrittenRead (code : ErrCode) (s : State) : (raiseError code s).unwrittenRead = s.unwrittenRead := by unfold raiseError; split <;> rfl

/-! ## What a failed save leaves -/

@[simp] theorem State.storeLeftover_build (s : State) (nr : BitVec 8) (l : Leftover) : (s.storeLeftover nr l).build = s.build := by cases l <;> rfl
@[simp] theorem State.storeLeftover_planes (s : State) (nr : BitVec 8) (l : Leftover) : (s.storeLeftover nr l).planes = s.planes := by cases l <;> rfl
@[simp] theorem State.storeLeftover_a (s : State) (nr : BitVec 8) (l : Leftover) : (s.storeLeftover nr l).a = s.a := by cases l <;> rfl
@[simp] theorem State.storeLeftover_b (s : State) (nr : BitVec 8) (l : Leftover) : (s.storeLeftover nr l).b = s.b := by cases l <;> rfl
@[simp] theorem State.storeLeftover_r (s : State) (nr : BitVec 8) (l : Leftover) : (s.storeLeftover nr l).r = s.r := by cases l <;> rfl
@[simp] theorem State.storeLeftover_nr (s : State) (nr : BitVec 8) (l : Leftover) : (s.storeLeftover nr l).nr = s.nr := by cases l <;> rfl
@[simp] theorem State.storeLeftover_err (s : State) (nr : BitVec 8) (l : Leftover) : (s.storeLeftover nr l).err = s.err := by cases l <;> rfl
@[simp] theorem State.storeLeftover_cst (s : State) (nr : BitVec 8) (l : Leftover) : (s.storeLeftover nr l).cst = s.cst := by cases l <;> rfl
@[simp] theorem State.storeLeftover_tab (s : State) (nr : BitVec 8) (l : Leftover) : (s.storeLeftover nr l).tab = s.tab := by cases l <;> rfl
@[simp] theorem State.storeLeftover_tnr (s : State) (nr : BitVec 8) (l : Leftover) : (s.storeLeftover nr l).tnr = s.tnr := by cases l <;> rfl
@[simp] theorem State.storeLeftover_tbl (s : State) (nr : BitVec 8) (l : Leftover) : (s.storeLeftover nr l).tbl = s.tbl := by cases l <;> rfl
@[simp] theorem State.storeLeftover_pend (s : State) (nr : BitVec 8) (l : Leftover) : (s.storeLeftover nr l).pend = s.pend := by cases l <;> rfl
@[simp] theorem State.storeLeftover_retrieveDraws (s : State) (nr : BitVec 8) (l : Leftover) : (s.storeLeftover nr l).retrieveDraws = s.retrieveDraws := by cases l <;> rfl
@[simp] theorem State.storeLeftover_saveDraws (s : State) (nr : BitVec 8) (l : Leftover) : (s.storeLeftover nr l).saveDraws = s.saveDraws := by cases l <;> rfl
@[simp] theorem State.storeLeftover_asked (s : State) (nr : BitVec 8) (l : Leftover) : (s.storeLeftover nr l).asked = s.asked := by cases l <;> rfl
@[simp] theorem State.storeLeftover_program (s : State) (nr : BitVec 8) (l : Leftover) : (s.storeLeftover nr l).program = s.program := by cases l <;> rfl
@[simp] theorem State.storeLeftover_hostPos (s : State) (nr : BitVec 8) (l : Leftover) : (s.storeLeftover nr l).hostPos = s.hostPos := by cases l <;> rfl
@[simp] theorem State.storeLeftover_results (s : State) (nr : BitVec 8) (l : Leftover) : (s.storeLeftover nr l).results = s.results := by cases l <;> rfl
@[simp] theorem State.storeLeftover_schedule (s : State) (nr : BitVec 8) (l : Leftover) : (s.storeLeftover nr l).schedule = s.schedule := by cases l <;> rfl
@[simp] theorem State.storeLeftover_busyHazardSeen (s : State) (nr : BitVec 8) (l : Leftover) : (s.storeLeftover nr l).busyHazardSeen = s.busyHazardSeen := by cases l <;> rfl
@[simp] theorem State.storeLeftover_busyWindow (s : State) (nr : BitVec 8) (l : Leftover) : (s.storeLeftover nr l).busyWindow = s.busyWindow := by cases l <;> rfl
@[simp] theorem State.storeLeftover_unwrittenRead (s : State) (nr : BitVec 8) (l : Leftover) : (s.storeLeftover nr l).unwrittenRead = s.unwrittenRead := by cases l <;> rfl

/-! ## A retrieve -/

@[simp] theorem State.afterRetrieve_build (s : State) (nr : BitVec 8) : (s.afterRetrieve nr).build = s.build := by unfold State.afterRetrieve; split <;> rfl
@[simp] theorem State.afterRetrieve_planes (s : State) (nr : BitVec 8) : (s.afterRetrieve nr).planes = s.planes := by unfold State.afterRetrieve; split <;> rfl
@[simp] theorem State.afterRetrieve_a (s : State) (nr : BitVec 8) : (s.afterRetrieve nr).a = s.a := by unfold State.afterRetrieve; split <;> rfl
@[simp] theorem State.afterRetrieve_b (s : State) (nr : BitVec 8) : (s.afterRetrieve nr).b = s.b := by unfold State.afterRetrieve; split <;> rfl
@[simp] theorem State.afterRetrieve_r (s : State) (nr : BitVec 8) : (s.afterRetrieve nr).r = s.r := by unfold State.afterRetrieve; split <;> rfl
@[simp] theorem State.afterRetrieve_nr (s : State) (nr : BitVec 8) : (s.afterRetrieve nr).nr = s.nr := by unfold State.afterRetrieve; split <;> rfl
@[simp] theorem State.afterRetrieve_err (s : State) (nr : BitVec 8) : (s.afterRetrieve nr).err = s.err := by unfold State.afterRetrieve; split <;> rfl
@[simp] theorem State.afterRetrieve_cst (s : State) (nr : BitVec 8) : (s.afterRetrieve nr).cst = s.cst := by unfold State.afterRetrieve; split <;> rfl
@[simp] theorem State.afterRetrieve_tab (s : State) (nr : BitVec 8) : (s.afterRetrieve nr).tab = s.tab := by unfold State.afterRetrieve; split <;> rfl
@[simp] theorem State.afterRetrieve_tnr (s : State) (nr : BitVec 8) : (s.afterRetrieve nr).tnr = s.tnr := by unfold State.afterRetrieve; split <;> rfl
@[simp] theorem State.afterRetrieve_tbl (s : State) (nr : BitVec 8) : (s.afterRetrieve nr).tbl = s.tbl := by unfold State.afterRetrieve; split <;> rfl
@[simp] theorem State.afterRetrieve_pend (s : State) (nr : BitVec 8) : (s.afterRetrieve nr).pend = s.pend := by unfold State.afterRetrieve; split <;> rfl
@[simp] theorem State.afterRetrieve_store (s : State) (nr : BitVec 8) : (s.afterRetrieve nr).store = s.store := by unfold State.afterRetrieve; split <;> rfl
@[simp] theorem State.afterRetrieve_saveDraws (s : State) (nr : BitVec 8) : (s.afterRetrieve nr).saveDraws = s.saveDraws := by unfold State.afterRetrieve; split <;> rfl
@[simp] theorem State.afterRetrieve_program (s : State) (nr : BitVec 8) : (s.afterRetrieve nr).program = s.program := by unfold State.afterRetrieve; split <;> rfl
@[simp] theorem State.afterRetrieve_hostPos (s : State) (nr : BitVec 8) : (s.afterRetrieve nr).hostPos = s.hostPos := by unfold State.afterRetrieve; split <;> rfl
@[simp] theorem State.afterRetrieve_results (s : State) (nr : BitVec 8) : (s.afterRetrieve nr).results = s.results := by unfold State.afterRetrieve; split <;> rfl
@[simp] theorem State.afterRetrieve_schedule (s : State) (nr : BitVec 8) : (s.afterRetrieve nr).schedule = s.schedule := by unfold State.afterRetrieve; split <;> rfl
@[simp] theorem State.afterRetrieve_busyHazardSeen (s : State) (nr : BitVec 8) : (s.afterRetrieve nr).busyHazardSeen = s.busyHazardSeen := by unfold State.afterRetrieve; split <;> rfl
@[simp] theorem State.afterRetrieve_busyWindow (s : State) (nr : BitVec 8) : (s.afterRetrieve nr).busyWindow = s.busyWindow := by unfold State.afterRetrieve; split <;> rfl
@[simp] theorem State.afterRetrieve_unwrittenRead (s : State) (nr : BitVec 8) : (s.afterRetrieve nr).unwrittenRead = s.unwrittenRead := by unfold State.afterRetrieve; split <;> rfl

/-! ## A save -/

@[simp] theorem State.afterSave_build (s : State) (nr : BitVec 8) (img : Image) : (s.afterSave nr img).build = s.build := by unfold State.afterSave; split <;> simp
@[simp] theorem State.afterSave_planes (s : State) (nr : BitVec 8) (img : Image) : (s.afterSave nr img).planes = s.planes := by unfold State.afterSave; split <;> simp
@[simp] theorem State.afterSave_a (s : State) (nr : BitVec 8) (img : Image) : (s.afterSave nr img).a = s.a := by unfold State.afterSave; split <;> simp
@[simp] theorem State.afterSave_b (s : State) (nr : BitVec 8) (img : Image) : (s.afterSave nr img).b = s.b := by unfold State.afterSave; split <;> simp
@[simp] theorem State.afterSave_r (s : State) (nr : BitVec 8) (img : Image) : (s.afterSave nr img).r = s.r := by unfold State.afterSave; split <;> simp
@[simp] theorem State.afterSave_nr (s : State) (nr : BitVec 8) (img : Image) : (s.afterSave nr img).nr = s.nr := by unfold State.afterSave; split <;> simp
@[simp] theorem State.afterSave_err (s : State) (nr : BitVec 8) (img : Image) : (s.afterSave nr img).err = s.err := by unfold State.afterSave; split <;> simp
@[simp] theorem State.afterSave_cst (s : State) (nr : BitVec 8) (img : Image) : (s.afterSave nr img).cst = s.cst := by unfold State.afterSave; split <;> simp
@[simp] theorem State.afterSave_tab (s : State) (nr : BitVec 8) (img : Image) : (s.afterSave nr img).tab = s.tab := by unfold State.afterSave; split <;> simp
@[simp] theorem State.afterSave_tnr (s : State) (nr : BitVec 8) (img : Image) : (s.afterSave nr img).tnr = s.tnr := by unfold State.afterSave; split <;> simp
@[simp] theorem State.afterSave_tbl (s : State) (nr : BitVec 8) (img : Image) : (s.afterSave nr img).tbl = s.tbl := by unfold State.afterSave; split <;> simp
@[simp] theorem State.afterSave_pend (s : State) (nr : BitVec 8) (img : Image) : (s.afterSave nr img).pend = s.pend := by unfold State.afterSave; split <;> simp
@[simp] theorem State.afterSave_retrieveDraws (s : State) (nr : BitVec 8) (img : Image) : (s.afterSave nr img).retrieveDraws = s.retrieveDraws := by unfold State.afterSave; split <;> simp
@[simp] theorem State.afterSave_program (s : State) (nr : BitVec 8) (img : Image) : (s.afterSave nr img).program = s.program := by unfold State.afterSave; split <;> simp
@[simp] theorem State.afterSave_hostPos (s : State) (nr : BitVec 8) (img : Image) : (s.afterSave nr img).hostPos = s.hostPos := by unfold State.afterSave; split <;> simp
@[simp] theorem State.afterSave_results (s : State) (nr : BitVec 8) (img : Image) : (s.afterSave nr img).results = s.results := by unfold State.afterSave; split <;> simp
@[simp] theorem State.afterSave_schedule (s : State) (nr : BitVec 8) (img : Image) : (s.afterSave nr img).schedule = s.schedule := by unfold State.afterSave; split <;> simp
@[simp] theorem State.afterSave_busyHazardSeen (s : State) (nr : BitVec 8) (img : Image) : (s.afterSave nr img).busyHazardSeen = s.busyHazardSeen := by unfold State.afterSave; split <;> simp
@[simp] theorem State.afterSave_busyWindow (s : State) (nr : BitVec 8) (img : Image) : (s.afterSave nr img).busyWindow = s.busyWindow := by unfold State.afterSave; split <;> simp
@[simp] theorem State.afterSave_unwrittenRead (s : State) (nr : BitVec 8) (img : Image) : (s.afterSave nr img).unwrittenRead = s.unwrittenRead := by unfold State.afterSave; split <;> simp

/-! ## An abandoned command -/

@[simp] theorem State.abandon_build (s : State) : (s.abandon).build = s.build := by unfold State.abandon; split <;> simp
@[simp] theorem State.abandon_planes (s : State) : (s.abandon).planes = s.planes := by unfold State.abandon; split <;> simp
@[simp] theorem State.abandon_a (s : State) : (s.abandon).a = s.a := by unfold State.abandon; split <;> simp
@[simp] theorem State.abandon_b (s : State) : (s.abandon).b = s.b := by unfold State.abandon; split <;> simp
@[simp] theorem State.abandon_r (s : State) : (s.abandon).r = s.r := by unfold State.abandon; split <;> simp
@[simp] theorem State.abandon_nr (s : State) : (s.abandon).nr = s.nr := by unfold State.abandon; split <;> simp
@[simp] theorem State.abandon_err (s : State) : (s.abandon).err = s.err := by unfold State.abandon; split <;> simp
@[simp] theorem State.abandon_cst (s : State) : (s.abandon).cst = s.cst := by unfold State.abandon; split <;> simp
@[simp] theorem State.abandon_tab (s : State) : (s.abandon).tab = s.tab := by unfold State.abandon; split <;> simp
@[simp] theorem State.abandon_tnr (s : State) : (s.abandon).tnr = s.tnr := by unfold State.abandon; split <;> simp
@[simp] theorem State.abandon_tbl (s : State) : (s.abandon).tbl = s.tbl := by unfold State.abandon; split <;> simp
@[simp] theorem State.abandon_pend (s : State) : (s.abandon).pend = s.pend := by unfold State.abandon; split <;> simp
@[simp] theorem State.abandon_retrieveDraws (s : State) : (s.abandon).retrieveDraws = s.retrieveDraws := by unfold State.abandon; split <;> simp
@[simp] theorem State.abandon_program (s : State) : (s.abandon).program = s.program := by unfold State.abandon; split <;> simp
@[simp] theorem State.abandon_hostPos (s : State) : (s.abandon).hostPos = s.hostPos := by unfold State.abandon; split <;> simp
@[simp] theorem State.abandon_results (s : State) : (s.abandon).results = s.results := by unfold State.abandon; split <;> simp
@[simp] theorem State.abandon_schedule (s : State) : (s.abandon).schedule = s.schedule := by unfold State.abandon; split <;> simp
@[simp] theorem State.abandon_busyHazardSeen (s : State) : (s.abandon).busyHazardSeen = s.busyHazardSeen := by unfold State.abandon; split <;> simp
@[simp] theorem State.abandon_busyWindow (s : State) : (s.abandon).busyWindow = s.busyWindow := by unfold State.abandon; split <;> simp
@[simp] theorem State.abandon_unwrittenRead (s : State) : (s.abandon).unwrittenRead = s.unwrittenRead := by unfold State.abandon; split <;> simp

/-! ## The platform's changes of the store -/

theorem State.editStore_cons (s : State) (e : StoreEdit) (edits : List StoreEdit) :
    s.editStore (e :: edits) = (s.storeLeftover e.key e.content).editStore edits := rfl

@[simp] theorem State.editStore_build (s : State) (edits : List StoreEdit) : (s.editStore edits).build = s.build := by
  induction edits generalizing s with
  | nil => rfl
  | cons e es ih => simp [State.editStore_cons, ih]
@[simp] theorem State.editStore_planes (s : State) (edits : List StoreEdit) : (s.editStore edits).planes = s.planes := by
  induction edits generalizing s with
  | nil => rfl
  | cons e es ih => simp [State.editStore_cons, ih]
@[simp] theorem State.editStore_a (s : State) (edits : List StoreEdit) : (s.editStore edits).a = s.a := by
  induction edits generalizing s with
  | nil => rfl
  | cons e es ih => simp [State.editStore_cons, ih]
@[simp] theorem State.editStore_b (s : State) (edits : List StoreEdit) : (s.editStore edits).b = s.b := by
  induction edits generalizing s with
  | nil => rfl
  | cons e es ih => simp [State.editStore_cons, ih]
@[simp] theorem State.editStore_r (s : State) (edits : List StoreEdit) : (s.editStore edits).r = s.r := by
  induction edits generalizing s with
  | nil => rfl
  | cons e es ih => simp [State.editStore_cons, ih]
@[simp] theorem State.editStore_nr (s : State) (edits : List StoreEdit) : (s.editStore edits).nr = s.nr := by
  induction edits generalizing s with
  | nil => rfl
  | cons e es ih => simp [State.editStore_cons, ih]
@[simp] theorem State.editStore_err (s : State) (edits : List StoreEdit) : (s.editStore edits).err = s.err := by
  induction edits generalizing s with
  | nil => rfl
  | cons e es ih => simp [State.editStore_cons, ih]
@[simp] theorem State.editStore_cst (s : State) (edits : List StoreEdit) : (s.editStore edits).cst = s.cst := by
  induction edits generalizing s with
  | nil => rfl
  | cons e es ih => simp [State.editStore_cons, ih]
@[simp] theorem State.editStore_tab (s : State) (edits : List StoreEdit) : (s.editStore edits).tab = s.tab := by
  induction edits generalizing s with
  | nil => rfl
  | cons e es ih => simp [State.editStore_cons, ih]
@[simp] theorem State.editStore_tnr (s : State) (edits : List StoreEdit) : (s.editStore edits).tnr = s.tnr := by
  induction edits generalizing s with
  | nil => rfl
  | cons e es ih => simp [State.editStore_cons, ih]
@[simp] theorem State.editStore_tbl (s : State) (edits : List StoreEdit) : (s.editStore edits).tbl = s.tbl := by
  induction edits generalizing s with
  | nil => rfl
  | cons e es ih => simp [State.editStore_cons, ih]
@[simp] theorem State.editStore_pend (s : State) (edits : List StoreEdit) : (s.editStore edits).pend = s.pend := by
  induction edits generalizing s with
  | nil => rfl
  | cons e es ih => simp [State.editStore_cons, ih]
@[simp] theorem State.editStore_retrieveDraws (s : State) (edits : List StoreEdit) : (s.editStore edits).retrieveDraws = s.retrieveDraws := by
  induction edits generalizing s with
  | nil => rfl
  | cons e es ih => simp [State.editStore_cons, ih]
@[simp] theorem State.editStore_saveDraws (s : State) (edits : List StoreEdit) : (s.editStore edits).saveDraws = s.saveDraws := by
  induction edits generalizing s with
  | nil => rfl
  | cons e es ih => simp [State.editStore_cons, ih]
@[simp] theorem State.editStore_asked (s : State) (edits : List StoreEdit) : (s.editStore edits).asked = s.asked := by
  induction edits generalizing s with
  | nil => rfl
  | cons e es ih => simp [State.editStore_cons, ih]
@[simp] theorem State.editStore_program (s : State) (edits : List StoreEdit) : (s.editStore edits).program = s.program := by
  induction edits generalizing s with
  | nil => rfl
  | cons e es ih => simp [State.editStore_cons, ih]
@[simp] theorem State.editStore_hostPos (s : State) (edits : List StoreEdit) : (s.editStore edits).hostPos = s.hostPos := by
  induction edits generalizing s with
  | nil => rfl
  | cons e es ih => simp [State.editStore_cons, ih]
@[simp] theorem State.editStore_results (s : State) (edits : List StoreEdit) : (s.editStore edits).results = s.results := by
  induction edits generalizing s with
  | nil => rfl
  | cons e es ih => simp [State.editStore_cons, ih]
@[simp] theorem State.editStore_schedule (s : State) (edits : List StoreEdit) : (s.editStore edits).schedule = s.schedule := by
  induction edits generalizing s with
  | nil => rfl
  | cons e es ih => simp [State.editStore_cons, ih]
@[simp] theorem State.editStore_busyHazardSeen (s : State) (edits : List StoreEdit) : (s.editStore edits).busyHazardSeen = s.busyHazardSeen := by
  induction edits generalizing s with
  | nil => rfl
  | cons e es ih => simp [State.editStore_cons, ih]
@[simp] theorem State.editStore_busyWindow (s : State) (edits : List StoreEdit) : (s.editStore edits).busyWindow = s.busyWindow := by
  induction edits generalizing s with
  | nil => rfl
  | cons e es ih => simp [State.editStore_cons, ih]
@[simp] theorem State.editStore_unwrittenRead (s : State) (edits : List StoreEdit) : (s.editStore edits).unwrittenRead = s.unwrittenRead := by
  induction edits generalizing s with
  | nil => rfl
  | cons e es ih => simp [State.editStore_cons, ih]

/-! ## The engine's reset -/

@[simp] theorem State.resetEngine_build (s : State) : s.resetEngine.build = s.build := rfl
@[simp] theorem State.resetEngine_planes (s : State) : s.resetEngine.planes = List.replicate s.build.lanes PlaneReg.atReset := rfl
@[simp] theorem State.resetEngine_a (s : State) : s.resetEngine.a = PlaneReg.atReset := rfl
@[simp] theorem State.resetEngine_b (s : State) : s.resetEngine.b = PlaneReg.atReset := rfl
@[simp] theorem State.resetEngine_r (s : State) : s.resetEngine.r = PlaneReg.atReset := rfl
@[simp] theorem State.resetEngine_nr (s : State) : s.resetEngine.nr = s.build.nrDefault := rfl
@[simp] theorem State.resetEngine_err (s : State) : s.resetEngine.err = .none := rfl
@[simp] theorem State.resetEngine_cst (s : State) : s.resetEngine.cst = .none := rfl
@[simp] theorem State.resetEngine_tab (s : State) : s.resetEngine.tab = false := rfl
@[simp] theorem State.resetEngine_tnr (s : State) : s.resetEngine.tnr = 0 := rfl
@[simp] theorem State.resetEngine_tbl (s : State) : s.resetEngine.tbl = [] := rfl
@[simp] theorem State.resetEngine_pend (s : State) : s.resetEngine.pend = none := rfl
@[simp] theorem State.resetEngine_store (s : State) : s.resetEngine.store = s.store := rfl
@[simp] theorem State.resetEngine_retrieveDraws (s : State) : s.resetEngine.retrieveDraws = s.retrieveDraws := rfl
@[simp] theorem State.resetEngine_saveDraws (s : State) : s.resetEngine.saveDraws = s.saveDraws := rfl
@[simp] theorem State.resetEngine_asked (s : State) : s.resetEngine.asked = s.asked := rfl
@[simp] theorem State.resetEngine_program (s : State) : s.resetEngine.program = s.program := rfl
@[simp] theorem State.resetEngine_hostPos (s : State) : s.resetEngine.hostPos = s.hostPos := rfl
@[simp] theorem State.resetEngine_results (s : State) : s.resetEngine.results = s.results := rfl
@[simp] theorem State.resetEngine_schedule (s : State) : s.resetEngine.schedule = s.schedule := rfl
@[simp] theorem State.resetEngine_busyHazardSeen (s : State) : s.resetEngine.busyHazardSeen = s.busyHazardSeen := rfl
@[simp] theorem State.resetEngine_busyWindow (s : State) : s.resetEngine.busyWindow = false := rfl
@[simp] theorem State.resetEngine_unwrittenRead (s : State) : s.resetEngine.unwrittenRead = s.unwrittenRead := rfl

/-! ## Values -/

@[simp] theorem PlaneReg.filled_value (p : Plane) : (PlaneReg.filled p).value = p := rfl

@[simp] theorem PlaneReg.filled_written (p : Plane) : (PlaneReg.filled p).written = true := rfl

@[simp] theorem State.writeState_stateValue (s : State) (v : List Plane) : (s.writeState v).stateValue = v := by
  simp [State.stateValue, State.writeState, Function.comp_def]

@[simp] theorem State.noteReads_stateValue (s : State) (regs : List PlaneReg) :
    (s.noteReads regs).stateValue = s.stateValue := rfl

@[simp] theorem State.stateValue_length (s : State) : s.stateValue.length = s.planes.length := by simp [State.stateValue]

end Sys2Proof.Machine
end

