-- ==== Sys2Proof/Laws/Validate.lean ====
section
/-! SUPPORT. What `encodeImage` and `validateImage` compute from the entries a table or an image lists (20_memory.md R86,
R87; log 6). -/

namespace Sys2Proof.Machine

/-! ## Listed entries -/

theorem mem_dropRepeats {a : Nat} {l : List Nat} : a ∈ dropRepeats l ↔ a ∈ l := by
  induction l using dropRepeats.induct with
  | case1 => rfl
  | case2 b => rfl
  | case3 b t ih => simp [dropRepeats, ih]
  | case4 b c t hne ih => simp [dropRepeats, hne, ih]

theorem dropRepeats_pairwise {l : List Nat} (h : l.Pairwise (· ≤ ·)) : (dropRepeats l).Pairwise (· < ·) := by
  induction l using dropRepeats.induct with
  | case1 => simp [dropRepeats]
  | case2 b => simp [dropRepeats]
  | case3 b t ih =>
    simp only [dropRepeats, if_true]
    exact ih (List.pairwise_cons.1 h).2
  | case4 b c t hne ih =>
    simp only [dropRepeats, hne, if_false]
    obtain ⟨h1, h2⟩ := List.pairwise_cons.1 h
    refine List.pairwise_cons.2 ⟨fun a ha => ?_, ih h2⟩
    rw [mem_dropRepeats] at ha
    rcases List.mem_cons.1 ha with rfl | ha
    · exact Nat.lt_of_le_of_ne (h1 _ (by simp)) hne
    · have h3 := (List.pairwise_cons.1 h2).1 a ha
      exact Nat.lt_of_lt_of_le (Nat.lt_of_le_of_ne (h1 c (by simp)) hne) h3

/-- The keys of a rising list are strictly rising. -/
theorem Memory.rising_iff_pairwise {β : Type} {m : List (Nat × β)} :
    Memory.rising m = true ↔ (m.map Prod.fst).Pairwise (· < ·) := by
  induction m with
  | nil => simp [Memory.rising]
  | cons e m ih =>
    obtain ⟨a, v⟩ := e
    rw [Memory.rising_cons, ih, List.map_cons, List.pairwise_cons]
    constructor
    · rintro ⟨h1, h2⟩
      refine ⟨fun b hb => ?_, h2⟩
      obtain ⟨e, he, rfl⟩ := List.mem_map.1 hb
      exact h1 e he
    · rintro ⟨h1, h2⟩
      exact ⟨fun e he => h1 e.1 (List.mem_map_of_mem he), h2⟩

theorem Image.mem_listedEntries {img : Image} {i : Nat} :
    i ∈ img.listedEntries ↔ i < entryCount ∧ ∃ c ∈ img.cells, c.1 / 4 = i + 2 := by
  have hc : checkIndex = entryCount + 2 := rfl
  simp only [Image.listedEntries, List.mem_filterMap, mem_dropRepeats, List.mem_map]
  constructor
  · rintro ⟨k, ⟨c, hc1, rfl⟩, hk⟩
    split at hk
    · next h =>
      have hi : c.1 / 4 - 2 = i := by simpa using hk
      exact ⟨by omega, c, hc1, by omega⟩
    · simp at hk
  · rintro ⟨hi, c, hc1, hk⟩
    refine ⟨c.1 / 4, ⟨c, hc1, rfl⟩, ?_⟩
    rw [if_pos (by omega)]
    congr 1
    omega

theorem Image.listedEntries_pairwise {img : Image} (h : Memory.rising img.cells = true) :
    img.listedEntries.Pairwise (· < ·) := by
  rw [Memory.rising_iff_pairwise] at h
  have h1 : (img.cells.map fun c => c.1 / 4).Pairwise (· ≤ ·) := by
    have h2 := h.imp (S := fun a b => a / 4 ≤ b / 4) (by intro a b hab; omega)
    rw [List.pairwise_map] at h2 ⊢
    exact h2
  refine List.Pairwise.filterMap _ ?_ (dropRepeats_pairwise h1)
  intro a b hab i hi j hj
  split at hi
  · split at hj
    · have e1 : a - 2 = i := by simpa using hi
      have e2 : b - 2 = j := by simpa using hj
      omega
    · simp at hj
  · simp at hi

/-- A word of which the image lists no byte is that of the generated table's image. -/
theorem Image.word_of_unlisted (build : Build) (nr : BitVec 8) {img : Image} {k : Nat}
    (h : ∀ c ∈ img.cells, c.1 / 4 ≠ k) : img.word build nr k = genWord build nr k := by
  rw [← wordAt_genByte]
  refine wordAt_congr fun j hj => Memory.read_of_not_mem _ fun c hc hk => ?_
  exact h c hc (by omega)

theorem Image.entry_of_unlisted (build : Build) (nr : BitVec 8) {img : Image} {i : Nat} (hi : i < entryCount)
    (h : i ∉ img.listedEntries) : img.word build nr (i + 2) = genWord build nr (i + 2) := by
  refine Image.word_of_unlisted build nr fun c hc hk => h ?_
  exact Image.mem_listedEntries.2 ⟨hi, c, hc, hk⟩

/-- A word of which a canonical image lists a byte is not that of the generated table's image. -/
theorem Image.entry_of_listed {build : Build} {nr : BitVec 8} {img : Image} (hw : img.wf build nr = true) {i : Nat}
    (h : i ∈ img.listedEntries) : img.word build nr (i + 2) ≠ genWord build nr (i + 2) := by
  obtain ⟨-, c, hc, hk⟩ := Image.mem_listedEntries.1 h
  have hwf := (Memory.wf_iff _).1 hw
  intro heq
  have hb := wordAt_inj (f := img.byte build nr) (g := genByte build nr) (k := i + 2) (by simpa [Image.word] using heq)
    (c.1 % 4) (by omega)
  have hpos : 4 * (i + 2) + c.1 % 4 = c.1 := by omega
  rw [hpos, Image.byte, Memory.read_of_mem _ hwf.1 hc] at hb
  exact (hwf.2 c hc).2 hb

theorem genWord_entry (build : Build) (nr : BitVec 8) {i : Nat} (hi : i < entryCount) :
    genWord build nr (i + 2) = (genEntry build nr (BitVec.ofNat 25 i)).setWidth 32 := by
  have hc : checkIndex = entryCount + 2 := rfl
  simp [genWord, hi, hc]

/-! ## XOR over the listed entries -/

theorem foldl_xor_acc {α : Type} (D : α → Word) (l : List α) (a : Word) :
    l.foldl (fun acc e => acc ^^^ D e) a = a ^^^ l.foldl (fun acc e => acc ^^^ D e) 0 := by
  induction l generalizing a with
  | nil => simp
  | cons b l ih =>
    rw [List.foldl_cons, ih, List.foldl_cons, ih (0 ^^^ D b)]
    simp [BitVec.xor_assoc]

/-- The XOR of values that are 0 off a strictly rising list is the XOR over the list. -/
theorem foldl_xor_listed {D : Nat → Word} {l : List Nat} (n : Nat) (hl : l.Pairwise (· < ·)) (hn : ∀ i ∈ l, i < n)
    (h0 : ∀ i < n, i ∉ l → D i = 0) : l.foldl (fun acc i => acc ^^^ D i) 0 = xorEntries D n := by
  induction n generalizing l with
  | zero =>
    cases l with
    | nil => rfl
    | cons a l => exact absurd (hn a (by simp)) (by omega)
  | succ n ih =>
    by_cases hmem : n ∈ l
    · obtain ⟨l', rfl⟩ : ∃ l', l = l' ++ [n] := by
        obtain ⟨s, t, rfl⟩ := List.append_of_mem hmem
        cases t with
        | nil => exact ⟨s, rfl⟩
        | cons b t =>
          have h1 := (List.pairwise_append.1 hl).2.1
          have h2 := (List.pairwise_cons.1 h1).1 b (by simp)
          have h3 := hn b (by simp)
          omega
      have hp := List.pairwise_append.1 hl
      have hlt : ∀ i ∈ l', i < n := fun i hi => hp.2.2 i hi n (by simp)
      rw [List.foldl_append, ih hp.1 hlt]
      · simp [xorEntries]
      · intro i hi hni
        refine h0 i (by omega) ?_
        simp only [List.mem_append, List.mem_singleton, not_or]
        exact ⟨hni, by omega⟩
    · rw [ih hl (fun i hi => ?_) fun i hi => h0 i (by omega)]
      · simp [xorEntries, h0 n (by omega) hmem]
      · have := hn i hi
        have : i ≠ n := fun h => hmem (h ▸ hi)
        omega

/-! ## Validate -/

/-- Whether a word has an entry's shape, bits 31:25 zero. -/
theorem setWidth_of_top_zero {w : Word} (h : w.extractLsb' 25 7 = 0#7) : (w.setWidth 25).setWidth 32 = w := by
  apply BitVec.eq_of_getLsbD_eq
  intro i hi
  by_cases h25 : i < 25
  · simp [h25, hi]
  · have h2 := congrArg (fun v => v.getLsbD (i - 25)) h
    have e : 25 + (i - 25) = i := by omega
    have e2 : i - 25 < 7 := by omega
    simp only [BitVec.getLsbD_extractLsb', e, e2, decide_true, Bool.true_and, BitVec.getLsbD_zero] at h2
    simp [BitVec.getLsbD_setWidth, h2]

theorem setWidth_top_zero (p : Plane) : ((p.setWidth 32 : Word)).extractLsb' 25 7 = 0#7 := by
  apply BitVec.eq_of_getLsbD_eq
  intro i hi
  simp [BitVec.getLsbD_setWidth]

/-- Where Validate answers a table, the table is canonical and its entry `i` is `E[i][24:0]` (20_memory.md R87). -/
theorem validateImage_some {build : Build} {nr : BitVec 8} {img : Image} (hw : img.wf build nr = true)
    {tbl : List (Nat × Plane)} (h : validateImage build nr img = some tbl) :
    Memory.wf (tblFill build nr) entryCount tbl = true ∧
      ∀ i < entryCount, Memory.read (tblFill build nr) tbl i = (img.word build nr (i + 2)).setWidth 25 := by
  unfold validateImage at h
  simp only at h
  split at h
  · next hv =>
    obtain ⟨-, -, -, htop, -⟩ := hv
    rw [List.all_eq_true] at htop
    have htbl := Option.some.inj h
    have hr : Memory.rising tbl = true := by
      rw [Memory.rising_iff_pairwise, ← htbl, List.map_map]
      simpa [Function.comp_def] using Image.listedEntries_pairwise ((Memory.wf_iff _).1 hw).1
    constructor
    · rw [Memory.wf_iff]
      refine ⟨hr, fun e he => ?_⟩
      rw [← htbl] at he
      obtain ⟨i, hi, rfl⟩ := List.mem_map.1 he
      have hi2 := (Image.mem_listedEntries.1 hi).1
      refine ⟨hi2, fun hfill => Image.entry_of_listed hw hi ?_⟩
      have h25 := setWidth_of_top_zero (by simpa using htop i hi)
      simp only at hfill
      rw [genWord_entry build nr hi2, ← h25, hfill, tblFill]
    · intro i hi
      by_cases hl : i ∈ img.listedEntries
      · have hmem : (i, (img.word build nr (i + 2)).setWidth 25) ∈ tbl := by
          rw [← htbl]
          exact List.mem_map.2 ⟨i, hl, rfl⟩
        exact Memory.read_of_mem _ hr hmem
      · rw [Memory.read_of_not_mem, Image.entry_of_unlisted build nr hi hl, genWord_entry build nr hi, tblFill]
        · simp
        · intro e he hk
          rw [← htbl] at he
          obtain ⟨j, hj, rfl⟩ := List.mem_map.1 he
          exact hl (hk ▸ hj)
  · simp at h

end Sys2Proof.Machine
end

