-- ==== Sys2Proof/Laws/Ops.lean ====
section
/-! SUPPORT. One lemma for each shared operation: what it can do to the store, the table memory and the registers. -/

namespace Sys2Proof.Machine

/-! ## The store -/

theorem State.storeWf_iff {s : State} :
    s.storeWf = true ↔ Memory.wf storeFill 256 s.store = true ∧
      ∀ e ∈ s.store, ∃ img, e.2 = some img ∧ img.wf s.build (BitVec.ofNat 8 e.1) = true := by
  simp only [State.storeWf, Bool.and_eq_true, List.all_eq_true]
  refine and_congr_right fun _ => forall₂_congr fun e _ => ?_
  cases e.2 <;> simp

/-- A retrieve after a change under the same key finds the new content (20_memory.md R81, R82). -/
theorem State.storedImage_storeContent_same {s : State} (h : s.storeWf = true) (nr : BitVec 8) (c : Option Image) :
    (s.storeContent nr c).storedImage nr = c :=
  Memory.read_write_same storeFill _ ((Memory.wf_iff _).1 (State.storeWf_iff.1 h).1).1 _ _

/-- A change under one key leaves the other keys alone (20_memory.md R83). -/
theorem State.storedImage_storeContent_other (s : State) {nr key : BitVec 8} (hk : key ≠ nr) (c : Option Image) :
    (s.storeContent nr c).storedImage key = s.storedImage key :=
  Memory.read_write_other storeFill _ (fun h => hk (BitVec.eq_of_toNat_eq h)) _

theorem State.storedImage_storeLeftover_other (s : State) {nr key : BitVec 8} (hk : key ≠ nr) (l : Leftover) :
    (s.storeLeftover nr l).storedImage key = s.storedImage key := by
  cases l with
  | absent => exact s.storedImage_storeContent_other hk _
  | earlier => rfl
  | bytes len ws => exact s.storedImage_storeContent_other hk _

theorem State.storedImage_afterSave_other (s : State) {nr key : BitVec 8} (hk : key ≠ nr) (img : Image) :
    (s.afterSave nr img).storedImage key = s.storedImage key := by
  unfold State.afterSave
  split
  · exact s.takeSaveDraw.storedImage_storeContent_other hk _
  · exact s.takeSaveDraw.storedImage_storeLeftover_other hk _

/-- A kept image is canonical for its key. -/
theorem State.storedImage_wf {s : State} (h : s.storeWf = true) {nr : BitVec 8} {img : Image}
    (hi : s.storedImage nr = some img) : img.wf s.build nr = true := by
  obtain ⟨hw, hall⟩ := State.storeWf_iff.1 h
  by_cases hm : ∃ e ∈ s.store, e.1 = nr.toNat
  · obtain ⟨e, he, hk⟩ := hm
    have hr := Memory.read_of_mem storeFill ((Memory.wf_iff _).1 hw).1 he
    rw [hk] at hr
    obtain ⟨img', h1, h2⟩ := hall e he
    have : some img = some img' := by rw [← hi, ← h1, ← hr]; rfl
    rw [Option.some.inj this]
    simpa [hk] using h2
  · have : s.storedImage nr = none :=
      Memory.read_of_not_mem storeFill fun e he hk => hm ⟨e, he, hk⟩
    rw [this] at hi
    cases hi

theorem State.storeContent_wf {s : State} (h : s.storeWf = true) (nr : BitVec 8) {c : Option Image}
    (hc : ∀ img, c = some img → img.wf s.build nr = true) : (s.storeContent nr c).storeWf = true := by
  obtain ⟨hw, hall⟩ := State.storeWf_iff.1 h
  refine State.storeWf_iff.2 ⟨Memory.wf_write _ hw nr.isLt c, fun e he => ?_⟩
  rcases Memory.mem_write storeFill he with ⟨rfl, hne⟩ | he
  · cases c with
    | none => exact absurd rfl hne
    | some img => exact ⟨img, rfl, by simpa using hc img rfl⟩
  · exact hall e he

theorem State.storeLeftover_wf {s : State} (h : s.storeWf = true) (nr : BitVec 8) (l : Leftover) :
    (s.storeLeftover nr l).storeWf = true := by
  cases l with
  | absent => exact State.storeContent_wf h nr (by simp)
  | earlier => exact h
  | bytes len ws =>
    refine State.storeContent_wf h nr fun img hi => ?_
    rw [← Option.some.inj hi]
    exact Image.ofWrites_wf s.build nr len ws

theorem State.afterSave_wf {s : State} (h : s.storeWf = true) (nr : BitVec 8) {img : Image}
    (hi : img.wf s.build nr = true) : (s.afterSave nr img).storeWf = true := by
  unfold State.afterSave
  split
  · refine State.storeContent_wf (s := s.takeSaveDraw) h nr fun img' he => ?_
    rw [← Option.some.inj he]
    exact hi
  · exact State.storeLeftover_wf (s := s.takeSaveDraw) h nr _

theorem State.editStore_wf {s : State} (h : s.storeWf = true) (edits : List StoreEdit) :
    (s.editStore edits).storeWf = true := by
  induction edits generalizing s with
  | nil => exact h
  | cons e es ih => exact ih (State.storeLeftover_wf h e.key e.content)

/-- The invariant of the store looks at the build and the store only. -/
theorem State.storeWf_congr {s t : State} (hb : t.build = s.build) (hs : t.store = s.store) :
    t.storeWf = s.storeWf := by
  unfold State.storeWf
  rw [hb, hs]

/-- A retrieve is ABSENT, a good image's table, or CORRUPT (43_lut.md R204). -/
theorem State.retrieve_cases (s : State) (nr : BitVec 8) :
    (s.storedImage nr = none ∧ s.retrieve nr = .absent) ∨
      (∃ img tbl, s.storedImage nr = some img ∧ s.nextReadFailure = false ∧
        validateImage s.build nr img = some tbl ∧ s.retrieve nr = .valid tbl) ∨
      (∃ img, s.storedImage nr = some img ∧ (s.nextReadFailure = true ∨ validateImage s.build nr img = none) ∧
        s.retrieve nr = .corrupt) := by
  unfold State.retrieve
  cases hi : s.storedImage nr with
  | none => exact .inl ⟨rfl, rfl⟩
  | some img =>
    cases hf : s.nextReadFailure with
    | true => exact .inr (.inr ⟨img, rfl, .inl rfl, by simp⟩)
    | false =>
      cases hv : validateImage s.build nr img with
      | none => exact .inr (.inr ⟨img, rfl, .inr hv, by simp [hv]⟩)
      | some tbl => exact .inr (.inl ⟨img, tbl, rfl, rfl, hv, by simp [hv]⟩)

/-! ## Table memory -/

/-- A table that lists nothing is the generated table (43_lut.md R202). -/
theorem State.tblRead_of_unlisted {s : State} (h : s.tbl = []) (i : Plane) :
    s.tblRead i = genEntry s.build s.tnr i := by
  simp [State.tblRead, h, tblFill]

/-- A table read looks at the build, TNR and TBL only. -/
theorem State.tblRead_congr {s t : State} (hb : t.build = s.build) (hn : t.tnr = s.tnr) (ht : t.tbl = s.tbl)
    (i : Plane) : t.tblRead i = s.tblRead i := by
  unfold State.tblRead
  rw [hb, hn, ht]

theorem State.tblWf_congr {s t : State} (hb : t.build = s.build) (hn : t.tnr = s.tnr) (ht : t.tbl = s.tbl) :
    t.tblWf = s.tblWf := by
  unfold State.tblWf
  rw [hb, hn, ht]

/-! ## Commands -/

/-- Every command answers a next state: no command stops the machine. -/
theorem exec_next (i : Instr) (s : State) : ∃ t, exec i s = .next t := by
  cases i <;>
    simp only [exec, execNop, execPand, execPor, execPxor, execPnot, execProt, execTheta, execRho, execPi, execChi,
      execChic, execIota, execRound, execPerm, execConstruct, execEval, execSave, execTread] <;>
    (try split) <;> (try split) <;> exact ⟨_, rfl⟩

/-- What CONSTRUCT can do: one of its three paths (43_lut.md R205). -/
theorem constructTable_cases (nr : BitVec 8) (s : State) :
    (∃ tbl, s.retrieve nr = .valid tbl ∧ constructTable nr s = (s.afterRetrieve nr).tabulate nr tbl .hit) ∨
      (s.retrieve nr = .corrupt ∧ constructTable nr s = (s.afterRetrieve nr).tabulate nr [] .corrupt) ∨
      (s.retrieve nr = .absent ∧ constructTable nr s =
        ((s.afterRetrieve nr).afterSave nr (encodeImage s.build nr [])).tabulate nr []
          (if (s.afterRetrieve nr).saveSucceeds then .generated else .storageError)) := by
  unfold constructTable
  cases h : s.retrieve nr with
  | valid tbl => exact .inl ⟨tbl, rfl, rfl⟩
  | corrupt => exact .inr (.inl ⟨rfl, rfl⟩)
  | absent => exact .inr (.inr ⟨rfl, rfl⟩)

end Sys2Proof.Machine
end

