-- ==== Sys2Proof/Laws/PerInstr.lean ====
section
/-! SUPPORT. Laws stated for each command (LAWS.json). -/

namespace Sys2Proof.Laws

/-- The word of a command holds its opcode in bits 7:0 and zeros in bits 31:16 (30_encoding.md R101). -/
def EncodedFields.Statement (i : Instr) : Prop :=
  (encode i).extractLsb' 0 8 = opcode i ∧ (encode i).extractLsb' 16 16 = 0#16

theorem encodedFields_any (i : Instr) : EncodedFields.Statement i := by
  constructor <;> apply BitVec.eq_of_getLsbD_eq <;> intro k hk <;>
    simp only [encode, BitVec.getLsbD_append, BitVec.getLsbD_extractLsb']
  · have h : k < 8 := hk
    simp [h]
  · have h1 : ¬ (16 + k < 8) := by omega
    have h2 : ¬ (16 + k - 8 < 8) := by omega
    simp [h1, h2]

theorem EncodedFields.nop : EncodedFields.Statement .nop := encodedFields_any _
theorem EncodedFields.pand : EncodedFields.Statement .pand := encodedFields_any _
theorem EncodedFields.por : EncodedFields.Statement .por := encodedFields_any _
theorem EncodedFields.pxor : EncodedFields.Statement .pxor := encodedFields_any _
theorem EncodedFields.pnot : EncodedFields.Statement .pnot := encodedFields_any _
theorem EncodedFields.prot (n : Nat) : EncodedFields.Statement (.prot n) := encodedFields_any _
theorem EncodedFields.theta : EncodedFields.Statement .theta := encodedFields_any _
theorem EncodedFields.rho : EncodedFields.Statement .rho := encodedFields_any _
theorem EncodedFields.pi : EncodedFields.Statement .pi := encodedFields_any _
theorem EncodedFields.chi : EncodedFields.Statement .chi := encodedFields_any _
theorem EncodedFields.chic : EncodedFields.Statement .chic := encodedFields_any _
theorem EncodedFields.iota (i : Nat) : EncodedFields.Statement (.iota i) := encodedFields_any _
theorem EncodedFields.round (i : Nat) : EncodedFields.Statement (.round i) := encodedFields_any _
theorem EncodedFields.perm : EncodedFields.Statement .perm := encodedFields_any _
theorem EncodedFields.construct : EncodedFields.Statement .construct := encodedFields_any _
theorem EncodedFields.eval : EncodedFields.Statement .eval := encodedFields_any _
theorem EncodedFields.save : EncodedFields.Statement .save := encodedFields_any _
theorem EncodedFields.tread : EncodedFields.Statement .tread := encodedFields_any _

end Sys2Proof.Laws
end

