-- ==== Sys2Proof/Laws/Step.lean ====
section
/-! SUPPORT. What one step can do (44_system.md R241, R242): each agent's step inverted once. -/

namespace Sys2Proof.Machine

/-- A perform step: nothing pending, a command, or an illegal word (44_system.md R242). -/
theorem performStep_cases (s : State) :
    (s.pend = none ∧ performStep s = .next s) ∨
      (∃ w i, s.pend = some w ∧ decode w = .ok i ∧ performStep s = exec i { s with pend := none }) ∨
      (∃ w e, s.pend = some w ∧ decode w = .error e ∧
        performStep s = .next (raiseError .illegalCommand { s with pend := none })) := by
  unfold performStep
  cases hp : s.pend with
  | none => exact .inl ⟨rfl, rfl⟩
  | some w =>
    cases hd : decode w with
    | ok i => exact .inr (.inl ⟨w, i, rfl, hd, by simp [hd]⟩)
    | error e => exact .inr (.inr ⟨w, e, rfl, hd, by simp [hd]⟩)

/-- A host step that answers a next state: the program is over, a read, a write, or a turn of WAIT (44_system.md R241). -/
theorem hostStep_next {s t : State} (h : hostStep s = .next t) :
    (s.program[s.hostPos]? = none ∧ t = s) ∨
      (∃ off width reg, s.program[s.hostPos]? = some (.read off width) ∧
        accessReg s off width (off == regOffset .status) = .ok reg ∧
        t = ({ ((s.noteReads (readPlanes s reg)).noteHazard (reg == .status)).observe reg with
          results := regValue s reg :: s.results } : State).advanceHost) ∨
      (∃ off width v reg, s.program[s.hostPos]? = some (.write off width v) ∧ accessReg s off width false = .ok reg ∧
        t = (writeReg v (s.noteHazard false) reg).advanceHost) ∨
      (s.program[s.hostPos]? = some .wait ∧ t = if (statusWord s).getLsbD 0 then s else (s.observe .status).advanceHost) := by
  unfold hostStep at h
  split at h
  · next hp => exact .inl ⟨hp, by cases h; rfl⟩
  · next off width hp =>
    unfold hostRead at h
    split at h
    · cases h
    · next reg hr => exact .inr (.inl ⟨off, width, reg, hp, hr, by cases h; rfl⟩)
  · next off width v hp =>
    unfold hostWrite at h
    split at h
    · cases h
    · next reg hr => exact .inr (.inr (.inl ⟨off, width, v, reg, hp, hr, by cases h; rfl⟩))
  · next hp =>
    unfold hostWait at h
    exact .inr (.inr (.inr ⟨hp, by cases h; rfl⟩))

/-- Whose step a step is: the engine's, the host's, or a reset, after the turn is used up (log 1). -/
theorem step_cases (s : State) :
    ∃ rest, (rest = s.schedule.tail) ∧
      (step s = performStep { s with schedule := rest } ∨ step s = hostStep { s with schedule := rest } ∨
        ∃ edits, s.schedule = .reset edits :: rest ∧ step s = .next (resetStep edits { s with schedule := rest })) := by
  unfold step
  cases hs : s.schedule with
  | nil =>
    refine ⟨[], rfl, ?_⟩
    have e : ({ s with schedule := [] } : State) = s := by rw [← hs]
    rw [e]
    cases s.pend.isSome
    · exact .inr (.inl rfl)
    · exact .inl rfl
  | cons turn rest =>
    refine ⟨rest, rfl, ?_⟩
    cases turn with
    | engine => exact .inl rfl
    | host => exact .inr (.inl rfl)
    | reset edits => exact .inr (.inr ⟨edits, rfl, rfl⟩)

/-- BUSY is bit 0 of STATUS (10_state.md R38). -/
theorem statusWord_busy (s : State) : (statusWord s).getLsbD 0 = s.pend.isSome := by
  simp only [statusWord, BitVec.getLsbD_append]
  cases s.pend.isSome <;> simp

/-- An admitted access reaches a register: the access is 32 bits wide and aligned, and while BUSY = 1 it is a
read of STATUS (20_memory.md R63; 70_reset_and_hazards.md R300). -/
theorem accessReg_ok {s : State} {off : Nat} {width : Width} {quiet : Bool} {reg : WindowReg}
    (h : accessReg s off width quiet = .ok reg) :
    admitted off width = true ∧ (s.pend.isSome = true → quiet = true) ∧ regAt s.build off = some reg := by
  unfold accessReg at h
  split at h
  · cases h
  · next ha =>
    split at h
    · cases h
    · next hb =>
      split at h
      · next hr =>
        cases h
        refine ⟨by simpa using ha, fun hp => ?_, hr⟩
        simpa [hp] using hb
      · cases h

/-- An aligned access that BUSY = 1 does not shut out reaches the register at its offset (20_memory.md R61, R63). -/
theorem accessReg_of_regAt {s : State} {off : Nat} {reg : WindowReg} {quiet : Bool} (h4 : off % 4 = 0)
    (hw : off < 0x200) (hq : s.pend.isSome = true → quiet = true) (hr : regAt s.build off = some reg) :
    accessReg s off .w32 quiet = .ok reg := by
  have ha : admitted off .w32 = true := by simp [admitted, h4, hw]
  cases hb : s.pend.isSome
  · simp [accessReg, ha, hb, hr]
  · simp [accessReg, ha, hb, hr, hq hb]

end Sys2Proof.Machine
end

