-- ==== Sys2Proof/Tests/Slice0.lean ====
section
/-! SUPPORT. Tests. Every expected value is the spec's own: a vector V-* of 95_test_vectors.md or a word written out from
30_encoding.md R101 to R104. The theorems named witness_* show, for each statement with hypotheses, a state and operands that
meet them all. -/

namespace Sys2Proof.Tests

open Sys2Proof Sys2Proof.Machine

-- One theorem after the other: elaborated at once, the tests start more threads than the sandbox allows.
set_option Elab.async false

/-! ## Helpers -/

/-- A build with the default mode and base. -/
def build (l : Fin 7) : Build := { logw := l, mode := .roundNoIota, roundIndexBase := 0 }

/-- The `LOGW = 0` build with `TABLE_MODE = FullPermutation`. -/
def fullBuild : Build := { logw := 0, mode := .fullPermutation, roundIndexBase := 0 }

/-- Just after reset with the state planes written. -/
def withPlanes (l : Fin 7) (v : List Plane) : State := (State.resetOf (build l)).writeState v

/-- Just after reset with A and B written. -/
def withAB (p q : Plane) : State := { State.reset with a := PlaneReg.filled p, b := PlaneReg.filled q }

/-- The state after a command; the state itself where the command stops. -/
def after (i : Instr) (s : State) : State :=
  match exec i s with
  | .next t => t
  | .fault _ => s
  | .refused _ => s

/-- The state planes after a command. -/
def planesAfter (i : Instr) (l : Fin 7) (v : List Plane) : List Plane := (after i (withPlanes l v)).stateValue

/-- Just after reset with the store's answers listed. -/
def answering (b : Build) (reads : List Bool) (saves : List SaveAnswer) : State :=
  { State.resetOf b with retrieveDraws := reads, saveDraws := saves }

/-- A tabulated `LOGW = 0` engine with the generated table of `tnr` rounds, `S[0] = p` and A = `q`. -/
def tabulated (b : Build) (tnr : BitVec 8) (p q : Plane) : State :=
  { (State.resetOf b).writeState [p] with
    tab := true, cst := .hit, tnr := tnr, a := PlaneReg.filled q, saveDraws := [.ok], retrieveDraws := [false] }

/-- The V-I1 image with bytes changed, kept under key 12 (95_test_vectors.md section 3.8). -/
def keeping (len : Nat) (writes : List Host.Cell) : State :=
  (answering (build 0) [false] []).storeContent 12 (some (Image.ofWrites (build 0) 12 len writes))

/-- STATUS after CONSTRUCT. -/
def statusAfterConstruct (s : State) : Word := statusWord (after .construct s)

/-- The last host result after `k` steps from reset of the `LOGW = 0` build with a host program loaded. -/
def lastResult (k : Nat) (program : List HostOp) : Option Word :=
  match Host.Core.run Sys2Proof.core k (State.reset.withProgram program) with
  | .next t => t.results.head?
  | .fault _ => none
  | .refused _ => none

/-- Whether `k` steps of a host program from reset of the `LOGW = 0` build record BusyHazard; none where they stop. -/
def hazardSeen (k : Nat) (program : List HostOp) : Option Bool :=
  match Host.Core.run Sys2Proof.core k (State.reset.withProgram program) with
  | .next t => some t.busyHazardSeen
  | .fault _ => none
  | .refused _ => none

/-! ## Well-formedness -/

theorem test_wf_refuses_prot_8 : (Instr.prot 8).wf = false := by decide
theorem test_wf_refuses_iota_256 : (Instr.iota 256).wf = false := by decide
theorem test_wf_refuses_round_256 : (Instr.round 256).wf = false := by decide
theorem test_wf_accepts_bounds : (Instr.prot 7).wf = true ∧ (Instr.iota 255).wf = true ∧ (Instr.round 255).wf = true := by decide
theorem test_assembler_refuses_prot_5 : (Instr.prot 5).assembles = false ∧ (Instr.prot 4).assembles = true := by decide
theorem test_assembler_refuses_iota_256 : (Instr.iota 256).assembles = false ∧ assemble (.round 256) = none := by decide

/-! ## Decoding: RSV (31:16), IMM (15:8), OP (7:0) of 30_encoding.md R101, OP by R104 -/

theorem test_decode_nop : decode (0b0000000000000000#16 ++ 0b00000000#8 ++ 0b00000000#8) = .ok .nop := by decide +kernel
theorem test_decode_pand : decode (0b0000000000000000#16 ++ 0b00000000#8 ++ 0b00000001#8) = .ok .pand := by decide +kernel
theorem test_decode_por : decode (0b0000000000000000#16 ++ 0b00000000#8 ++ 0b00000010#8) = .ok .por := by decide +kernel
theorem test_decode_pxor : decode (0b0000000000000000#16 ++ 0b00000000#8 ++ 0b00000011#8) = .ok .pxor := by decide +kernel
theorem test_decode_pnot : decode (0b0000000000000000#16 ++ 0b00000000#8 ++ 0b00000100#8) = .ok .pnot := by decide +kernel
theorem test_decode_prot_3 : decode (0b0000000000000000#16 ++ 0b00000011#8 ++ 0b00000101#8) = .ok (.prot 3) := by decide +kernel
theorem test_decode_theta : decode (0b0000000000000000#16 ++ 0b00000000#8 ++ 0b00010000#8) = .ok .theta := by decide +kernel
theorem test_decode_rho : decode (0b0000000000000000#16 ++ 0b00000000#8 ++ 0b00010001#8) = .ok .rho := by decide +kernel
theorem test_decode_pi : decode (0b0000000000000000#16 ++ 0b00000000#8 ++ 0b00010010#8) = .ok .pi := by decide +kernel
theorem test_decode_chi : decode (0b0000000000000000#16 ++ 0b00000000#8 ++ 0b00010011#8) = .ok .chi := by decide +kernel
theorem test_decode_chic : decode (0b0000000000000000#16 ++ 0b00000000#8 ++ 0b00010100#8) = .ok .chic := by decide +kernel
theorem test_decode_iota_11 : decode (0b0000000000000000#16 ++ 0b00001011#8 ++ 0b00010101#8) = .ok (.iota 11) := by decide +kernel
theorem test_decode_round_129 : decode (0b0000000000000000#16 ++ 0b10000001#8 ++ 0b00010110#8) = .ok (.round 129) := by decide +kernel
theorem test_decode_perm : decode (0b0000000000000000#16 ++ 0b00000000#8 ++ 0b00010111#8) = .ok .perm := by decide +kernel
theorem test_decode_construct : decode (0b0000000000000000#16 ++ 0b00000000#8 ++ 0b00100000#8) = .ok .construct := by decide +kernel
theorem test_decode_eval : decode (0b0000000000000000#16 ++ 0b00000000#8 ++ 0b00100001#8) = .ok .eval := by decide +kernel
theorem test_decode_save : decode (0b0000000000000000#16 ++ 0b00000000#8 ++ 0b00100010#8) = .ok .save := by decide +kernel
theorem test_decode_tread : decode (0b0000000000000000#16 ++ 0b00000000#8 ++ 0b00100011#8) = .ok .tread := by decide +kernel

/-- V-D3, V-D7, V-D10, V-D13: a nonzero reserved bit; V-D11, V-D12: a reserved OP. -/
theorem test_decode_rejects :
    decode 0x00010010#32 = .error .reservedBits ∧ decode 0x00000805#32 = .error .reservedBits ∧
      decode 0x00010016#32 = .error .reservedBits ∧ decode 0x00000117#32 = .error .reservedBits ∧
      decode 0x00000018#32 = .error .reservedOpcode ∧ decode 0x000000FF#32 = .error .reservedOpcode := by decide +kernel
/-- V-D5, V-D8, V-D9. -/
theorem test_encode_words :
    encode (.prot 5) = 0x00000505#32 ∧ encode (.iota 11) = 0x00000B15#32 ∧ encode (.round 255) = 0x0000FF16#32 ∧
      encode .tread = 0x00000023#32 := by decide +kernel
theorem test_decodeTableWord :
    decodeTableWord 32 0x00000405 = some (.prot 4) ∧ decodeTableWord 32 0x00010010 = none ∧
      decodeTableWord 8 0x23 = some .tread := by decide +kernel
/-- The fetched word is the next to be performed (V-D5, V-D4). -/
theorem test_withFetchWord :
    (∃ t, step (State.reset.withFetchWord 32 0x00000505) = .next t ∧ statusWord t = 0x00000300#32) ∧
      (∃ t, step (State.reset.withFetchWord 32 0x00000405) = .next t ∧ statusWord t = 0#32 ∧ t.r.written = true) :=
  ⟨⟨_, rfl, by decide +kernel⟩, ⟨_, rfl, by decide +kernel, by decide +kernel⟩⟩
/-- The tables of 41_steps.md R152 and R163. -/
theorem test_rho_offsets :
    rhoOffset 0 0 = 0 ∧ ∀ k < 24, rhoOffset (rhoOrbit k).1 (rhoOrbit k).2 = (k + 1) * (k + 2) / 2 := by decide +kernel

/-! ## Plane commands -/

/-- V-P2. -/
theorem test_pand : (after .pand (withAB 0x1234567 0x0ABCDEF)).r.value = 0x0234567 := by decide +kernel
/-- V-P5. -/
theorem test_por : (after .por (withAB 0x1234567 0x0ABCDEF)).r.value = 0x1ABCDEF := by decide +kernel
/-- V-P7. -/
theorem test_pxor : (after .pxor (withAB 0x1234567 0x0ABCDEF)).r.value = 0x1888888 := by decide +kernel
/-- V-P10: the complement is of 25 bits. -/
theorem test_pnot : regValue (after .pnot (withAB 0 0)) .r = 0x01FFFFFF#32 := by decide +kernel
/-- V-R1, V-R4. -/
theorem test_prot :
    (after (.prot 1) (withAB 0x1234567 0)).r.value = 0x0560ECE ∧ (after (.prot 3) (withAB 0x1234567 0)).r.value = 0x148B359 ∧
      (after (.prot 4) (withAB 0x1234567 0)).r.value = 0x091E2B3 ∧
      (after (.prot 1) (withAB 0x0000010 0)).r.value = 0x0000001 := by decide +kernel
/-- V-R6: A is unwritten, and an erroring command reads no operand (60_exceptions.md R266). -/
theorem test_prot_5 :
    (after (.prot 5) State.reset).err = .illegalOperand ∧ (after (.prot 5) State.reset).r = State.reset.r ∧
      (after (.prot 5) State.reset).unwrittenRead = false := by decide +kernel

/-! ## Step commands -/

/-- V-S6, V-W1. -/
theorem test_theta :
    planesAfter .theta 0 [0x1234567] = [0x1405DA1] ∧ planesAfter .theta 1 [0x0000001, 0] = [0x0210843, 0x1084210] := by
  decide +kernel
/-- V-W2, V-W4. -/
theorem test_rho :
    planesAfter .rho 1 [0x0000002, 0] = [0, 0x0000002] ∧ planesAfter .rho 2 [0x0000400, 0, 0, 0] = [0, 0, 0, 0x0000400] := by
  decide +kernel
/-- V-S6, V-S4. -/
theorem test_pi : planesAfter .pi 0 [0x1234567] = [0x1750593] ∧ planesAfter .pi 0 [0x0000020] = [0x0010000] := by decide +kernel
/-- V-S6, V-S2. -/
theorem test_chi : planesAfter .chi 0 [0x1234567] = [0x06B542F] ∧ planesAfter .chi 0 [0x0000001] = [0x0000009] := by
  decide +kernel
/-- V-X2, V-X3, V-X5. -/
theorem test_chic :
    (after .chic ((withAB 0x1FFFFFF 0).writeState [0x1234567])).stateValue = [0x04DFA3A] ∧
      (after .chic ((withAB 0 0x1FFFFFF).writeState [0x1234567])).stateValue = [0x194ABD0] ∧
      (after .chic ((withAB 0x0000001 0x0000002).writeState [0x1234567])).stateValue = [0x06B5434] := by decide +kernel
/-- V-W6, and the table of 95_test_vectors.md section 3.6. -/
theorem test_iota :
    planesAfter (.iota 1) 1 [0, 0] = [0, 0x0000001] ∧
      (List.range 24).map (fun i => iota i [0]) =
        [[1], [0], [0], [0], [1], [1], [1], [1], [0], [0], [1], [0]] ++
          [[1], [1], [1], [1], [0], [0], [0], [0], [1], [0], [1], [0]] := by decide +kernel
/-- V-W8, V-W9: indices 3 and 24 at `w = 64`, by the planes whose lane (0,0) bit is set. -/
theorem test_iota_wide :
    ((List.range 64).filter fun z => roundConstantBit 3 z) = [15, 31, 63] ∧
      ((List.range 64).filter fun z => roundConstantBit 24 z) = [1, 7, 15, 31, 63] := by decide +kernel

/-! ## Rounds -/

/-- V-S6 (ROUND 0), V-N10. -/
theorem test_round :
    planesAfter (.round 0) 0 [0x1234567] = [0x16B4A31] ∧ planesAfter (.round 255) 0 [0] = [0x0000001] := by decide +kernel
/-- V-N4, V-N6: 12 rounds at `w = 1`, 14 at `w = 2`. -/
theorem test_perm :
    planesAfter .perm 0 [0x1234567] = [0x0F4AE91] ∧ planesAfter .perm 1 [0, 0] = [0x0537FBC, 0x1162386] := by decide +kernel
/-- V-N11: the base moves PERM's indices only. -/
theorem test_perm_base :
    (after .perm { (State.resetOf { build 0 with roundIndexBase := 1 }).writeState [0] with nr := 1 }).stateValue = [0] := by
  decide +kernel

/-! ## LUT commands -/

/-- V-C1, V-C2. -/
theorem test_construct_generates :
    statusAfterConstruct (answering (build 0) [] [.ok]) = 0x000C2002#32 ∧
      statusAfterConstruct (answering (build 0) [] [.storageError .absent]) = 0x000C4002#32 := by decide +kernel
/-- V-I5, V-I6, V-I7, V-I10, V-I12. -/
theorem test_construct_validates :
    statusAfterConstruct (keeping imageLength []) = 0x000C1002#32 ∧
      statusAfterConstruct (keeping 134217739 []) = 0x000C3002#32 ∧
      statusAfterConstruct (keeping imageLength [(0xC, 0x16)]) = 0x000C3002#32 ∧
      statusAfterConstruct (keeping imageLength [(0xF, 0x03), (0x800000B, 0x00)]) = 0x000C3002#32 ∧
      statusAfterConstruct { keeping imageLength [] with retrieveDraws := [true] } = 0x000C3002#32 := by decide +kernel
/-- V-I11: exchanged entries are loaded as they stand. -/
theorem test_tread_loaded :
    (after .tread { after .construct (keeping imageLength
      [(0x8, 0x17), (0x9, 0x0F), (0xA, 0x16), (0xB, 0x01), (0xC, 0), (0xD, 0), (0xE, 0), (0xF, 0)]) with
      a := PlaneReg.filled 0 }).r.value = 0x1160F17 := by decide +kernel
/-- V-T2 in both modes. -/
theorem test_tread :
    (after .tread (tabulated (build 0) 12 0 0x0000001)).r.value = 0x1160F17 ∧
      (after .tread (tabulated fullBuild 12 0 0x0000001)).r.value = 0x18D3C12 := by decide +kernel
/-- V-E3 at TNR 12, 2 and 0. -/
theorem test_eval :
    (after .eval (tabulated (build 0) 12 0x1234567 0)).stateValue = [0x0F4AE91] ∧
      (after .eval (tabulated fullBuild 2 0x1234567 0)).stateValue = [0x139F83C] ∧
      (after .eval (tabulated (build 0) 0 0x1234567 0)).stateValue = [0x1234567] := by decide +kernel
/-- V-C6, and the bytes of V-I1 at 0x0, 0x4, 0xC and 0x8000008. -/
theorem test_save :
    statusWord (after .save (tabulated (build 0) 12 0 0)) = 0x000C5002#32 ∧
      ((after .save (tabulated (build 0) 12 0 0)).storedImage 12).map (fun img =>
        [0, 1, 3, 4, 0xC, 0xD, 0xE, 0xF, 0x8000008, 0x800000B].map (img.byte (build 0) 12)) =
        some [0x00, 0x00, 0x02, 0x0C, 0x17, 0x0F, 0x16, 0x01, 0x0C, 0x02] := by decide +kernel
/-- V-D16, V-C8, V-D17, V-D18: the errors of the LUT commands. -/
theorem test_lut_errors :
    statusAfterConstruct (State.resetOf (build 1)) = 0x01000200#32 ∧
      (after .construct (tabulated (build 0) 12 0 0)).err = .alreadyTabulated ∧
      (after .eval State.reset).err = .notTabulated ∧ (after .save State.reset).err = .notTabulated ∧
      (after .tread State.reset).err = .notTabulated := by decide +kernel

/-! ## Registers, protocol and reset -/

/-- V-G1, V-G2, V-G3, V-G4. -/
theorem test_reset_registers :
    statusWord State.reset = 0#32 ∧
      statusWord (State.resetOf { logw := 6, mode := .fullPermutation, roundIndexBase := 0 }) = 0x0E000000#32 ∧
      ctrlWord State.reset = 0x0000000C#32 ∧ ctrlWord (State.resetOf (build 3)) = 0x00000012#32 := by decide +kernel
/-- V-G5, V-G9 through the host's program. -/
theorem test_host_writes :
    lastResult 2 [.write 0x000 .w32 0xFFFFFF05#32, .read 0x000 .w32] = some 0x00000005#32 ∧
      lastResult 2 [.write 0x100 .w32 0xFE000001#32, .read 0x100 .w32] = some 0x00000001#32 := by decide +kernel
/-- V-G10: the model records UnwrittenRead (log 4). -/
theorem test_unwritten_read :
    (∃ t, hostRead 0x100 .w32 State.reset = .next t ∧ t.unwrittenRead = true) := ⟨_, rfl, by decide +kernel⟩
/-- V-G13 with the engine not yet to move: BUSY = 1 (70_reset_and_hazards.md R301). -/
theorem test_busy_hazard :
    hostRead 0x100 .w32 (issue 0x00000017#32 State.reset) = .fault .busyHazard ∧
      hostWrite 0x004 .w32 0#32 (issue 0x00000017#32 State.reset) = .fault .busyHazard := ⟨rfl, rfl⟩
/-- V-G13 on the default schedule: the command has been performed, but no STATUS read has shown BUSY = 0, and the hazard is
recorded (log 15). With the STATUS read (V-G14) or a WAIT in between there is none. -/
theorem test_busy_window :
    hazardSeen 3 [.write 0x004 .w32 0x00000017#32, .read 0x100 .w32] = some true ∧
      hazardSeen 4 [.write 0x004 .w32 0x00000017#32, .read 0x008 .w32, .read 0x100 .w32] = some false ∧
      hazardSeen 4 [.write 0x004 .w32 0x00000017#32, .wait, .read 0x100 .w32] = some false := by decide +kernel
/-- V-G11, V-G12. -/
theorem test_host_faults :
    hostRead 0x008 .w16 State.reset = .fault .unadmittedAccess ∧ hostRead 0x018 .w32 State.reset = .fault .reservedAccess ∧
      hostRead 0x104 .w32 State.reset = .fault .reservedAccess := ⟨rfl, rfl, rfl⟩
/-- V-G14: BUSY reads 1 before the perform step; program P1 lines 1, 9 and 10 read the round's result. -/
theorem test_issue_and_wait :
    regValue (issue 0x00000017#32 State.reset) .status = 0x00000001#32 ∧
      lastResult 5 [.write 0x100 .w32 0x01234567#32, .write 0x004 .w32 0x00000016#32, .wait, .read 0x100 .w32] =
        some 0x016B4A31#32 := by decide +kernel
/-- A command line stands for a CMD write and WAIT; the assembler refuses PROT 5 (30_encoding.md R110, R111). -/
theorem test_expand :
    expandLine (.command (.prot 4)) = some [.write 0x004 .w32 0x00000405#32, .wait] ∧ expandLine (.command (.prot 5)) = none ∧
      expandLine (.clrerr 12) = some [.write 0x000 .w32 0x8000000C#32] := by decide +kernel

/-! ## Witnesses: encoding -/

theorem witness_DecodeEncodeRoundTrip :
    (∀ n < 8, (Instr.prot n).wf = true) ∧ (Instr.iota 255).wf = true ∧ (Instr.round 255).wf = true ∧
      Instr.nop.wf = true ∧ Instr.tread.wf = true := by decide
theorem witness_EncodeDecodeRoundTrip : decode 0x0000FF16#32 = .ok (.round 255) := by decide +kernel
theorem witness_IllegalWordsRaiseIllegalCommand :
    ({ State.reset with pend := some 0x00010010#32 } : State).pend = some 0x00010010#32 ∧
      ∀ row ∈ opcodeTable, 0x00010010#32 &&& row.mask ≠ row.pattern := ⟨rfl, by decide +kernel⟩
theorem witness_StepPerformsTheDecodedCommand :
    (State.reset.withFetchWord 32 0x17).pend = some 0x00000017#32 ∧ decode 0x00000017#32 = .ok .perm ∧
      (State.reset.withFetchWord 32 0x17).schedule = .engine :: [] ∧
      ({ State.reset with pend := some 0x00000017#32 } : State).schedule = [] := by decide +kernel
theorem witness_ErrorsAreCheckedInOrder :
    decode 0x00000121#32 = .error .reservedBits ∧ decode 0x00000505#32 = .ok (.prot 5) ∧
      decode 0x00000020#32 = .ok .construct ∧ decode 0x00000021#32 = .ok .eval ∧ (State.resetOf (build 1)).build.logw ≠ 0 ∧
      (State.resetOf (build 0)).build.logw = 0 ∧ (State.resetOf (build 0)).tab = false ∧
      (tabulated (build 0) 12 0 0).tab = true ∧ (tabulated (build 0) 12 0 0).build.logw = 0 := by decide +kernel

/-! ## Witnesses: commands -/

theorem witness_amounts : (0 ≤ 4 ∧ 4 ≤ 4 ∧ 4 < 5 ∧ 1 ≤ 1) ∧ (0 : Nat) < 5 ∧ (4 : Nat) < 5 := by decide
theorem witness_PlaneCommandsChangeOnlyR :
    (∃ t, exec .pand State.reset = .next t) ∧ (∃ t, exec .pnot State.reset = .next t) ∧
      (∃ t, exec (.prot 0) State.reset = .next t) ∧ ∃ t, exec (.prot 4) State.reset = .next t :=
  ⟨⟨_, rfl⟩, ⟨_, rfl⟩, ⟨_, rfl⟩, ⟨_, rfl⟩⟩
theorem witness_HasPlanes (b : Build) : HasPlanes (State.resetOf b) := by simp [HasPlanes, State.resetOf]
theorem witness_lanes : (State.resetOf (build 0)).build.lanes = 1 ∧ (63 : Nat) < (State.resetOf (build 6)).build.lanes := by decide
theorem witness_ChicMasks : (withPlanes 1 [0x1FFFFFF, 0]).stateValue = [0x1FFFFFF, 0].map (· ^^^ (withPlanes 1 [0, 0]).a.value) := by
  decide +kernel
theorem witness_ChiFixedRows : ∀ y < 5,
    (rowOf 0x000001F#25 y = 0 ∨ rowOf 0x000001F#25 y = 0b11111#5) ∧ rowOf 0x1FFFFFF#25 y = 0b11111#5 := by decide +kernel
theorem witness_StepCommandsChangeOnlyThePlanes :
    (∃ t, exec .theta State.reset = .next t) ∧ (∃ t, exec (.iota 255) State.reset = .next t) ∧
      ∃ t, exec .perm State.reset = .next t := ⟨⟨_, rfl⟩, ⟨_, rfl⟩, ⟨_, rfl⟩⟩
theorem witness_PermOfNoRounds : ({ State.reset with nr := 0 } : State).nr = 0 := rfl
theorem witness_LutCommandsNeedTheNarrowBuild :
    (State.resetOf (build 1)).build.logw ≠ 0 ∧ (State.resetOf (build 6)).build.logw ≠ 0 := by decide
/-- The tabulated states of the tests meet the invariant, and so every premise about table, store and planes. -/
theorem witness_tabulated :
    (tabulated (build 0) 12 0x1234567 0).wf = true ∧ (tabulated fullBuild 0 0x1234567 0).wf = true ∧
      (tabulated (build 0) 12 0 0).build.logw = 0 ∧ (tabulated (build 0) 12 0 0).tab = true ∧
      (tabulated (build 0) 12 0 0).tblWf = true ∧ (tabulated (build 0) 12 0 0).storeWf = true ∧
      HasPlanes (tabulated (build 0) 12 0 0) ∧ HasPlanes (tabulated fullBuild 0 0 0) := by
  refine ⟨by decide +kernel, by decide +kernel, rfl, rfl, by decide +kernel, by decide +kernel, rfl, rfl⟩
/-- A table that lists nothing is the generated one: the premise of EvalAgreesWithPerm and of EvalIteratesLookups at TNR 0. -/
theorem witness_EvalAgreesWithPerm (i : Plane) :
    (tabulated (build 0) 12 0 0).tblRead i = genEntry (build 0) 12 i ∧
      (tabulated fullBuild 0 0 0).tblRead i = genEntry fullBuild 0 i ∧ (tabulated fullBuild 0 0 0).tnr = 0 ∧
      (tabulated (build 0) 12 0 0).nr = (tabulated (build 0) 12 0 0).tnr :=
  ⟨State.tblRead_of_unlisted rfl i, State.tblRead_of_unlisted rfl i, rfl, by decide +kernel⟩
theorem witness_EvalChangesOnlyItsPlane :
    (∃ t, exec .eval (tabulated (build 0) 12 0x1234567 0) = .next t) ∧ (1 : Nat) ≠ 0 := ⟨⟨_, rfl⟩, by decide⟩
theorem witness_ConstructGeneratesWhenAbsent :
    let s := answering (build 0) [] [.ok]
    let u := answering (build 0) [] [.storageError .absent]
    s.build.logw = 0 ∧ s.tab = false ∧ s.storeWf = true ∧ s.storedImage s.nr = none ∧ s.nextSaveAnswer = .ok ∧
      u.nextSaveAnswer ≠ .ok ∧ u.storeWf = true := by decide +kernel

/-- The image of the generated table passes the five checks. -/
theorem pristine_valid (b : Build) (nr : BitVec 8) : validBytes b.mode nr imageLength (genByte b nr) := by
  have hE : xorEntries (fun i => wordAt (genByte b nr) (i + 2)) entryCount = 0 := by
    rw [← xorEntries_genEntry b nr]
    exact xorEntries_congr fun i hi => by rw [wordAt_genByte, genWord_entry b nr hi]
  refine ⟨rfl, by rw [wordAt_genByte]; rfl, ?_, fun i hi => ?_, ?_⟩
  · rw [wordAt_genByte]
    simp only [genWord]
    cases b.mode <;> simp [descWord]
    all_goals refine ⟨?_, ?_⟩ <;> ext i hi <;> interval_cases i <;> simp
  · rw [wordAt_genByte, genWord_entry b nr hi]
    exact setWidth_top_zero _
  · rw [hE, wordAt_genByte, wordAt_genByte, wordAt_genByte]
    simp [genWord, checkIndex]
theorem witness_ConstructLoadsAWellFormedImage :
    let s := keeping imageLength []
    s.build.logw = 0 ∧ s.tab = false ∧ s.storeWf = true ∧ s.storedImage s.nr = some ⟨imageLength, []⟩ ∧
      s.nextReadFailure = false ∧
      validBytes s.build.mode s.nr imageLength (Image.byte s.build s.nr ⟨imageLength, []⟩) :=
  ⟨rfl, rfl, by decide +kernel, by decide +kernel, rfl, pristine_valid (build 0) 12⟩
theorem witness_ConstructReportsACorruptImage :
    let s := keeping 134217739 []
    let u := { keeping imageLength [] with retrieveDraws := [true] }
    s.storeWf = true ∧ s.storedImage s.nr = some ⟨134217739, []⟩ ∧
      ¬validBytes s.build.mode s.nr 134217739 (Image.byte s.build s.nr ⟨134217739, []⟩) ∧
      u.storeWf = true ∧ u.storedImage u.nr = some ⟨imageLength, []⟩ ∧ u.nextReadFailure = true :=
  ⟨by decide +kernel, by decide +kernel, fun h => absurd h.1 (by decide), by decide +kernel, by decide +kernel, rfl⟩
theorem witness_ConstructAndSaveFrame :
    (∃ t, exec .construct (answering (build 0) [] [.ok]) = .next t) ∧ (answering (build 0) [] [.ok]).tab = false ∧
      (∃ t, exec .save (tabulated (build 0) 12 0 0) = .next t) ∧ (tabulated (build 0) 12 0 0).tab = true ∧
      (13 : BitVec 8) ≠ 12 := ⟨⟨_, rfl⟩, rfl, ⟨_, rfl⟩, rfl, by decide⟩
theorem witness_SaveWritesTheTablesImage :
    (tabulated (build 0) 12 0 0).nextSaveAnswer = .ok ∧
      ({ tabulated (build 0) 12 0 0 with saveDraws := [.storageError .earlier] } : State).nextSaveAnswer ≠ .ok := by
  decide +kernel
theorem witness_OneChangedByteIsCorrupt :
    let enc := encodeByte .roundNoIota 12 fun _ => 0
    let bytes := fun a => if a = 0x8000008 then enc a + 1 else enc a
    (134217739 : Nat) ≠ imageLength ∧ (0x8000008 : Nat) < imageLength ∧ bytes 0x8000008 ≠ enc 0x8000008 ∧
      ∀ a < imageLength, a ≠ 0x8000008 → bytes a = enc a := by
  refine ⟨by decide, by decide, fun h => ?_, fun a _ ha => if_neg ha⟩
  simp only [if_true] at h
  bv_omega
theorem witness_SparseImages :
    Memory.wf (tblFill (build 0) 12) entryCount [(1, 0x0000001#25)] = true ∧
      Image.wf (build 0) 12 ⟨imageLength, [(0xC, 0x16)]⟩ = true ∧
      validateImage (build 0) 12 ⟨imageLength, [(0xC, 0x16)]⟩ = none ∧
      validateImage (build 0) 12 ⟨imageLength, []⟩ = some [] := by decide +kernel
theorem witness_SaveResetConstructRestoresTheTable :
    let s := tabulated (build 0) 12 0 0
    s.wf = true ∧ s.build.logw = 0 ∧ s.tab = true ∧ s.nextSaveAnswer = .ok ∧ ∃ t, exec .save s = .next t ∧
      (writeCtrl (s.tnr.setWidth 32) (resetStep [] { t with pend := none })).nextReadFailure = false :=
  ⟨by decide +kernel, rfl, rfl, rfl, _, rfl, by decide +kernel⟩

/-! ## Witnesses: the host and the whole machine -/

theorem witness_PlaneRegistersKeepTheLowBits : (63 : Nat) < (State.resetOf (build 6)).planes.length := by
  simp [State.resetOf, Build.lanes, build]
theorem witness_noCommandPending :
    State.reset.pend = none ∧ ({ State.reset with busyWindow := true } : State).pend = none ∧
      (State.resetOf (build 6)).pend = none ∧ (63 : Nat) < (State.resetOf (build 6)).build.lanes ∧ (0 : Nat) ≠ 63 := by decide
theorem witness_UnadmittedAccessesFault : Width.w8 ≠ .w32 ∧ 0x1FF % 4 ≠ 0 ∧ 0x001 % 4 ≠ 0 := by decide
theorem witness_ReservedOffsetsFault :
    State.reset.pend = none ∧ (0x018 : Nat) % 4 = 0 ∧ (0x0FC : Nat) % 4 = 0 ∧ (0x0FC : Nat) < 0x100 ∧
      State.reset.build.lanes ≤ 1 ∧ 0x104 = 0x100 + 4 * 1 ∧ (State.resetOf (build 5)).build.lanes ≤ 63 ∧
      0x1FC = 0x100 + 4 * 63 ∧ (0x1FC : Nat) < 0x200 := by decide
theorem witness_AccessesWhileBusyFault :
    ({ State.reset with pend := some 0x00000017#32 } : State).pend.isSome = true ∧ (0x1FC : Nat) < 0x200 ∧
      0x1FC % 4 = 0 ∧ (0x1FC : Nat) ≠ 0x008 := by decide
theorem witness_BusyWindowTail :
    ({ State.reset with busyWindow := true } : State).busyWindow = true ∧
      (∃ t, hostWrite 0x004 .w32 0#32 State.reset = .next t) ∧
      (∃ t, hostWrite 0x004 .w32 0#32 { State.reset with busyWindow := true } = .next t) ∧
      (∃ t, hostRead 0x100 .w32 { State.reset with busyWindow := true } = .next t) ∧
      (∃ t, performStep { State.reset with pend := some 0#32, busyWindow := true } = .next t) ∧
      ∃ t, hostRead 0x008 .w32 { State.reset with pend := some 0#32, busyWindow := true } = .next t :=
  ⟨rfl, ⟨_, rfl⟩, ⟨_, rfl⟩, ⟨_, rfl⟩, ⟨_, rfl⟩, ⟨_, rfl⟩⟩
theorem witness_HostReadsHaveNoSideEffect :
    (∃ t, hostRead 0x100 .w32 State.reset = .next t) ∧ regAt State.reset.build 0x100 = some (.s 0) ∧
      regAt State.reset.build 0x008 = some .status := ⟨⟨_, rfl⟩, by decide, by decide⟩
theorem witness_Wait :
    let s := { State.reset.withProgram [.wait] with busyWindow := true }
    s.program[s.hostPos]? = some .wait ∧ (regValue s .status).getLsbD 0 = false ∧
      (regValue { s with pend := some 0#32 } .status).getLsbD 0 = true := by decide +kernel
theorem witness_UnwrittenOperandReadsAreRecorded :
    (∃ t, exec .chic State.reset = .next t) ∧ (∃ t, exec .eval (tabulated (build 0) 12 0 0) = .next t) ∧
      (∃ t, exec .tread (tabulated (build 0) 12 0 0) = .next t) ∧ (∃ t, exec .nop State.reset = .next t) ∧
      (∃ t, exec .construct (answering (build 0) [] [.ok]) = .next t) := ⟨⟨_, rfl⟩, ⟨_, rfl⟩, ⟨_, rfl⟩, ⟨_, rfl⟩, ⟨_, rfl⟩⟩
theorem witness_OnlyResetUntabulates :
    (∃ t, step { tabulated (build 0) 12 0 0 with schedule := [.reset []] } = .next t ∧ t.tab = false) ∧
      ∃ t, step ((answering (build 0) [] [.ok]).withFetchWord 32 0x20) = .next t ∧ t.tab = true :=
  ⟨⟨_, rfl, rfl⟩, ⟨_, rfl, by decide +kernel⟩⟩
theorem witness_StepKeepsTheInvariant :
    State.reset.wf = true ∧ (∃ t, step State.reset = .next t) ∧
      ∃ t, step { State.reset with unwrittenRead := true } = .next t := ⟨by decide +kernel, ⟨_, rfl⟩, ⟨_, rfl⟩⟩
theorem witness_ResetLeavesTheSpecifiedState : State.reset.pendingSave = none := rfl
/-- A reset during a SAVE under key 12, and during a CONSTRUCT that would save under key 12: key 13 meets the premises. -/
theorem witness_ResetDuringASave :
    let s := { tabulated (build 0) 12 0 0 with pend := some 0x00000022#32 }
    let u := { State.reset with pend := some 0x00000020#32 }
    decode 0x00000022#32 = .ok .save ∧ s.build.logw = 0 ∧ s.tab = true ∧ (13 : BitVec 8) ≠ s.tnr ∧
      decode 0x00000020#32 = .ok .construct ∧ u.tab = false ∧ u.storedImage u.nr = none ∧ (13 : BitVec 8) ≠ u.nr ∧
      ∀ e ∈ [({ key := 12, content := .absent } : StoreEdit)], e.key ≠ 13 := by decide +kernel
/-- A code goes from ILLEGAL_COMMAND to NONE by a CTRL write with bit 31 set, and from NONE to a code by a perform step. -/
theorem witness_ErrorsStayRecorded :
    (∃ t, step { State.reset.withProgram [.write 0x000 .w32 0x8000000C#32] with err := .illegalCommand } = .next t ∧
      t.err = .none) ∧ ∃ t, step (State.reset.withFetchWord 32 0xFF) = .next t ∧ t.err ≠ .none :=
  ⟨⟨_, rfl, by decide +kernel⟩, ⟨_, rfl, by decide +kernel⟩⟩
theorem witness_PendingCommandsComplete :
    (State.reset.withFetchWord 32 0x17).pend.isSome = true ∧
      ({ State.reset with pend := some 0#32, schedule := [.host], program := [.read 0x100 .w32] } : State).pend.isSome = true :=
  ⟨rfl, rfl⟩
theorem witness_WaitingProgramsNeverMeetBusyHazard :
    waitsAfterIssue (State.reset.withProgram [.write 0x004 .w32 0x00000017#32, .wait, .read 0x100 .w32]).program = true ∧
      HostWaits (State.reset.withProgram [.write 0x004 .w32 0x00000017#32, .wait, .read 0x100 .w32]) := by
  refine ⟨by decide, fun h => absurd h (by decide)⟩
theorem witness_CommandLinesExpandToWaitingPrograms :
    (∀ v, Line.wr .cmd v ∉ [Line.lds 0 0x1234567, .command .theta, .rd (.s 0)]) ∧
      (expandProgram [Line.lds 0 0x1234567, .command .theta, .rd (.s 0)]).isSome = true := by
  refine ⟨fun v h => ?_, by decide +kernel⟩
  simp at h

end Sys2Proof.Tests
end

section
/-! What one command can do (30_encoding.md R104), and what follows for every step: the build stays, faults stay recorded and
STATUS.ERR keeps the first error (00_scope.md R9 to R11; 60_exceptions.md R265, R268). -/

namespace Sys2Proof.Machine

/-! ## What one command can do -/

/-- `Effect i s t`: `t` is a state the command `i` may answer in `s`, by the shape of its meaning. -/
inductive Effect : Instr → State → State → Prop where
  /-- NOP does nothing (44_system.md R244). -/
  | nop (s : State) : Effect .nop s s
  /-- A command in error has no other effect (60_exceptions.md R265). -/
  | error (i : Instr) (code : ErrCode) (s : State) : Effect i s (raiseError code s)
  /-- A plane command that reads `A`, or TREAD (40_plane.md R130; 43_lut.md R217). -/
  | planeOp1 (i : Instr) (f : Plane → Plane) (s : State) : Effect i s (planeOp1 f s)
  /-- A plane command that reads `A` and `B` (40_plane.md R130). -/
  | planeOp2 (i : Instr) (f : Plane → Plane → Plane) (s : State) : Effect i s (planeOp2 f s)
  /-- A step, round or permutation command (41_steps.md R150; 42_rounds.md R182, R183). -/
  | stepOp (i : Instr) (f : List Plane → List Plane) (s : State) (hf : ∀ v, (f v).length = v.length) :
      Effect i s (stepOp f s)
  /-- CHIC, which reads the masks besides (41_steps.md R168). -/
  | chic (s : State) :
      Effect .chic s (Machine.stepOp (fun v => Machine.chic v s.a.value s.b.value) (s.noteReads [s.a, s.b]))
  /-- CONSTRUCT in an untabulated narrow build (43_lut.md R205). -/
  | construct (s : State) (hlut : s.hasLut = true) (htab : s.tab = false) :
      Effect .construct s (constructTable s.nr s)
  /-- EVAL with its table (43_lut.md R210). -/
  | eval (s : State) (hlut : s.hasLut = true) (htab : s.tab = true) :
      Effect .eval s ((s.noteReads [s.plane 0]).writePlane 0 (evaluate s (s.plane 0).value))
  /-- SAVE with its table (43_lut.md R215). -/
  | save (s : State) (hlut : s.hasLut = true) (htab : s.tab = true) : Effect .save s (saveTable s)

/-- The checks of a LUT command: NO_LUT, then the error of its TAB state, then its effect (60_exceptions.md R262, R264). -/
theorem effect_of_lutChecks {i : Instr} {s u : State} {bad : Bool} {code : ErrCode}
    (h : s.hasLut = true → bad = false → Effect i s u) :
    ∃ t, (if !s.hasLut then .next (raiseError .noLut s) else if bad then .next (raiseError code s) else .next u :
      Host.Outcome State Fault Refusal) = .next t ∧ Effect i s t := by
  cases hl : s.hasLut with
  | false => exact ⟨_, rfl, .error i .noLut s⟩
  | true =>
    cases bad with
    | true => exact ⟨_, rfl, .error i code s⟩
    | false => exact ⟨_, rfl, h hl rfl⟩

theorem exec_effect (i : Instr) (s : State) : ∃ t, exec i s = .next t ∧ Effect i s t := by
  cases i with
  | nop => exact ⟨_, rfl, .nop s⟩
  | pand => exact ⟨_, rfl, .planeOp2 _ _ s⟩
  | por => exact ⟨_, rfl, .planeOp2 _ _ s⟩
  | pxor => exact ⟨_, rfl, .planeOp2 _ _ s⟩
  | pnot => exact ⟨_, rfl, .planeOp1 _ _ s⟩
  | prot n =>
    by_cases hn : n > 4
    · exact ⟨_, if_pos hn, .error _ _ s⟩
    · exact ⟨_, if_neg hn, .planeOp1 _ _ s⟩
  | theta => exact ⟨_, rfl, .stepOp _ _ s length_theta⟩
  | rho => exact ⟨_, rfl, .stepOp _ _ s length_rho⟩
  | pi => exact ⟨_, rfl, .stepOp _ _ s length_pi⟩
  | chi => exact ⟨_, rfl, .stepOp _ _ s length_chi⟩
  | chic => exact ⟨_, rfl, .chic s⟩
  | iota k => exact ⟨_, rfl, .stepOp _ _ s (length_iota k)⟩
  | round k => exact ⟨_, rfl, .stepOp _ _ s (length_roundI k)⟩
  | perm => exact ⟨_, rfl, .stepOp _ _ s (length_perm _ _)⟩
  | construct => exact effect_of_lutChecks fun hlut htab => .construct s hlut htab
  | eval => exact effect_of_lutChecks fun hlut htab => .eval s hlut (by simpa using htab)
  | save => exact effect_of_lutChecks fun hlut htab => .save s hlut (by simpa using htab)
  | tread => exact effect_of_lutChecks fun _ _ => .planeOp1 _ _ s

theorem effect_of_exec {i : Instr} {s t : State} (h : exec i s = .next t) : Effect i s t := by
  obtain ⟨u, hu, he⟩ := exec_effect i s
  obtain rfl : u = t := Host.Outcome.next.inj (hu.symm.trans h)
  exact he

/-! ## What no command changes -/

/-- From `s` to `t` the inputs of the engine, PEND, the host and the schedule are as they were, no fault's record is cleared,
and a code in STATUS.ERR stays. -/
structure CommandFrame (s t : State) : Prop where
  build : t.build = s.build
  a : t.a = s.a
  b : t.b = s.b
  nr : t.nr = s.nr
  pend : t.pend = s.pend
  program : t.program = s.program
  hostPos : t.hostPos = s.hostPos
  results : t.results = s.results
  schedule : t.schedule = s.schedule
  busyWindow : t.busyWindow = s.busyWindow
  busyHazardSeen : t.busyHazardSeen = s.busyHazardSeen
  unwrittenRead : s.unwrittenRead = true → t.unwrittenRead = true
  err : s.err ≠ .none → t.err = s.err

theorem CommandFrame.refl (s : State) : CommandFrame s s := by
  constructor <;> simp

theorem raiseError_frame (code : ErrCode) (s : State) : CommandFrame s (raiseError code s) := by
  constructor <;> simp +contextual

theorem planeOp1_frame (f : Plane → Plane) (s : State) : CommandFrame s (planeOp1 f s) := by
  constructor <;> simp +contextual [planeOp1]

theorem planeOp2_frame (f : Plane → Plane → Plane) (s : State) : CommandFrame s (planeOp2 f s) := by
  constructor <;> simp +contextual [planeOp2]

theorem stepOp_frame (f : List Plane → List Plane) (s : State) : CommandFrame s (stepOp f s) := by
  constructor <;> simp +contextual [stepOp]

theorem stepOp_noteReads_frame (f : List Plane → List Plane) (s : State) (regs : List PlaneReg) :
    CommandFrame s (stepOp f (s.noteReads regs)) := by
  constructor <;> simp +contextual [stepOp]

theorem writePlane_noteReads_frame (s : State) (regs : List PlaneReg) (z : Nat) (p : Plane) :
    CommandFrame s ((s.noteReads regs).writePlane z p) := by
  constructor <;> simp +contextual

theorem saveTable_frame (s : State) : CommandFrame s (saveTable s) := by
  constructor <;> simp [saveTable]

theorem constructTable_frame (nr : BitVec 8) (s : State) : CommandFrame s (constructTable nr s) := by
  obtain ⟨tbl, -, hc⟩ | ⟨-, hc⟩ | ⟨-, hc⟩ := constructTable_cases nr s <;>
    (rw [hc]; constructor <;> simp)

/-- Every command keeps the frame. -/
theorem exec_frame {i : Instr} {s t : State} (h : exec i s = .next t) : CommandFrame s t := by
  cases effect_of_exec h with
  | nop => exact CommandFrame.refl s
  | error _ code => exact raiseError_frame code s
  | planeOp1 _ f => exact planeOp1_frame f s
  | planeOp2 _ f => exact planeOp2_frame f s
  | stepOp _ f => exact stepOp_frame f s
  | chic => exact stepOp_noteReads_frame _ s _
  | construct => exact constructTable_frame s.nr s
  | eval => exact writePlane_noteReads_frame s _ _ _
  | save => exact saveTable_frame s

/-- A perform step with a command pending empties PEND and keeps the frame otherwise, whatever the word
(44_system.md R242). -/
theorem performStep_frame {s t : State} (h : performStep s = .next t) :
    (s.pend = none ∧ t = s) ∨ (s.pend.isSome = true ∧ CommandFrame { s with pend := none } t) := by
  obtain ⟨hw, hp⟩ | ⟨w, i, hw, -, hp⟩ | ⟨w, e, hw, -, hp⟩ := performStep_cases s <;> rw [hp] at h
  · exact .inl ⟨hw, (Host.Outcome.next.inj h).symm⟩
  · exact .inr ⟨by simp [hw], exec_frame h⟩
  · obtain rfl := Host.Outcome.next.inj h
    exact .inr ⟨by simp [hw], raiseError_frame _ _⟩

/-! ## What a host write reaches -/

@[simp] theorem writeReg_build (v : Word) (s : State) (reg : WindowReg) : (writeReg v s reg).build = s.build := by
  cases reg <;> rfl
@[simp] theorem writeReg_unwrittenRead (v : Word) (s : State) (reg : WindowReg) :
    (writeReg v s reg).unwrittenRead = s.unwrittenRead := by cases reg <;> rfl
@[simp] theorem writeReg_busyHazardSeen (v : Word) (s : State) (reg : WindowReg) :
    (writeReg v s reg).busyHazardSeen = s.busyHazardSeen := by cases reg <;> rfl
@[simp] theorem writeReg_hostPos (v : Word) (s : State) (reg : WindowReg) :
    (writeReg v s reg).hostPos = s.hostPos := by cases reg <;> rfl
/-- Only a CTRL write with bit 31 set changes STATUS.ERR (44_system.md R246). -/
@[simp] theorem writeReg_err (v : Word) (s : State) (reg : WindowReg) :
    (writeReg v s reg).err = if reg = .ctrl ∧ v.getLsbD 31 = true then .none else s.err := by
  cases reg <;> simp [writeReg]

/-- CTRL is at offset 0 only (20_memory.md R61). -/
theorem off_of_regAt_ctrl {build : Build} {off : Nat} (h : regAt build off = some .ctrl) : off = 0x000 := by
  unfold regAt at h
  split at h
  · assumption
  · split_ifs at h <;> cases h

theorem width_of_admitted {off : Nat} {width : Width} (h : admitted off width = true) : width = .w32 := by
  cases width with
  | w32 => rfl
  | _ => cases h

/-! ## The build and the records of faults -/

/-- From `s` to `t` the build stays and no record of a fault is cleared (00_scope.md R9 to R11; 60_exceptions.md R268). -/
structure KeepsRecords (s t : State) : Prop where
  build : t.build = s.build
  unwrittenRead : s.unwrittenRead = true → t.unwrittenRead = true
  busyHazardSeen : s.busyHazardSeen = true → t.busyHazardSeen = true

/-- Using up a turn touches no record. -/
theorem KeepsRecords.of_schedule {s t : State} {rest : List Turn}
    (h : KeepsRecords { s with schedule := rest } t) : KeepsRecords s t :=
  ⟨h.build, h.unwrittenRead, h.busyHazardSeen⟩

theorem performStep_keepsRecords {s t : State} (h : performStep s = .next t) : KeepsRecords s t := by
  obtain ⟨-, rfl⟩ | ⟨-, hf⟩ := performStep_frame h
  · exact ⟨rfl, id, id⟩
  · exact ⟨hf.build, hf.unwrittenRead, hf.busyHazardSeen.trans⟩

theorem hostStep_keepsRecords {s t : State} (h : hostStep s = .next t) : KeepsRecords s t := by
  obtain ⟨-, rfl⟩ | ⟨off, width, reg, -, -, rfl⟩ | ⟨off, width, v, reg, -, -, rfl⟩ | ⟨-, rfl⟩ := hostStep_next h
  · exact ⟨rfl, id, id⟩
  · constructor <;> simp +contextual
  · constructor <;> simp +contextual
  · split
    · exact ⟨rfl, id, id⟩
    · constructor <;> simp

theorem resetStep_keepsRecords (edits : List StoreEdit) (s : State) : KeepsRecords s (resetStep edits s) := by
  constructor <;> simp [resetStep]

theorem step_keepsRecords {s t : State} (h : step s = .next t) : KeepsRecords s t := by
  obtain ⟨rest, -, hs | hs | ⟨edits, -, hs⟩⟩ := step_cases s <;> rw [hs] at h
  · exact (performStep_keepsRecords h).of_schedule
  · exact (hostStep_keepsRecords h).of_schedule
  · cases h
    exact (resetStep_keepsRecords edits _).of_schedule

/-! ## STATUS.ERR -/

/-- The host's next access is a CTRL write with bit 31 set, and it is done from `s` to `t` (44_system.md R246). -/
def ClearsErr (s t : State) : Prop :=
  ∃ v, s.program[s.hostPos]? = some (.write 0x000 .w32 v) ∧ v.getLsbD 31 = true ∧ t.hostPos = s.hostPos + 1

/-- A perform step leaves STATUS.ERR, or puts a code where there was none and empties PEND (60_exceptions.md R265;
44_system.md R242). -/
theorem performStep_err {s t : State} (h : performStep s = .next t) :
    t.err = s.err ∨ s.err = .none ∧ s.pend.isSome = true ∧ t.pend = none := by
  obtain ⟨-, rfl⟩ | ⟨hsome, hf⟩ := performStep_frame h
  · exact .inl rfl
  · exact (ne_or_eq s.err .none).imp hf.err fun hs => ⟨hs, hsome, hf.pend⟩

/-- A host step leaves STATUS.ERR, or clears it by a CTRL write with bit 31 set (44_system.md R246). -/
theorem hostStep_err {s t : State} (h : hostStep s = .next t) :
    t.err = s.err ∨ t.err = .none ∧ ClearsErr s t := by
  obtain ⟨-, rfl⟩ | ⟨off, width, reg, -, -, rfl⟩ | ⟨off, width, v, reg, hp, hr, rfl⟩ | ⟨-, rfl⟩ := hostStep_next h
  · exact .inl rfl
  · exact .inl rfl
  · by_cases hc : reg = .ctrl ∧ v.getLsbD 31 = true
    · obtain ⟨rfl, hv⟩ := hc
      obtain ⟨ha, -, hoff⟩ := accessReg_ok hr
      obtain rfl := off_of_regAt_ctrl hoff
      obtain rfl := width_of_admitted ha
      exact .inr ⟨by simp [hv], v, hp, hv, by simp⟩
    · exact .inl ((writeReg_err v (s.noteHazard false) reg).trans (if_neg hc))
  · exact .inl (by split <;> simp)

/-- A step leaves STATUS.ERR, clears it by a reset or the host's CTRL write, or puts a code where there was none at a perform
step (60_exceptions.md R265). -/
theorem step_err_cases {s t : State} (h : step s = .next t) :
    t.err = s.err ∨
      (t.err = .none ∧ ((∃ edits rest, s.schedule = .reset edits :: rest) ∨ ClearsErr s t)) ∨
      (s.err = .none ∧ s.pend.isSome = true ∧ t.pend = none) := by
  obtain ⟨rest, -, hs | hs | ⟨edits, hsch, hs⟩⟩ := step_cases s <;> rw [hs] at h
  · exact (performStep_err h).imp_right .inr
  · exact (hostStep_err h).imp_right fun ⟨hn, hc⟩ => .inl ⟨hn, .inr hc⟩
  · cases h
    exact .inr (.inl ⟨rfl, .inl ⟨edits, rest, hsch⟩⟩)

/-- Settles O53: each agent's step keeps the build and the records, and a step changes STATUS.ERR in the ways of
`step_err_cases` only. -/
theorem buildIsConstantAndFaultsStayRecorded : Obligations.BuildIsConstantAndFaultsStayRecorded := by
  intro s t h
  obtain ⟨hbuild, hunwritten, hhazard⟩ := step_keepsRecords h
  refine ⟨hbuild, hunwritten, hhazard, fun hs hne => ?_, fun hs hne => ?_⟩
  · obtain heq | hclear | ⟨hnone, -⟩ := step_err_cases h
    · exact absurd heq hne
    · exact hclear
    · exact absurd hnone hs
  · obtain heq | ⟨hnone, -⟩ | ⟨-, hpend⟩ := step_err_cases h
    · exact absurd (heq.trans hs) hne
    · exact absurd hnone hne
    · exact hpend

end Sys2Proof.Machine
end

section
/-! The invariant and the table state: what a step can do to the state planes, TAB, TNR, TBL, CST and the store
(10_state.md R32, R39 to R42; 43_lut.md R200). -/

namespace Sys2Proof.Machine

/-- Only the `LOGW = 0` build has a table (60_exceptions.md R262). -/
theorem State.hasLut_iff {s : State} : s.hasLut = true ↔ s.build.logw = 0 := by
  rw [State.hasLut, beq_iff_eq, Fin.ext_iff]
  rfl

/-! ## What leaves the table and the store alone -/

/-- From `s` to `t` the number of state planes, the table in memory with its status, and the store are as they were. -/
structure TableFrame (s t : State) : Prop where
  build : t.build = s.build
  planes : t.planes.length = s.planes.length
  tab : t.tab = s.tab
  cst : t.cst = s.cst
  tnr : t.tnr = s.tnr
  tbl : t.tbl = s.tbl
  store : t.store = s.store

theorem TableFrame.refl (s : State) : TableFrame s s := ⟨rfl, rfl, rfl, rfl, rfl, rfl, rfl⟩

theorem TableFrame.trans {s t u : State} (hst : TableFrame s t) (htu : TableFrame t u) : TableFrame s u :=
  ⟨htu.build.trans hst.build, htu.planes.trans hst.planes, htu.tab.trans hst.tab, htu.cst.trans hst.cst,
    htu.tnr.trans hst.tnr, htu.tbl.trans hst.tbl, htu.store.trans hst.store⟩

theorem raiseError_tableFrame (code : ErrCode) (s : State) : TableFrame s (raiseError code s) := by
  constructor <;> simp

theorem stepOp_tableFrame {f : List Plane → List Plane} (hf : ∀ v, (f v).length = v.length) (s : State) :
    TableFrame s (stepOp f s) := by
  constructor <;> simp [stepOp, hf]

theorem noteReads_tableFrame (s : State) (regs : List PlaneReg) : TableFrame s (s.noteReads regs) := by
  constructor <;> simp

theorem writePlane_tableFrame (s : State) (z : Nat) (p : Plane) : TableFrame s (s.writePlane z p) := by
  constructor <;> simp

/-- A command leaves the table and the store alone, or is a CONSTRUCT or a SAVE that raises no error
(20_memory.md R71, R95). -/
theorem exec_table_cases {i : Instr} {s t : State} (h : exec i s = .next t) :
    TableFrame s t ∨
      (i = .construct ∧ s.hasLut = true ∧ s.tab = false ∧ t = constructTable s.nr s) ∨
      (i = .save ∧ s.hasLut = true ∧ s.tab = true ∧ t = saveTable s) := by
  cases effect_of_exec h with
  | nop => exact .inl (TableFrame.refl s)
  | error _ code => exact .inl (raiseError_tableFrame code s)
  | planeOp1 _ f => exact .inl ⟨rfl, rfl, rfl, rfl, rfl, rfl, rfl⟩
  | planeOp2 _ f => exact .inl ⟨rfl, rfl, rfl, rfl, rfl, rfl, rfl⟩
  | stepOp _ f _ hf => exact .inl (stepOp_tableFrame hf s)
  | chic => exact .inl ((noteReads_tableFrame s _).trans (stepOp_tableFrame (fun v => length_chic v _ _) _))
  | construct _ hlut htab => exact .inr (.inl ⟨rfl, hlut, htab, rfl⟩)
  | eval => exact .inl ((noteReads_tableFrame s _).trans (writePlane_tableFrame _ _ _))
  | save _ hlut htab => exact .inr (.inr ⟨rfl, hlut, htab, rfl⟩)

theorem writeReg_tableFrame (v : Word) (s : State) (reg : WindowReg) : TableFrame s (writeReg v s reg) := by
  cases reg with
  | s z => exact writePlane_tableFrame s z _
  | _ => exact ⟨rfl, rfl, rfl, rfl, rfl, rfl, rfl⟩

/-- No host access reaches the table or the store (44_system.md R241). -/
theorem hostStep_tableFrame {s t : State} (h : hostStep s = .next t) : TableFrame s t := by
  obtain ⟨-, rfl⟩ | ⟨off, width, reg, -, -, rfl⟩ | ⟨off, width, v, reg, -, -, rfl⟩ | ⟨-, rfl⟩ := hostStep_next h
  · exact TableFrame.refl _
  · constructor <;> simp
  · have hn : TableFrame s (s.noteHazard false) := by constructor <;> simp
    have ha : ∀ u : State, TableFrame u u.advanceHost := fun u => by constructor <;> simp
    exact (hn.trans (writeReg_tableFrame v _ reg)).trans (ha _)
  · split
    · exact TableFrame.refl s
    · constructor <;> simp

/-! ## The steps that reach the table or the store -/

/-- In `s` a word that stands for `i` is pending, and `u` is a state with the same table and store. -/
structure Performs (s : State) (i : Instr) (u : State) : Prop where
  pending : ∃ w, s.pend = some w ∧ decode w = .ok i
  tableFrame : TableFrame s u

/-- A step leaves the table and the store alone, or performs a CONSTRUCT or a SAVE that raises no error, or is a reset. -/
theorem step_table_cases {s t : State} (h : step s = .next t) :
    TableFrame s t ∨
      (∃ u, Performs s .construct u ∧ u.hasLut = true ∧ u.tab = false ∧ t = constructTable u.nr u) ∨
      (∃ u, Performs s .save u ∧ u.hasLut = true ∧ u.tab = true ∧ t = saveTable u) ∨
      (∃ edits rest, s.schedule = .reset edits :: rest ∧ t = resetStep edits { s with schedule := rest }) := by
  obtain ⟨rest, -, hs | hs | ⟨edits, hsch, hs⟩⟩ := step_cases s <;> rw [hs] at h
  · have hu : TableFrame s { s with schedule := rest, pend := none } := ⟨rfl, rfl, rfl, rfl, rfl, rfl, rfl⟩
    obtain ⟨-, hp⟩ | ⟨w, i, hw, hd, hp⟩ | ⟨w, e, -, -, hp⟩ := performStep_cases { s with schedule := rest } <;>
      rw [hp] at h
    · obtain rfl := Host.Outcome.next.inj h
      exact .inl ⟨rfl, rfl, rfl, rfl, rfl, rfl, rfl⟩
    · obtain hf | ⟨rfl, hlut, htab, rfl⟩ | ⟨rfl, hlut, htab, rfl⟩ := exec_table_cases h
      · exact .inl (hu.trans hf)
      · exact .inr (.inl ⟨_, ⟨⟨w, hw, hd⟩, hu⟩, hlut, htab, rfl⟩)
      · exact .inr (.inr (.inl ⟨_, ⟨⟨w, hw, hd⟩, hu⟩, hlut, htab, rfl⟩))
    · obtain rfl := Host.Outcome.next.inj h
      exact .inl (hu.trans (raiseError_tableFrame _ _))
  · have hu : TableFrame s { s with schedule := rest } := ⟨rfl, rfl, rfl, rfl, rfl, rfl, rfl⟩
    exact .inl (hu.trans (hostStep_tableFrame h))
  · exact .inr (.inr (.inr ⟨edits, rest, hsch, (Host.Outcome.next.inj h).symm⟩))

/-! ## The table after a command -/

@[simp] theorem constructTable_build (nr : BitVec 8) (s : State) : (constructTable nr s).build = s.build :=
  (constructTable_frame nr s).build

@[simp] theorem constructTable_planes (nr : BitVec 8) (s : State) : (constructTable nr s).planes = s.planes := by
  obtain ⟨tbl, -, hc⟩ | ⟨-, hc⟩ | ⟨-, hc⟩ := constructTable_cases nr s <;> simp [hc]

@[simp] theorem constructTable_tab (nr : BitVec 8) (s : State) : (constructTable nr s).tab = true := by
  obtain ⟨tbl, -, hc⟩ | ⟨-, hc⟩ | ⟨-, hc⟩ := constructTable_cases nr s <;> simp [hc]

@[simp] theorem saveTable_tab (s : State) : (saveTable s).tab = s.tab := by simp [saveTable]

/-- A CONSTRUCT without an error gives a CST other than NONE (10_state.md R39). -/
theorem constructTable_cst_ne_none (nr : BitVec 8) (s : State) : (constructTable nr s).cst ≠ .none := by
  obtain ⟨tbl, -, hc⟩ | ⟨-, hc⟩ | ⟨-, hc⟩ := constructTable_cases nr s <;> rw [hc]
  · simp
  · simp
  · rw [State.tabulate_cst]; split <;> simp

theorem saveTable_cst_ne_none (s : State) : (saveTable s).cst ≠ .none := by
  rw [saveTable]; split <;> simp

/-- CONSTRUCT brings a canonical table into the memory: one that Validate accepted, or a generated one that lists nothing
(43_lut.md R205; log 5). -/
theorem constructTable_tblWf {s : State} (h : s.storeWf = true) (nr : BitVec 8) :
    (constructTable nr s).tblWf = true := by
  obtain ⟨tbl, hr, hc⟩ | ⟨-, hc⟩ | ⟨-, hc⟩ := constructTable_cases nr s <;> rw [hc]
  · obtain ⟨-, ha⟩ | ⟨img, tbl', hi, -, hv, hr'⟩ | ⟨-, -, -, hcor⟩ := s.retrieve_cases nr
    · exact absurd (hr.symm.trans ha) (by simp)
    · obtain rfl := Retrieval.valid.inj (hr.symm.trans hr')
      simpa [State.tblWf] using (validateImage_some (State.storedImage_wf h hi) hv).1
    · exact absurd (hr.symm.trans hcor) (by simp)
  · simp [State.tblWf]
  · simp [State.tblWf]

theorem constructTable_storeWf {s : State} (h : s.storeWf = true) (nr : BitVec 8) :
    (constructTable nr s).storeWf = true := by
  have hr : (s.afterRetrieve nr).storeWf = true := (State.storeWf_congr (by simp) (by simp)).trans h
  obtain ⟨tbl, -, hc⟩ | ⟨-, hc⟩ | ⟨-, hc⟩ := constructTable_cases nr s <;> rw [hc]
  · exact hr
  · exact hr
  · exact State.afterSave_wf hr nr (by simpa using encodeImage_wf s.build nr [])

theorem saveTable_storeWf {s : State} (h : s.storeWf = true) : (saveTable s).storeWf = true :=
  State.afterSave_wf h s.tnr (encodeImage_wf s.build s.tnr s.tbl)

/-! ## The store after a reset -/

/-- The save a pending command would make is of some table's image (43_lut.md R205, R215). -/
theorem State.pendingSave_image {s : State} {nr : BitVec 8} {img : Image} (h : s.pendingSave = some (nr, img)) :
    ∃ tbl, img = encodeImage s.build nr tbl := by
  unfold State.pendingSave at h
  split at h
  · cases h
  · split at h
    · split at h
      · cases h; exact ⟨s.tbl, rfl⟩
      · cases h
    · split at h
      · cases h; exact ⟨[], rfl⟩
      · cases h
    · cases h

theorem State.abandon_wf {s : State} (h : s.storeWf = true) : s.abandon.storeWf = true := by
  unfold State.abandon
  split
  · exact h
  · next nr img hp =>
    obtain ⟨tbl, rfl⟩ := State.pendingSave_image hp
    exact State.afterSave_wf h nr (encodeImage_wf s.build nr tbl)

theorem resetStep_storeWf {s : State} (h : s.storeWf = true) (edits : List StoreEdit) :
    (resetStep edits s).storeWf = true :=
  (State.storeWf_congr (s := s.abandon.editStore edits) rfl rfl).trans (State.editStore_wf (State.abandon_wf h) edits)

/-! ## The invariant -/

/-- The parts of the invariant `State.wf`, each by its name. -/
structure Invariant (s : State) : Prop where
  planes : HasPlanes s
  tbl : s.tblWf = true
  store : s.storeWf = true
  cst : s.tab = true ↔ s.cst ≠ .none
  untabulated : s.tab = false → s.tnr = 0 ∧ s.tbl = []
  narrow : s.tab = true → s.hasLut = true

theorem State.wf_iff {s : State} : s.wf = true ↔ Invariant s := by
  have hcst : (s.tab == (s.cst != .none)) = true ↔ (s.tab = true ↔ s.cst ≠ .none) := by
    cases s.tab <;> simp
  have huntab : (s.tab || (s.tnr == 0 && s.tbl.isEmpty)) = true ↔ (s.tab = false → s.tnr = 0 ∧ s.tbl = []) := by
    cases s.tab <;> simp
  have hnarrow : (s.hasLut || !s.tab) = true ↔ (s.tab = true → s.hasLut = true) := by
    cases s.tab <;> simp
  simp only [State.wf, Bool.and_eq_true, hcst, huntab, hnarrow, beq_iff_eq, and_assoc]
  constructor
  · rintro ⟨hplanes, htbl, hstore, hcst, huntab, hnarrow⟩
    exact ⟨hplanes, htbl, hstore, hcst, huntab, hnarrow⟩
  · rintro ⟨hplanes, htbl, hstore, hcst, huntab, hnarrow⟩
    exact ⟨hplanes, htbl, hstore, hcst, huntab, hnarrow⟩

/-- The invariant looks at what `TableFrame` keeps only. -/
theorem Invariant.of_tableFrame {s t : State} (h : Invariant s) (hf : TableFrame s t) : Invariant t where
  planes := by rw [HasPlanes, hf.planes, hf.build]; exact h.planes
  tbl := (State.tblWf_congr hf.build hf.tnr hf.tbl).trans h.tbl
  store := (State.storeWf_congr hf.build hf.store).trans h.store
  cst := by rw [hf.tab, hf.cst]; exact h.cst
  untabulated := by rw [hf.tab, hf.tnr, hf.tbl]; exact h.untabulated
  narrow := by rw [hf.tab, State.hasLut, hf.build]; exact h.narrow

theorem constructTable_invariant {s : State} (h : Invariant s) (hlut : s.hasLut = true) (nr : BitVec 8) :
    Invariant (constructTable nr s) where
  planes := by simpa [HasPlanes] using h.planes
  tbl := constructTable_tblWf h.store nr
  store := constructTable_storeWf h.store nr
  cst := by simp [constructTable_cst_ne_none]
  untabulated := by simp
  narrow := fun _ => by simpa [State.hasLut] using hlut

theorem saveTable_invariant {s : State} (h : Invariant s) (hlut : s.hasLut = true) (htab : s.tab = true) :
    Invariant (saveTable s) where
  planes := by simpa [HasPlanes, saveTable] using h.planes
  tbl := (State.tblWf_congr (by simp [saveTable]) (by simp [saveTable]) (by simp [saveTable])).trans h.tbl
  store := saveTable_storeWf h.store
  cst := by simp [saveTable_cst_ne_none, htab]
  untabulated := by simp [htab]
  narrow := fun _ => by simpa [State.hasLut, saveTable] using hlut

theorem resetStep_invariant {s : State} (h : s.storeWf = true) (edits : List StoreEdit) :
    Invariant (resetStep edits s) where
  planes := by simp [HasPlanes, resetStep]
  tbl := by simp [resetStep, State.tblWf]
  store := resetStep_storeWf h edits
  cst := by simp [resetStep]
  untabulated := by simp [resetStep]
  narrow := by simp [resetStep]

/-- Settles O57: a step that leaves the table and the store alone keeps the invariant, and so do a CONSTRUCT, a SAVE and a
reset. -/
theorem stepKeepsTheInvariant : Obligations.StepKeepsTheInvariant := by
  intro s t hs h
  rw [State.wf_iff] at hs ⊢
  obtain hf | ⟨u, hu, hlut, -, rfl⟩ | ⟨u, hu, hlut, htab, rfl⟩ | ⟨edits, rest, -, rfl⟩ := step_table_cases h
  · exact hs.of_tableFrame hf
  · exact constructTable_invariant (hs.of_tableFrame hu.tableFrame) hlut u.nr
  · exact saveTable_invariant (hs.of_tableFrame hu.tableFrame) hlut htab
  · exact resetStep_invariant (s := { s with schedule := rest }) hs.store edits

/-- Settles O52: of the steps that reach TAB, a reset clears it and a CONSTRUCT sets it. -/
theorem onlyResetUntabulates : Obligations.OnlyResetUntabulates := by
  intro s t h
  obtain hf | ⟨u, hu, hlut, -, rfl⟩ | ⟨u, hu, -, -, rfl⟩ | ⟨edits, rest, hsch, rfl⟩ := step_table_cases h
  · constructor <;> intro hs ht <;> rw [hf.tab, hs] at ht <;> cases ht
  · obtain ⟨w, hw, hd⟩ := hu.pending
    have hlogw : s.build.logw = 0 := hu.tableFrame.build ▸ State.hasLut_iff.1 hlut
    exact ⟨fun _ ht => absurd ht (by simp), fun _ _ => ⟨w, hw, hd, hlogw⟩⟩
  · constructor <;> intro hs ht <;> rw [saveTable_tab, hu.tableFrame.tab, hs] at ht <;> cases ht
  · exact ⟨fun _ _ => ⟨edits, rest, hsch⟩, fun _ ht => absurd ht (by simp [resetStep])⟩

end Sys2Proof.Machine
end

section
/-! What the commands do to `R` and to the record of unwritten reads, and that no command writes the operand planes
(10_state.md R34 to R36, R44; 40_plane.md section 1). -/

namespace Sys2Proof.Machine

/-! ## Plane commands -/

@[simp] theorem planeOp1_unwrittenRead (f : Plane → Plane) (s : State) :
    (planeOp1 f s).unwrittenRead = (s.unwrittenRead || !s.a.written) := by simp [planeOp1]

@[simp] theorem planeOp2_unwrittenRead (f : Plane → Plane → Plane) (s : State) :
    (planeOp2 f s).unwrittenRead = (s.unwrittenRead || !s.a.written || !s.b.written) := by
  simp [planeOp2, Bool.or_assoc]

/-- PAND, POR, PXOR, PNOT and PROT up to 4 have one of the two shapes of a plane command (40_plane.md R130). -/
theorem exec_planeCommand {i : Instr} (hi : i = .pand ∨ i = .por ∨ i = .pxor ∨ i = .pnot ∨ ∃ n, n ≤ 4 ∧ i = .prot n)
    (s : State) : (∃ f, exec i s = .next (planeOp2 f s)) ∨ ∃ f, exec i s = .next (planeOp1 f s) := by
  obtain rfl | rfl | rfl | rfl | ⟨n, hn, rfl⟩ := hi
  · exact .inl ⟨_, rfl⟩
  · exact .inl ⟨_, rfl⟩
  · exact .inl ⟨_, rfl⟩
  · exact .inr ⟨_, rfl⟩
  · exact .inr ⟨_, if_neg (Nat.not_lt.2 hn)⟩

/-- Settles O11: both shapes of a plane command write `R` and the record of unwritten reads only. -/
theorem planeCommandsChangeOnlyR : Obligations.PlaneCommandsChangeOnlyR := by
  intro i s t hi h
  obtain ⟨f, hf⟩ | ⟨f, hf⟩ := exec_planeCommand hi s <;> obtain rfl := Host.Outcome.next.inj (hf.symm.trans h)
  · exact ⟨rfl, rfl, fun _ => rfl, fun _ => rfl⟩
  · exact ⟨rfl, rfl, fun _ => rfl, fun _ => rfl⟩

/-- Settles O50: the operand planes, CTRL.NR and the build are part of the frame every command keeps. -/
theorem noCommandWritesTheOperandPlanes : Obligations.NoCommandWritesTheOperandPlanes :=
  fun _ _ _ h => ⟨(exec_frame h).a, (exec_frame h).b, (exec_frame h).nr, (exec_frame h).build⟩

/-! ## The record of unwritten reads -/

@[simp] theorem stepOp_unwrittenRead (f : List Plane → List Plane) (s : State) :
    (stepOp f s).unwrittenRead = (s.unwrittenRead || s.planes.any fun q => !q.written) := by simp [stepOp]

@[simp] theorem constructTable_unwrittenRead (nr : BitVec 8) (s : State) :
    (constructTable nr s).unwrittenRead = s.unwrittenRead := by
  obtain ⟨tbl, -, hc⟩ | ⟨-, hc⟩ | ⟨-, hc⟩ := constructTable_cases nr s <;> simp [hc]

@[simp] theorem saveTable_unwrittenRead (s : State) : (saveTable s).unwrittenRead = s.unwrittenRead := by
  simp [saveTable]

/-- The checks of a LUT command inverted: it raises an error because a check failed, or its effect is had
(60_exceptions.md R262, R264). -/
theorem lutChecks_next {s t u : State} {bad : Bool} {code : ErrCode}
    (h : (if !s.hasLut then .next (raiseError .noLut s) else if bad then .next (raiseError code s) else .next u :
      Host.Outcome State Fault Refusal) = .next t) :
    ((s.hasLut = false ∨ bad = true) ∧ ∃ code, t = raiseError code s) ∨ (s.hasLut = true ∧ bad = false ∧ t = u) := by
  cases hl : s.hasLut with
  | false => exact .inl ⟨.inl rfl, .noLut, by simpa [hl] using h.symm⟩
  | true =>
    cases bad with
    | true => exact .inl ⟨.inr rfl, code, by simpa [hl] using h.symm⟩
    | false => exact .inr ⟨rfl, rfl, by simpa [hl] using h.symm⟩

theorem exec_eval_of_tab {s : State} (hlut : s.hasLut = true) (htab : s.tab = true) :
    exec .eval s = .next ((s.noteReads [s.plane 0]).writePlane 0 (evaluate s (s.plane 0).value)) := by
  simp [exec, execEval, hlut, htab]

theorem exec_tread_of_tab {s : State} (hlut : s.hasLut = true) (htab : s.tab = true) :
    exec .tread s = .next (planeOp1 s.tblRead s) := by
  simp [exec, execTread, hlut, htab]

/-- Settles O54: each command has the record of its shape; CONSTRUCT and SAVE read no plane register, with or without an
error. -/
theorem unwrittenOperandReadsAreRecorded : Obligations.UnwrittenOperandReadsAreRecorded := by
  intro i s t h
  refine ⟨?_, ?_, ?_, ?_, fun hlogw htab => ⟨?_, ?_⟩, ?_⟩
  · rintro (rfl | rfl | rfl) <;> cases h <;> exact planeOp2_unwrittenRead _ s
  · rintro (rfl | ⟨n, hn, rfl⟩)
    · cases h
      exact planeOp1_unwrittenRead _ s
    · obtain rfl := Host.Outcome.next.inj ((if_neg (Nat.not_lt.2 hn)).symm.trans h)
      exact planeOp1_unwrittenRead _ s
  · rintro (rfl | rfl | rfl | rfl | ⟨k, rfl⟩ | ⟨k, rfl⟩ | rfl) <;> cases h <;> exact stepOp_unwrittenRead _ s
  · rintro rfl
    cases h
    simp [Bool.or_assoc]
  · rintro rfl
    cases (exec_eval_of_tab (State.hasLut_iff.2 hlogw) htab).symm.trans h
    simp
  · rintro rfl
    cases (exec_tread_of_tab (State.hasLut_iff.2 hlogw) htab).symm.trans h
    exact planeOp1_unwrittenRead _ s
  · rintro (rfl | rfl | rfl)
    · cases h
      rfl
    · obtain ⟨-, code, rfl⟩ | ⟨-, -, rfl⟩ := lutChecks_next h
      · exact raiseError_unwrittenRead code s
      · exact constructTable_unwrittenRead s.nr s
    · obtain ⟨-, code, rfl⟩ | ⟨-, -, rfl⟩ := lutChecks_next h
      · exact raiseError_unwrittenRead code s
      · exact saveTable_unwrittenRead s

end Sys2Proof.Machine
end

section
/-! What the host reads and writes in the register window: the fields of STATUS, the 25 bits of a plane register, and the
state after an admitted access (10_state.md R31, R38, R44; 20_memory.md R61). -/

namespace Sys2Proof.Machine

/-! ## The fields of STATUS (10_state.md R38) -/

theorem statusWord_tab (s : State) : (statusWord s).getLsbD 1 = s.tab := by
  simp only [statusWord, BitVec.getLsbD_append]
  simp

theorem statusWord_tmode (s : State) : (statusWord s).getLsbD 27 = (s.build.mode == .fullPermutation) := by
  simp only [statusWord, BitVec.getLsbD_append]
  cases s.build.mode <;> simp [tmodeBit]

theorem statusWord_reserved_low (s : State) : (statusWord s).extractLsb' 2 6 = 0#6 := by
  simp only [statusWord, BitVec.extractLsb'_append_eq_ite]
  simp

theorem statusWord_err (s : State) : (statusWord s).extractLsb' 8 4 = errBits s.err := by
  simp only [statusWord, BitVec.extractLsb'_append_eq_ite]
  simp

theorem statusWord_cst (s : State) : (statusWord s).extractLsb' 12 4 = cstBits s.cst := by
  simp only [statusWord, BitVec.extractLsb'_append_eq_ite]
  simp

theorem statusWord_tnr (s : State) : (statusWord s).extractLsb' 16 8 = s.tnr := by
  simp only [statusWord, BitVec.extractLsb'_append_eq_ite]
  simp

theorem statusWord_logw (s : State) : ((statusWord s).extractLsb' 24 3).toNat = s.build.logw.val := by
  have hlogw : s.build.logw.val < 8 := Nat.lt_succ_of_lt s.build.logw.isLt
  simp only [statusWord, BitVec.extractLsb'_append_eq_ite]
  simp [Nat.mod_eq_of_lt hlogw]

theorem statusWord_reserved_high (s : State) : (statusWord s).extractLsb' 28 4 = 0#4 := by
  simp only [statusWord, BitVec.extractLsb'_append_eq_ite]
  simp

/-- After reset BUSY, TAB, ERR, CST and TNR read 0. -/
theorem statusWord_resetOf_low (b : Build) : (statusWord (State.resetOf b)).extractLsb' 0 24 = 0#24 := by
  simp only [statusWord, BitVec.extractLsb'_append_eq_ite]
  simp [State.resetOf, errBits, cstBits]

/-! ## The bits of a plane register (10_state.md R31) -/

theorem planeWord_top (p : Plane) : (planeWord p).extractLsb' 25 7 = 0#7 := by
  simp only [planeWord, BitVec.extractLsb'_append_eq_ite]
  simp

/-- A word written to a plane register reads back its low 25 bits. -/
theorem planeWord_setWidth (v : Word) : planeWord (v.setWidth 25) = v &&& 0x01FFFFFF#32 :=
  (BitVec.and_setWidth_allOnes 7 25 v).symm

/-! ## Planes of the state -/

theorem State.plane_writePlane_same (s : State) {z : Nat} (hz : z < s.planes.length) (p : Plane) :
    (s.writePlane z p).plane z = PlaneReg.filled p := by
  simp [State.plane, hz]

theorem State.plane_writePlane_other (s : State) {z z' : Nat} (hne : z' ≠ z) (p : Plane) :
    (s.writePlane z p).plane z' = s.plane z' := by
  simp [State.plane, List.getElem?_set_ne hne.symm]

/-! ## Admitted accesses -/

theorem lanes_le (b : Build) : b.lanes ≤ 64 :=
  Nat.pow_le_pow_right (by decide) (Nat.le_of_lt_succ b.logw.isLt)

/-- The state plane `S[z]` is at offset `0x100 + 4z` (20_memory.md R61). -/
theorem regAt_plane {b : Build} {z : Nat} (hz : z < b.lanes) : regAt b (0x100 + 4 * z) = some (.s z) := by
  have hne : ∀ k < 0x100, 0x100 + 4 * z ≠ k := fun k hk => by omega
  simp [regAt, hne, hz]

theorem advanceHost_writeReg (v : Word) (s : State) (reg : WindowReg) :
    (writeReg v s reg).advanceHost = writeReg v s.advanceHost reg := by cases reg <;> rfl

/-- The state of the host's side after an access that is no STATUS read, in the statements' words. -/
theorem advanceHost_noteHazard (s : State) : (s.noteHazard false).advanceHost = afterAccess s := by
  simp [State.noteHazard, State.advanceHost, afterAccess]

/-- A host write of a register while no command is pending (44_system.md R241). -/
theorem hostWrite_of_regAt {s : State} {off : Nat} {reg : WindowReg} (hp : s.pend = none) (h4 : off % 4 = 0)
    (hw : off < 0x200) (hr : regAt s.build off = some reg) (v : Word) :
    hostWrite off .w32 v s = .next (writeReg v (afterAccess s) reg) := by
  rw [hostWrite, accessReg_of_regAt h4 hw (by simp [hp]) hr, ← advanceHost_noteHazard, ← advanceHost_writeReg]

/-- A host read of a register, which is one of STATUS while a command is pending (44_system.md R241;
70_reset_and_hazards.md R301). -/
theorem hostRead_of_regAt {s : State} {off : Nat} {reg : WindowReg} (h4 : off % 4 = 0) (hw : off < 0x200)
    (hq : s.pend.isSome = true → (off == regOffset .status) = true) (hr : regAt s.build off = some reg) :
    hostRead off .w32 s = .next ({ ((s.noteReads (readPlanes s reg)).noteHazard (reg == .status)).observe reg with
      results := regValue s reg :: s.results } : State).advanceHost := by
  rw [hostRead, accessReg_of_regAt h4 hw hq hr]

/-! ## The statements -/

/-- Settles O41: STATUS field by field, its value after reset, and the two accesses at its offset. -/
theorem statusReadsAsItsFields : Obligations.StatusReadsAsItsFields := by
  refine ⟨fun s => ?_, fun b => ?_, fun s v => ⟨rfl, fun hp => ?_, ?_⟩⟩
  · refine ⟨statusWord_busy s, statusWord_tab s, statusWord_reserved_low s, (statusWord_err s).trans ?_,
      (statusWord_cst s).trans ?_, statusWord_tnr s, statusWord_logw s, statusWord_tmode s, statusWord_reserved_high s⟩
    · cases s.err <;> rfl
    · cases s.cst <;> rfl
  · exact ⟨statusWord_resetOf_low b, statusWord_logw _, statusWord_tmode _, statusWord_reserved_high _⟩
  · exact hostWrite_of_regAt (reg := .status) hp (by decide) (by decide) rfl v
  · exact ⟨_, hostRead_of_regAt (reg := .status) (by decide) (by decide) (fun _ => rfl) rfl, rfl⟩

/-- A host write of `S[z]` sets that plane and leaves every other (10_state.md R31, R44). -/
theorem hostWrite_plane {s : State} (hp : s.pend = none) (hs : HasPlanes s) {z : Nat} (hz : z < s.build.lanes)
    (v : Word) :
    ∃ t, hostWrite (0x100 + 4 * z) .w32 v s = .next t ∧ t = { afterAccess s with planes := t.planes } ∧ HasPlanes t ∧
      t.plane z = PlaneReg.filled (v.setWidth 25) ∧ ∀ z', z' ≠ z → t.plane z' = s.plane z' := by
  have hlanes := lanes_le s.build
  refine ⟨_, hostWrite_of_regAt hp (by omega) (by omega) (regAt_plane hz) v, rfl, ?_, ?_, fun z' hz' => ?_⟩
  · simpa [HasPlanes, writeReg, afterAccess] using hs
  · exact (afterAccess s).plane_writePlane_same (hs ▸ hz) _
  · exact (afterAccess s).plane_writePlane_other hz' _

/-- Settles O42: the value a plane register keeps of a written word, and the accesses that write it. -/
theorem planeRegistersKeepTheLowBits : Obligations.PlaneRegistersKeepTheLowBits := by
  refine ⟨fun s v => ⟨planeWord_setWidth v, planeWord_setWidth v, fun z hz => ?_, fun reg hreg => ?_⟩, fun s v hp => ?_⟩
  · rw [regValue, writeReg, State.plane_writePlane_same s hz]
    exact planeWord_setWidth v
  · obtain rfl | rfl | rfl | ⟨z, rfl⟩ := hreg <;> exact planeWord_top _
  · rw [← BitVec.setWidth_eq_extractLsb' (x := v) (by decide : 25 ≤ 32)]
    exact ⟨hostWrite_of_regAt (reg := .a) hp (by decide) (by decide) rfl v,
      hostWrite_of_regAt (reg := .b) hp (by decide) (by decide) rfl v, fun hs z hz => hostWrite_plane hp hs hz v⟩

end Sys2Proof.Machine
end

section
/-! Images: the words of the format, that one changed byte breaks their XOR, and that the sparse encoder and validator are the
literal ones (20_memory.md R85 to R89; log 6). -/

namespace Sys2Proof.Machine

/-! ## The words of the format (20_memory.md R85) -/

/-- CHECK is the word after the last entry. -/
theorem checkIndex_eq : checkIndex = entryCount + 2 := rfl

/-- The words of an image are those up to CHECK. -/
theorem imageLength_eq : imageLength = 4 * (checkIndex + 1) := rfl

theorem encodeWord_zero (mode : TableMode) (nr : BitVec 8) (T : Nat → Plane) :
    encodeWord mode nr T 0 = countWord := rfl

theorem encodeWord_one (mode : TableMode) (nr : BitVec 8) (T : Nat → Plane) :
    encodeWord mode nr T 1 = descWord mode nr := rfl

theorem encodeWord_entry (mode : TableMode) (nr : BitVec 8) (T : Nat → Plane) {i : Nat} (hi : i < entryCount) :
    encodeWord mode nr T (i + 2) = (T i).setWidth 32 := by
  simp [encodeWord, checkIndex_eq, hi]

theorem encodeWord_check (mode : TableMode) (nr : BitVec 8) (T : Nat → Plane) :
    encodeWord mode nr T checkIndex =
      countWord ^^^ descWord mode nr ^^^ xorEntries (fun i => (T i).setWidth 32) entryCount := by
  simp [encodeWord, checkIndex_eq]

theorem genWord_zero (build : Build) (nr : BitVec 8) : genWord build nr 0 = countWord := rfl

theorem genWord_one (build : Build) (nr : BitVec 8) : genWord build nr 1 = descWord build.mode nr := rfl

/-- Each word of an image is COUNT, DESC, an entry or CHECK. -/
theorem imageWord_cases {k : Nat} (hk : k < checkIndex + 1) :
    k = 0 ∨ k = 1 ∨ (∃ i < entryCount, k = i + 2) ∨ k = checkIndex := by
  rw [checkIndex_eq] at hk ⊢
  rcases k with _ | _ | i
  · exact .inl rfl
  · exact .inr (.inl rfl)
  · obtain hi | hi : i < entryCount ∨ i = entryCount := by omega
    · exact .inr (.inr (.inl ⟨i, hi, rfl⟩))
    · exact .inr (.inr (.inr (by rw [hi])))

/-- DESC holds the mode in bit 8 and the round count in bits 7:0. -/
theorem descWord_eq_append (mode : TableMode) (nr : BitVec 8) :
    descWord mode nr = 0#23 ++ BitVec.ofBool (mode == .fullPermutation) ++ nr := by
  cases mode with
  | roundNoIota => exact BitVec.setWidth_eq_append (by decide)
  | fullPermutation =>
    rw [descWord, BitVec.setWidth_eq_append (by decide : 8 ≤ 32)]
    exact (BitVec.or_append (x₁ := 1#24) (x₂ := 0#24) (y₁ := 0#8) (y₂ := nr)).trans (by simp)

/-- A word is its bits 31:9, its bit 8 and its bits 7:0. -/
theorem word_eq_append (w : Word) : w = w.extractLsb' 9 23 ++ BitVec.ofBool (w.getLsbD 8) ++ w.extractLsb' 0 8 := by
  refine BitVec.eq_of_getLsbD_eq fun k hk => ?_
  simp only [BitVec.getLsbD_append, BitVec.getLsbD_extractLsb']
  interval_cases k <;> simp

/-- The third check of Validate says that the word is DESC (20_memory.md R87). -/
theorem descFields_iff {w : Word} {mode : TableMode} {nr : BitVec 8} :
    (w.extractLsb' 0 8 = nr ∧ w.getLsbD 8 = (mode == .fullPermutation) ∧ w.extractLsb' 9 23 = 0#23) ↔
      w = descWord mode nr := by
  rw [descWord_eq_append]
  constructor
  · rintro ⟨hnr, hmode, htop⟩
    rw [← hnr, ← hmode, ← htop, ← word_eq_append]
  · rintro rfl
    refine ⟨?_, ?_, ?_⟩
    · simp only [BitVec.extractLsb'_append_eq_ite]; simp
    · simp only [BitVec.getLsbD_append]; simp
    · simp only [BitVec.extractLsb'_append_eq_ite]; simp

/-- Two byte strings with the same words have the same bytes. -/
theorem byte_eq_of_wordAt_eq {f g : Nat → Byte} {o : Nat} (h : wordAt f (o / 4) = wordAt g (o / 4)) : f o = g o := by
  simpa only [Nat.div_add_mod] using wordAt_inj h (o % 4) (by omega)

/-- The checks of Validate hold of an encoded table (20_memory.md R88). -/
theorem validBytes_encodeByte (mode : TableMode) (nr : BitVec 8) (T : Nat → Plane) :
    validBytes mode nr imageLength (encodeByte mode nr T) := by
  have hE : xorEntries (fun i => encodeWord mode nr T (i + 2)) entryCount =
      xorEntries (fun i => (T i).setWidth 32) entryCount := xorEntries_congr fun i hi => encodeWord_entry mode nr T hi
  unfold validBytes
  simp only [descFields_iff, wordAt_encodeByte, encodeWord_zero, encodeWord_one, true_and]
  refine ⟨fun i hi => ?_, ?_⟩
  · rw [encodeWord_entry mode nr T hi]
    exact setWidth_top_zero _
  · rw [hE, encodeWord_check]

/-- Settles O34: the words of an encoded table pass the checks, and an entry's word has the entry in its low 25 bits. -/
theorem encodedTablesValidate : Obligations.EncodedTablesValidate := by
  refine fun mode nr T => ⟨validBytes_encodeByte mode nr T, fun i hi => ?_⟩
  rw [tableOfBytes, wordAt_encodeByte, encodeWord_entry mode nr T hi]
  simp

/-! ## The XOR of an image's words -/

theorem xorEntries_two_add (E : Nat → Word) (n : Nat) :
    xorEntries E (n + 2) = E 0 ^^^ E 1 ^^^ xorEntries (fun i => E (i + 2)) n := by
  induction n with
  | zero => simp [xorEntries]
  | succ n ih => rw [xorEntries, ih, xorEntries, BitVec.xor_assoc]

/-- The words of a valid image, CHECK included, XOR to 0 (20_memory.md R87 check 5). -/
theorem xorEntries_of_validBytes {mode : TableMode} {nr : BitVec 8} {len : Nat} {bytes : Nat → Byte}
    (h : validBytes mode nr len bytes) : xorEntries (wordAt bytes) (checkIndex + 1) = 0 := by
  obtain ⟨-, -, -, -, hcheck⟩ := h
  rw [xorEntries, hcheck, checkIndex_eq, xorEntries_two_add]
  exact BitVec.xor_self

/-- Two word strings with the same XOR that agree at all places but one agree there too. -/
theorem eq_of_xorEntries_eq {E F : Nat → Word} {n k : Nat} (hk : k < n) (hne : ∀ i < n, i ≠ k → E i = F i)
    (hx : xorEntries E n = xorEntries F n) : E k = F k := by
  have hD : [k].foldl (fun acc i => acc ^^^ (E i ^^^ F i)) 0 = xorEntries (fun i => E i ^^^ F i) n := by
    refine foldl_xor_listed n (List.pairwise_singleton _ k) (by simpa using hk) fun i hi hik => ?_
    rw [hne i hi (by simpa using hik), BitVec.xor_self]
    rfl
  rw [xorEntries_xor, hx, BitVec.xor_self] at hD
  exact BitVec.xor_eq_zero_iff.1 (by simpa using hD)

/-- Settles O35: a changed byte changes one word, and the XOR of the words would still have to be 0. -/
theorem oneChangedByteIsCorrupt : Obligations.OneChangedByteIsCorrupt := by
  refine fun mode nr T bytes len => ⟨fun hlen hv => hlen hv.1, fun o ho hdiff hsame hv => hdiff ?_⟩
  have hx := (xorEntries_of_validBytes hv).trans (xorEntries_of_validBytes (validBytes_encodeByte mode nr T)).symm
  rw [imageLength_eq] at ho hsame
  refine byte_eq_of_wordAt_eq (eq_of_xorEntries_eq (k := o / 4) (by omega) (fun i hi hio => ?_) hx)
  exact wordAt_congr fun j hj => hsame _ (by omega) (by omega)

/-- The XOR of a string of words is that of its changes from a string that XORs to 0. -/
theorem foldl_xor_changes {E G : Nat → Word} {l : List Nat} {n : Nat} (hl : l.Pairwise (· < ·)) (hn : ∀ i ∈ l, i < n)
    (hoff : ∀ i < n, i ∉ l → E i = G i) (hG : xorEntries G n = 0) :
    l.foldl (fun acc i => acc ^^^ (E i ^^^ G i)) 0 = xorEntries E n := by
  rw [foldl_xor_listed (D := fun i => E i ^^^ G i) n hl hn fun i hi hni => by rw [hoff i hi hni]; exact BitVec.xor_self,
    xorEntries_xor, hG]
  exact BitVec.xor_zero

theorem xorEntries_genWord (build : Build) (nr : BitVec 8) :
    xorEntries (fun i => genWord build nr (i + 2)) entryCount = 0 :=
  (xorEntries_congr fun _ hi => genWord_entry build nr hi).trans (xorEntries_genEntry build nr)

/-! ## The sparse encoder (20_memory.md R86; log 6) -/

/-- The entry words that the encoder writes over the image of the generated table. -/
def writeEntries (build : Build) (nr : BitVec 8) (tbl : List (Nat × Plane)) (img : Image) : Image :=
  tbl.foldl (fun img e => img.setWord build nr (e.1 + 2) (e.2.setWidth 32)) img

/-- The image of the generated table: it lists nothing (log 6). -/
def genImage : Image := { len := imageLength, cells := [] }

@[simp] theorem genImage_len : genImage.len = imageLength := rfl

theorem genImage_wf (build : Build) (nr : BitVec 8) : genImage.wf build nr = true :=
  Image.wf_unlisted build nr imageLength

@[simp] theorem word_genImage (build : Build) (nr : BitVec 8) (k : Nat) : genImage.word build nr k = genWord build nr k :=
  Image.word_of_unlisted build nr (by simp [genImage])

section
variable {build : Build} {nr : BitVec 8} {tbl : List (Nat × Plane)} {img : Image}

theorem writeEntries_cons (e : Nat × Plane) :
    writeEntries build nr (e :: tbl) img = writeEntries build nr tbl (img.setWord build nr (e.1 + 2) (e.2.setWidth 32)) :=
  rfl

@[simp] theorem writeEntries_len : (writeEntries build nr tbl img).len = img.len := by
  induction tbl generalizing img with
  | nil => rfl
  | cons e tbl ih => exact ih.trans (Image.setWord_len build nr img _ _)

theorem writeEntries_wf (hw : img.wf build nr = true) : (writeEntries build nr tbl img).wf build nr = true := by
  induction tbl generalizing img with
  | nil => exact hw
  | cons e tbl ih => exact ih (Image.setWord_wf hw _ _)

/-- A word that no listed entry stands at is as it was. -/
theorem word_writeEntries_unlisted (hw : img.wf build nr = true) (hl : img.len = imageLength)
    (ht : ∀ e ∈ tbl, e.1 < entryCount) {k : Nat} (hk : ∀ e ∈ tbl, e.1 + 2 ≠ k) :
    (writeEntries build nr tbl img).word build nr k = img.word build nr k := by
  induction tbl generalizing img with
  | nil => rfl
  | cons e tbl ih =>
    obtain ⟨he, ht'⟩ := List.forall_mem_cons.1 ht
    obtain ⟨hek, hk'⟩ := List.forall_mem_cons.1 hk
    have hin : 4 * (e.1 + 2) + 4 ≤ img.len := by rw [hl, imageLength_eq, checkIndex_eq]; omega
    rw [writeEntries_cons, ih (Image.setWord_wf hw _ _) (by rw [Image.setWord_len, hl]) ht' hk',
      Image.word_setWord hw hin, if_neg hek.symm]

/-- The word of a listed entry is the entry. -/
theorem word_writeEntries_listed (hw : img.wf build nr = true) (hl : img.len = imageLength)
    (ht : ∀ e ∈ tbl, e.1 < entryCount) (hr : Memory.rising tbl = true) {e : Nat × Plane} (hmem : e ∈ tbl) :
    (writeEntries build nr tbl img).word build nr (e.1 + 2) = e.2.setWidth 32 := by
  induction tbl generalizing img with
  | nil => cases hmem
  | cons c tbl ih =>
    obtain ⟨hc, ht'⟩ := List.forall_mem_cons.1 ht
    obtain ⟨habove, hr'⟩ := Memory.rising_cons.1 hr
    have hin : 4 * (c.1 + 2) + 4 ≤ img.len := by rw [hl, imageLength_eq, checkIndex_eq]; omega
    have hw' := Image.setWord_wf hw (c.1 + 2) (c.2.setWidth 32)
    have hl' : (img.setWord build nr (c.1 + 2) (c.2.setWidth 32)).len = imageLength := by rw [Image.setWord_len, hl]
    rw [writeEntries_cons]
    obtain rfl | hmem := List.mem_cons.1 hmem
    · have hne : ∀ d ∈ tbl, d.1 + 2 ≠ e.1 + 2 := fun d hd => by have := habove d hd; omega
      rw [word_writeEntries_unlisted hw' hl' ht' hne, Image.word_setWord hw hin, if_pos rfl]
    · exact ih hw' hl' ht' hr' hmem

end

/-- The XOR of the listed differences is the XOR of the whole table, since the generated table's entries XOR to 0. -/
theorem tableChange_eq {build : Build} {nr : BitVec 8} {tbl : List (Nat × Plane)}
    (ht : Memory.wf (tblFill build nr) entryCount tbl = true) :
    tbl.foldl (fun acc e => acc ^^^ (e.2 ^^^ genEntry build nr (BitVec.ofNat 25 e.1)).setWidth 32) (0 : Word) =
      xorEntries (fun i => (Memory.read (tblFill build nr) tbl i).setWidth 32) entryCount := by
  obtain ⟨hr, hwf⟩ := (Memory.wf_iff _).1 ht
  have hbound : ∀ i ∈ tbl.map Prod.fst, i < entryCount := fun i hi => by
    obtain ⟨e, he, rfl⟩ := List.mem_map.1 hi
    exact (hwf e he).1
  rw [← foldl_xor_changes (Memory.rising_iff_pairwise.1 hr) hbound (fun i hi hni => ?_) (xorEntries_genWord build nr),
    List.foldl_map]
  · refine List.foldl_ext _ _ _ fun acc e he => ?_
    rw [Memory.read_of_mem _ hr he, genWord_entry build nr (hwf e he).1, BitVec.setWidth_xor]
  · have hne : ∀ e ∈ tbl, e.1 ≠ i := fun e he hei => hni (hei ▸ List.mem_map_of_mem he)
    rw [Memory.read_of_not_mem _ hne, genWord_entry build nr hi, tblFill]

/-- The encoder writes the listed entries over the generated table's image, then CHECK. -/
theorem encodeImage_eq {build : Build} {nr : BitVec 8} {tbl : List (Nat × Plane)}
    (ht : Memory.wf (tblFill build nr) entryCount tbl = true) :
    encodeImage build nr tbl =
      (writeEntries build nr tbl genImage).setWord build nr checkIndex
        (encodeWord build.mode nr (Memory.read (tblFill build nr) tbl) checkIndex) := by
  rw [encodeWord_check, ← tableChange_eq ht]
  rfl

theorem word_encodeImage {build : Build} {nr : BitVec 8} {tbl : List (Nat × Plane)}
    (ht : Memory.wf (tblFill build nr) entryCount tbl = true) {k : Nat} (hk : k < checkIndex + 1) :
    (encodeImage build nr tbl).word build nr k = encodeWord build.mode nr (Memory.read (tblFill build nr) tbl) k := by
  obtain ⟨hr, hwf⟩ := (Memory.wf_iff _).1 ht
  have hbound : ∀ e ∈ tbl, e.1 < entryCount := fun e he => (hwf e he).1
  have hw := genImage_wf build nr
  have hin : 4 * checkIndex + 4 ≤ (writeEntries build nr tbl genImage).len := by
    rw [writeEntries_len, genImage_len, imageLength_eq]; omega
  have hgen : ∀ j, (∀ e ∈ tbl, e.1 + 2 ≠ j) →
      (writeEntries build nr tbl genImage).word build nr j = genWord build nr j := fun j hj =>
    (word_writeEntries_unlisted hw rfl hbound hj).trans (word_genImage build nr j)
  rw [encodeImage_eq ht, Image.word_setWord (writeEntries_wf hw) hin]
  obtain rfl | rfl | ⟨i, hi, rfl⟩ | rfl := imageWord_cases hk
  · rw [if_neg (by decide), hgen 0 (by simp), genWord_zero, encodeWord_zero]
  · rw [if_neg (by decide), hgen 1 (by simp), genWord_one, encodeWord_one]
  · rw [if_neg (by rw [checkIndex_eq]; omega), encodeWord_entry _ _ _ hi]
    by_cases hlisted : ∃ e ∈ tbl, e.1 = i
    · obtain ⟨e, he, rfl⟩ := hlisted
      rw [word_writeEntries_listed hw rfl hbound hr he, Memory.read_of_mem _ hr he]
    · have hne : ∀ e ∈ tbl, e.1 ≠ i := fun e he hei => hlisted ⟨e, he, hei⟩
      rw [hgen _ fun e he => by have := hne e he; omega, Memory.read_of_not_mem _ hne, genWord_entry build nr hi, tblFill]
  · rw [if_pos rfl]

/-- Settles O36: word by word the sparse image is the format's. -/
theorem sparseEncoderWritesTheFormat : Obligations.SparseEncoderWritesTheFormat := by
  refine fun build nr tbl ht => ⟨encodeImage_len build nr tbl, encodeImage_wf build nr tbl, fun o ho => ?_⟩
  rw [imageLength_eq] at ho
  refine byte_eq_of_wordAt_eq ?_
  rw [wordAt_encodeByte]
  exact word_encodeImage ht (by omega)

/-! ## The sparse validator (20_memory.md R87; log 6) -/

section
variable {build : Build} {nr : BitVec 8} {img : Image}

/-- The unlisted entries are the generated table's, whose words have bits 31:25 zero. -/
theorem listedEntries_top_zero_iff :
    (img.listedEntries.all fun i => (img.word build nr (i + 2)).extractLsb' 25 7 == 0#7) = true ↔
      ∀ i < entryCount, (img.word build nr (i + 2)).extractLsb' 25 7 = 0#7 := by
  simp only [List.all_eq_true, beq_iff_eq]
  constructor
  · intro h i hi
    by_cases hl : i ∈ img.listedEntries
    · exact h i hl
    · rw [Image.entry_of_unlisted build nr hi hl, genWord_entry build nr hi]
      exact setWidth_top_zero _
  · exact fun h i hl => h i (Image.mem_listedEntries.1 hl).1

/-- The XOR of the listed words' differences from the generated table's is the XOR of all entry words. -/
theorem imageChange_eq (hw : img.wf build nr = true) :
    img.listedEntries.foldl (fun acc i => acc ^^^ (img.word build nr (i + 2) ^^^ genWord build nr (i + 2))) (0 : Word) =
      xorEntries (fun i => img.word build nr (i + 2)) entryCount :=
  foldl_xor_changes (Image.listedEntries_pairwise ((Memory.wf_iff _).1 hw).1)
    (fun _ hi => (Image.mem_listedEntries.1 hi).1) (fun _ hi => Image.entry_of_unlisted build nr hi)
    (xorEntries_genWord build nr)

theorem validateImage_isSome_iff (hw : img.wf build nr = true) :
    (validateImage build nr img).isSome = true ↔ validBytes build.mode nr img.len (img.byte build nr) := by
  simp only [validateImage, listedEntries_top_zero_iff, imageChange_eq hw, validBytes, descFields_iff, Option.isSome_ite]
  rfl

end

/-- Settles O37: the checks on the listed entries are those on all of them. -/
theorem sparseValidatorIsTheFiveChecks : Obligations.SparseValidatorIsTheFiveChecks := by
  refine fun build nr img hw => ⟨?_, fun tbl h => (validateImage_some hw h).2⟩
  rw [← validateImage_isSome_iff hw, Bool.not_eq_true, Option.isSome_eq_false_iff, Option.isNone_iff_eq_none]

end Sys2Proof.Machine
end

section
/-! The register window, register by register, and what a host access is or does: its fault, or the state after it
(20_memory.md R61 to R65; 44_system.md R241, R243). -/

namespace Sys2Proof.Machine

/-! ## The register map (20_memory.md R61) -/

/-- The reserved offsets of the window: between the registers and the state planes, and past the last state plane. -/
theorem regAt_eq_none_iff {b : Build} {off : Nat} (hw : off < 0x200) (h4 : off % 4 = 0) :
    regAt b off = none ↔ (0x018 ≤ off ∧ off < 0x100) ∨ ∃ z, b.lanes ≤ z ∧ z < 64 ∧ off = 0x100 + 4 * z := by
  have hplace : (∃ z, b.lanes ≤ z ∧ z < 64 ∧ off = 0x100 + 4 * z) ↔ 0x100 ≤ off ∧ b.lanes ≤ (off - 0x100) / 4 := by
    constructor
    · rintro ⟨z, hz, -, rfl⟩
      omega
    · exact fun h => ⟨(off - 0x100) / 4, h.2, by omega, by omega⟩
  rw [hplace]
  unfold regAt
  split_ifs <;> simp only [false_iff, true_iff] <;> omega

/-- A register found at an aligned offset is the one whose offset it is. -/
theorem regOffset_of_regAt {b : Build} {off : Nat} (h4 : off % 4 = 0) {reg : WindowReg} (h : regAt b off = some reg) :
    regOffset reg = off := by
  unfold regAt at h
  split_ifs at h <;> cases h <;> simp only [regOffset] <;> omega

/-! ## Accesses that fault (20_memory.md R63, R64) -/

/-- A read that is a fault answers it. -/
theorem hostRead_of_fault {s : State} {off : Nat} {width : Width} {f : Fault}
    (h : accessReg s off width (off == regOffset .status) = .error f) : hostRead off width s = .fault f := by
  rw [hostRead, h]

/-- A write that is a fault answers it. -/
theorem hostWrite_of_fault {s : State} {off : Nat} {width : Width} {f : Fault}
    (h : accessReg s off width false = .error f) (v : Word) : hostWrite off width v s = .fault f := by
  rw [hostWrite, h]

theorem accessReg_of_not_admitted {s : State} {off : Nat} {width : Width} (h : admitted off width = false)
    (quiet : Bool) : accessReg s off width quiet = .error .unadmittedAccess := by
  simp [accessReg, h]

theorem accessReg_of_reserved {s : State} {off : Nat} (hp : s.pend = none) (hw : off < 0x200) (h4 : off % 4 = 0)
    (hr : regAt s.build off = none) (quiet : Bool) : accessReg s off .w32 quiet = .error .reservedAccess := by
  have ha : admitted off .w32 = true := by simp [admitted, h4, hw]
  simp [accessReg, ha, hp, hr]

/-- Settles O44: an access of another width or alignment is not admitted, which is checked first. -/
theorem unadmittedAccessesFault : Obligations.UnadmittedAccessesFault := by
  intro s off width v h
  have ha : admitted off width = false := by
    obtain h | h := h <;> simp [admitted, h]
  have hf := accessReg_of_not_admitted (s := s) ha
  exact ⟨hostRead_of_fault (hf _), hostWrite_of_fault (hf _) v⟩

/-- Settles O45: no register is at a reserved offset. -/
theorem reservedOffsetsFault : Obligations.ReservedOffsetsFault := by
  intro s off v hp hw h4 hres
  have hr : regAt s.build off = none := (regAt_eq_none_iff hw h4).2 hres
  have hf := accessReg_of_reserved hp hw h4 hr
  exact ⟨hostRead_of_fault (hf _), hostWrite_of_fault (hf _) v⟩

/-! ## CTRL, CMD and R (10_state.md R35 to R37) -/

theorem ctrlWord_setWidth (s : State) : ctrlWord s = s.nr.setWidth 32 :=
  (BitVec.setWidth_eq_append (by decide)).symm

/-- A word written to CTRL reads back its low 8 bits. -/
theorem ctrlWord_writeCtrl (v : Word) (s : State) : ctrlWord (writeCtrl v s) = v &&& 0x000000FF#32 :=
  (BitVec.and_setWidth_allOnes 24 8 v).symm

/-- Settles O43: the register at each offset, the offsets that are reserved, and the accesses to CTRL, CMD and R. -/
theorem registerMapOfTheWindow : Obligations.RegisterMapOfTheWindow := by
  refine ⟨fun b => ⟨rfl, rfl, rfl, rfl, rfl, rfl, fun z hz => regAt_plane hz, fun off hw h4 => regAt_eq_none_iff hw h4⟩,
    fun s v => ⟨rfl, fun hp => ?_, rfl, ctrlWord_setWidth s, ctrlWord_writeCtrl v s⟩⟩
  exact hostWrite_of_regAt (reg := .r) hp (by decide) (by decide) rfl v

/-! ## Reads and WAIT (20_memory.md R65; 44_system.md R243) -/

/-- The state after a read of a register: the host has its value and goes on, an unwritten plane and an access in the busy
window are recorded, and a STATUS read of BUSY = 0 closes that window (10_state.md R44; 70_reset_and_hazards.md R300). -/
def afterRead (s : State) (reg : WindowReg) : State :=
  { s with
    results := regValue s reg :: s.results
    hostPos := s.hostPos + 1
    busyWindow := if reg = .status ∧ s.pend = none then false else s.busyWindow
    busyHazardSeen := s.busyHazardSeen || (s.busyWindow && reg != .status)
    unwrittenRead := s.unwrittenRead || (readPlanes s reg).any fun q => !q.written }

theorem advanceHost_read (s : State) (reg : WindowReg) :
    ({ ((s.noteReads (readPlanes s reg)).noteHazard (reg == .status)).observe reg with
      results := regValue s reg :: s.results } : State).advanceHost = afterRead s reg := by
  simp only [State.advanceHost, State.observe, State.noteHazard, State.noteReads, afterRead, bne]
  rfl

/-- A read that answers a next state reached a register (44_system.md R241). -/
theorem hostRead_next {s t : State} {off : Nat} {width : Width} (h : hostRead off width s = .next t) :
    ∃ reg, regAt s.build off = some reg ∧ t = afterRead s reg := by
  unfold hostRead at h
  split at h
  · cases h
  · next reg hacc =>
    obtain ⟨-, -, hr⟩ := accessReg_ok hacc
    exact ⟨reg, hr, (Host.Outcome.next.inj h).symm.trans (advanceHost_read s reg)⟩

theorem hostStep_of_wait {s : State} (h : s.program[s.hostPos]? = some .wait) :
    hostStep s = .next (if s.pend.isSome then s else (s.observe .status).advanceHost) := by
  rw [hostStep, h, ← statusWord_busy]
  rfl

/-- Settles O49: a read that completes gives the state of its register's read, it completes where a register is found, and
WAIT looks at BUSY. -/
theorem hostReadsHaveNoSideEffect : Obligations.HostReadsHaveNoSideEffect := by
  refine ⟨fun s t off width h => ?_, fun s off reg hw h4 hr hadm => ?_, fun s => ?_, fun s hwait => ?_⟩
  · exact hostRead_next h
  · have hquiet : s.pend.isSome = true → (off == regOffset .status) = true := fun hp => by
      obtain hnone | rfl := hadm
      · simp [hnone] at hp
      · exact beq_iff_eq.2 (regOffset_of_regAt h4 hr).symm
    rw [hostRead_of_regAt h4 hw hquiet hr, advanceHost_read]
    rfl
  · refine ⟨rfl, rfl, rfl, fun z => rfl, fun reg hreg => ?_⟩
    obtain rfl | rfl | rfl := hreg <;> rfl
  · rw [hostStep_of_wait hwait, regValue, statusWord_busy]
    refine ⟨fun hbusy => by rw [if_pos hbusy], fun hidle => ?_⟩
    have hp : s.pend = none := by simpa using hidle
    simp [hp, State.observe, State.advanceHost]

end Sys2Proof.Machine
end

section
/-! Which commands write the table memory and the store (20_memory.md R71, R95). -/

namespace Sys2Proof.Machine

theorem State.storedImage_congr {s t : State} (h : t.store = s.store) (key : BitVec 8) :
    t.storedImage key = s.storedImage key := by
  rw [State.storedImage, h, State.storedImage]

@[simp] theorem saveTable_tbl (s : State) : (saveTable s).tbl = s.tbl := by simp [saveTable]

@[simp] theorem saveTable_tnr (s : State) : (saveTable s).tnr = s.tnr := by simp [saveTable]

/-- Settles O51: a command that reaches the table or the store is a CONSTRUCT, or a SAVE, which leaves the table alone. -/
theorem onlyConstructWritesTheTableOnlyConstructAndSaveTheStore :
    Obligations.OnlyConstructWritesTheTableOnlyConstructAndSaveTheStore := by
  intro i s t h
  obtain hf | ⟨rfl, -, -, -⟩ | ⟨rfl, -, -, rfl⟩ := exec_table_cases h
  · exact ⟨fun _ => ⟨hf.tbl, hf.tnr, hf.tab, State.tblRead_congr hf.build hf.tnr hf.tbl⟩,
      fun _ _ => ⟨hf.store, hf.cst, State.storedImage_congr hf.store⟩⟩
  · exact ⟨fun hne => absurd rfl hne, fun hne => absurd rfl hne⟩
  · have htbl : SameTable s (saveTable s) :=
      State.tblRead_congr (saveTable_frame s).build (saveTable_tnr s) (saveTable_tbl s)
    exact ⟨fun _ => ⟨saveTable_tbl s, saveTable_tnr s, saveTable_tab s, htbl⟩, fun _ hne => absurd rfl hne⟩

end Sys2Proof.Machine
end

section
/-! Decoding and encoding: a word decodes to a command exactly if the command is well formed and the word is its word, and the
match and mask pairs say the same (30_encoding.md R101 to R104). -/

namespace Sys2Proof

/-! ## The three formats (30_encoding.md R102) -/

theorem decodeN_eq_ok_iff {w : Word} {i j : Instr} : decodeN w i = .ok j ↔ w.extractLsb' 8 24 = 0#24 ∧ i = j := by
  unfold decodeN
  split <;> simp [*]

theorem decodeR_eq_ok_iff {w : Word} {mk : Nat → Instr} {j : Instr} :
    decodeR w mk = .ok j ↔ w.extractLsb' 11 21 = 0#21 ∧ mk (w.extractLsb' 8 3).toNat = j := by
  unfold decodeR
  split <;> simp [*]

theorem decodeI_eq_ok_iff {w : Word} {mk : Nat → Instr} {j : Instr} :
    decodeI w mk = .ok j ↔ w.extractLsb' 16 16 = 0#16 ∧ mk (w.extractLsb' 8 8).toNat = j := by
  unfold decodeI
  split <;> simp [*]

/-! ## The OP field (30_encoding.md R101, R104) -/

/-- What a word whose OP field is that of `i` decodes to, by the format of `i` (30_encoding.md R102). -/
def decodeAs (w : Word) : Instr → Except Reject Instr
  | .prot _ => decodeR w .prot
  | .iota _ => decodeI w .iota
  | .round _ => decodeI w .round
  | i => decodeN w i

/-- A word is decoded by the format of the command whose OP field it has. -/
theorem decode_of_opcode {w : Word} {i : Instr} (hop : w.extractLsb' 0 8 = opcode i) : decode w = decodeAs w i := by
  unfold decode
  rw [hop]
  cases i <;> rfl

/-- A word in the format of `i` decodes to a command with its OP field. -/
theorem opcode_of_decodeAs {w : Word} {i j : Instr} (h : decodeAs w i = .ok j) : opcode j = opcode i := by
  cases i with
  | prot n => obtain ⟨-, rfl⟩ := decodeR_eq_ok_iff.1 h; rfl
  | iota k => obtain ⟨-, rfl⟩ := decodeI_eq_ok_iff.1 h; rfl
  | round k => obtain ⟨-, rfl⟩ := decodeI_eq_ok_iff.1 h; rfl
  | _ => obtain ⟨-, rfl⟩ := decodeN_eq_ok_iff.1 h; rfl

/-- A word that decodes has the OP field of some command. -/
theorem exists_opcode_of_decode {w : Word} {j : Instr} (h : decode w = .ok j) : ∃ i, w.extractLsb' 0 8 = opcode i := by
  have hop : ∀ i, (w.extractLsb' 0 8).toNat = (opcode i).toNat → ∃ i, w.extractLsb' 0 8 = opcode i :=
    fun i h => ⟨i, BitVec.eq_of_toNat_eq h⟩
  unfold decode at h
  split at h
  · exact hop .nop ‹_›
  · exact hop .pand ‹_›
  · exact hop .por ‹_›
  · exact hop .pxor ‹_›
  · exact hop .pnot ‹_›
  · exact hop (.prot 0) ‹_›
  · exact hop .theta ‹_›
  · exact hop .rho ‹_›
  · exact hop .pi ‹_›
  · exact hop .chi ‹_›
  · exact hop .chic ‹_›
  · exact hop (.iota 0) ‹_›
  · exact hop (.round 0) ‹_›
  · exact hop .perm ‹_›
  · exact hop .construct ‹_›
  · exact hop .eval ‹_›
  · exact hop .save ‹_›
  · exact hop .tread ‹_›
  · cases h

/-- A word decodes to `i` exactly if it has the OP field of `i` and `i` is what it holds in that format. -/
theorem decode_eq_ok_iff {w : Word} {i : Instr} :
    decode w = .ok i ↔ w.extractLsb' 0 8 = opcode i ∧ decodeAs w i = .ok i := by
  constructor
  · intro h
    obtain ⟨j, hj⟩ := exists_opcode_of_decode h
    have hop : w.extractLsb' 0 8 = opcode i := by
      rw [hj, opcode_of_decodeAs ((decode_of_opcode hj).symm.trans h)]
    exact ⟨hop, (decode_of_opcode hop).symm.trans h⟩
  · rintro ⟨hop, h⟩
    exact (decode_of_opcode hop).trans h

/-! ## The IMM field (30_encoding.md R102, R103) -/

/-- A field of a word as a number. -/
theorem toNat_field (w : Word) (lo len : Nat) : (w.extractLsb' lo len).toNat = w.toNat / 2 ^ lo % 2 ^ len := by
  rw [BitVec.extractLsb'_toNat, Nat.shiftRight_eq_div_pow]

/-- RSV = 0 and IMM = `n` (30_encoding.md R101). -/
theorem aboveOp_eq_iff {w : Word} {n : Nat} (hn : n < 256) :
    w.extractLsb' 8 24 = 0#16 ++ BitVec.ofNat 8 n ↔ w.toNat / 256 = n := by
  have hw := w.isLt
  have himm : (0#16 ++ BitVec.ofNat 8 n).toNat = n := by
    rw [BitVec.toNat_append, BitVec.toNat_ofNat, BitVec.toNat_ofNat, Nat.mod_eq_of_lt hn]
    simp
  rw [← BitVec.toNat_inj, toNat_field, himm]
  omega

/-- Format R: bits 31:11 are 0 and bits 10:8 are `n` (30_encoding.md R102). -/
theorem formatR_iff {w : Word} {n : Nat} :
    (w.extractLsb' 11 21 = 0#21 ∧ (w.extractLsb' 8 3).toNat = n) ↔
      n < 8 ∧ w.extractLsb' 8 24 = 0#16 ++ BitVec.ofNat 8 n := by
  have hw := w.isLt
  rw [and_congr_right fun hn : n < 8 => aboveOp_eq_iff (by omega), ← BitVec.toNat_inj, toNat_field, toNat_field,
    BitVec.toNat_ofNat]
  omega

/-- Format I: bits 31:16 are 0 and bits 15:8 are `i` (30_encoding.md R102). -/
theorem formatI_iff {w : Word} {i : Nat} :
    (w.extractLsb' 16 16 = 0#16 ∧ (w.extractLsb' 8 8).toNat = i) ↔
      i < 256 ∧ w.extractLsb' 8 24 = 0#16 ++ BitVec.ofNat 8 i := by
  have hw := w.isLt
  rw [and_congr_right fun hi : i < 256 => aboveOp_eq_iff hi, ← BitVec.toNat_inj, toNat_field, toNat_field,
    BitVec.toNat_ofNat]
  omega

/-- A word holds `i` in the format of `i` exactly if the bits above OP are the immediate of `i`, which fits. -/
theorem decodeAs_self_iff {w : Word} {i : Instr} :
    decodeAs w i = .ok i ↔ i.wf = true ∧ w.extractLsb' 8 24 = 0#16 ++ BitVec.ofNat 8 (immediate i) := by
  cases i with
  | prot n =>
    rw [decodeAs, decodeR_eq_ok_iff, Instr.prot.injEq, formatR_iff, Instr.wf, decide_eq_true_iff, immediate]
  | iota k =>
    rw [decodeAs, decodeI_eq_ok_iff, Instr.iota.injEq, formatI_iff, Instr.wf, decide_eq_true_iff, immediate]
  | round k =>
    rw [decodeAs, decodeI_eq_ok_iff, Instr.round.injEq, formatI_iff, Instr.wf, decide_eq_true_iff, immediate]
  | _ => simp [decodeAs, decodeN_eq_ok_iff, Instr.wf, immediate]

/-- A word is the word of `i` exactly if its OP field and the bits above it are (30_encoding.md R101). -/
theorem encode_eq_iff {w : Word} {i : Instr} :
    encode i = w ↔ w.extractLsb' 0 8 = opcode i ∧ w.extractLsb' 8 24 = 0#16 ++ BitVec.ofNat 8 (immediate i) := by
  constructor
  · rintro rfl
    exact ⟨BitVec.extractLsb'_append_eq_right, BitVec.extractLsb'_append_eq_left⟩
  · rintro ⟨hop, himm⟩
    calc encode i = w.extractLsb' 8 24 ++ w.extractLsb' 0 8 := by rw [hop, himm, encode]
      _ = w := BitVec.extractLsb'_append_extractLsb' (w := 24) (len := 8)

/-- The words that decode, and what to: the two directions of the round trip in one. -/
theorem decode_eq_ok_iff_encode {w : Word} {i : Instr} : decode w = .ok i ↔ i.wf = true ∧ encode i = w := by
  rw [decode_eq_ok_iff, decodeAs_self_iff, encode_eq_iff]
  exact and_left_comm

/-! ## Match and mask pairs (30_encoding.md R104) -/

/-- Two joined bit vectors are equal exactly if their parts are. -/
theorem append_eq_append_iff {m n : Nat} {x x' : BitVec m} {y y' : BitVec n} : x ++ y = x' ++ y' ↔ x = x' ∧ y = y' := by
  constructor
  · intro h
    have hx := congrArg (BitVec.extractLsb' n m) h
    have hy := congrArg (BitVec.extractLsb' 0 n) h
    exact ⟨by simpa only [BitVec.extractLsb'_append_eq_left] using hx,
      by simpa only [BitVec.extractLsb'_append_eq_right] using hy⟩
  · rintro ⟨rfl, rfl⟩
    rfl

/-- A mask that keeps the outer two of three fields compares just these. -/
theorem and_outer_mask_eq_iff {a b c : Nat} {hi : BitVec a} {mid : BitVec b} {lo op : BitVec c} :
    (hi ++ mid ++ lo) &&& (BitVec.allOnes a ++ 0#b ++ BitVec.allOnes c) = 0#a ++ 0#b ++ op ↔ hi = 0#a ∧ lo = op := by
  simp only [BitVec.and_append, BitVec.and_allOnes, BitVec.and_zero, append_eq_append_iff, and_true]

/-- Format R's mask keeps bits 31:11 and OP (30_encoding.md R104). -/
theorem and_maskR_eq_iff {w : Word} {op : Byte} :
    w &&& 0xFFFFF8FF#32 = 0#24 ++ op ↔ w.extractLsb' 11 21 = 0#21 ∧ w.extractLsb' 0 8 = op := by
  have hw : w.extractLsb' 11 21 ++ w.extractLsb' 8 3 ++ w.extractLsb' 0 8 = w := by
    rw [BitVec.extractLsb'_append_extractLsb'_eq_extractLsb' (by decide)]
    exact BitVec.extractLsb'_append_extractLsb' (w := 24) (len := 8)
  rw [← and_outer_mask_eq_iff (mid := w.extractLsb' 8 3), hw]
  rfl

/-- Format I's mask keeps bits 31:16 and OP (30_encoding.md R104). -/
theorem and_maskI_eq_iff {w : Word} {op : Byte} :
    w &&& 0xFFFF00FF#32 = 0#24 ++ op ↔ w.extractLsb' 16 16 = 0#16 ∧ w.extractLsb' 0 8 = op := by
  have hw : w.extractLsb' 16 16 ++ w.extractLsb' 8 8 ++ w.extractLsb' 0 8 = w := by
    rw [BitVec.extractLsb'_append_extractLsb'_eq_extractLsb' (by decide)]
    exact BitVec.extractLsb'_append_extractLsb' (w := 24) (len := 8)
  rw [← and_outer_mask_eq_iff (mid := w.extractLsb' 8 8), hw]
  rfl

/-- A command without an immediate has one word, and the mask of its row keeps every bit (30_encoding.md R102). -/
theorem decode_eq_ok_iff_of_encode {i : Instr} {v : Word} (hwf : i.wf = true) (hv : encode i = v) {w : Word} :
    decode w = .ok i ↔ w = v := by
  rw [decode_eq_ok_iff_encode, hv]
  exact ⟨fun h => h.2.symm, fun h => ⟨hwf, h.symm⟩⟩

/-- A word of format R is one whose masked bits are its row's pattern (30_encoding.md R104). -/
theorem formatR_iff_mask {w : Word} {op : Byte} {n : Nat} :
    (w.extractLsb' 0 8 = op ∧ w.extractLsb' 11 21 = 0#21 ∧ (w.extractLsb' 8 3).toNat = n) ↔
      w &&& 0xFFFFF8FF#32 = 0#24 ++ op ∧ n = (w.extractLsb' 8 3).toNat := by
  rw [and_maskR_eq_iff, eq_comm (a := n), and_left_comm, and_assoc]

/-- A word of format I is one whose masked bits are its row's pattern (30_encoding.md R104). -/
theorem formatI_iff_mask {w : Word} {op : Byte} {i : Nat} :
    (w.extractLsb' 0 8 = op ∧ w.extractLsb' 16 16 = 0#16 ∧ (w.extractLsb' 8 8).toNat = i) ↔
      w &&& 0xFFFF00FF#32 = 0#24 ++ op ∧ i = (w.extractLsb' 8 8).toNat := by
  rw [and_maskI_eq_iff, eq_comm (a := i), and_left_comm, and_assoc]

theorem decode_eq_prot_iff {w : Word} {n : Nat} :
    decode w = .ok (.prot n) ↔ w &&& 0xFFFFF8FF#32 = 0x05#32 ∧ n = (w.extractLsb' 8 3).toNat := by
  rw [decode_eq_ok_iff, decodeAs, decodeR_eq_ok_iff, Instr.prot.injEq]
  exact formatR_iff_mask (op := 0x05#8)

theorem decode_eq_iota_iff {w : Word} {i : Nat} :
    decode w = .ok (.iota i) ↔ w &&& 0xFFFF00FF#32 = 0x15#32 ∧ i = (w.extractLsb' 8 8).toNat := by
  rw [decode_eq_ok_iff, decodeAs, decodeI_eq_ok_iff, Instr.iota.injEq]
  exact formatI_iff_mask (op := 0x15#8)

theorem decode_eq_round_iff {w : Word} {i : Nat} :
    decode w = .ok (.round i) ↔ w &&& 0xFFFF00FF#32 = 0x16#32 ∧ i = (w.extractLsb' 8 8).toNat := by
  rw [decode_eq_ok_iff, decodeAs, decodeI_eq_ok_iff, Instr.round.injEq]
  exact formatI_iff_mask (op := 0x16#8)

/-! ## The statements -/

/-- Settles O1: the word of a well-formed command meets the conditions for decoding to it. -/
theorem decodeEncodeRoundTrip : Obligations.DecodeEncodeRoundTrip :=
  fun _ hwf => decode_eq_ok_iff_encode.2 ⟨hwf, rfl⟩

/-- Settles O2: a word that decodes meets the conditions, which say that it is the command's word. -/
theorem encodeDecodeRoundTrip : Obligations.EncodeDecodeRoundTrip :=
  fun _ _ => decode_eq_ok_iff_encode.1

/-- Settles O3: a command of format N has one word; in the other formats the masked bits are those that the format fixes. -/
theorem opcodeMapMatchesMasks : Obligations.OpcodeMapMatchesMasks := by
  intro w
  have one : ∀ {i v}, i.wf = true → encode i = v → (decode w = .ok i ↔ w = v) :=
    fun hwf hv => decode_eq_ok_iff_of_encode hwf hv
  exact ⟨one rfl rfl, one rfl rfl, one rfl rfl, one rfl rfl, one rfl rfl, fun n => decode_eq_prot_iff,
    one rfl rfl, one rfl rfl, one rfl rfl, one rfl rfl, one rfl rfl, fun i => decode_eq_iota_iff,
    fun i => decode_eq_round_iff, one rfl rfl, one rfl rfl, one rfl rfl, one rfl rfl, one rfl rfl⟩

/-- Settles O5: the words of commands decode by O1; those with a reserved bit or opcode are evaluated. -/
theorem sampleWordsDecode : Obligations.SampleWordsDecode := by
  have ok : ∀ i : Instr, i.wf = true → decode (encode i) = .ok i := decodeEncodeRoundTrip
  exact ⟨ok .nop rfl, ok .theta rfl, ok (.prot 4) rfl, ok (.prot 5) rfl, ok (.iota 11) rfl, ok (.round 255) rfl,
    ok .tread rfl, by decide, by decide, by decide, by decide, by decide⟩

end Sys2Proof
end

section
/-! Hosts that wait: the busy window, the programs that wait after every command, and the lines that expand to them
(30_encoding.md R111; 70_reset_and_hazards.md R300, R301). -/

namespace Sys2Proof.Machine

/-! ## Programs that wait after every command -/

/-- An access that issues nothing needs no WAIT. -/
theorem waitsAfterIssue_cons_of_quiet {op : HostOp} (hop : issues op = false) (ops : List HostOp) :
    waitsAfterIssue (op :: ops) = waitsAfterIssue ops := by
  cases ops with
  | nil => rfl
  | cons next ops => simp [waitsAfterIssue, hop]

/-- A WAIT serves the access before it. -/
theorem waitsAfterIssue_cons_wait (op : HostOp) (ops : List HostOp) :
    waitsAfterIssue (op :: .wait :: ops) = waitsAfterIssue ops := by
  simp [waitsAfterIssue, waitsAfterIssue_cons_of_quiet (op := .wait) rfl]

theorem waitsAfterIssue_tail {op : HostOp} {ops : List HostOp} (h : waitsAfterIssue (op :: ops) = true) :
    waitsAfterIssue ops = true := by
  cases ops with
  | nil => rfl
  | cons next ops => exact (Bool.and_eq_true_iff.1 h).2

/-- The host's access number `k` is WAIT, or there is none. -/
def WaitAt (ops : List HostOp) (k : Nat) : Prop := ops[k]? = none ∨ ops[k]? = some .wait

/-- After an access that issues a command the host is at a WAIT or at the program's end. -/
theorem waitAt_succ_of_issues {ops : List HostOp} (h : waitsAfterIssue ops = true) {k : Nat} {op : HostOp}
    (hop : ops[k]? = some op) (hissues : issues op = true) : WaitAt ops (k + 1) := by
  induction ops generalizing k with
  | nil => simp at hop
  | cons first ops ih =>
    cases k with
    | succ k => exact ih (waitsAfterIssue_tail h) hop
    | zero =>
      obtain rfl : first = op := Option.some.inj hop
      cases ops with
      | nil => exact .inl rfl
      | cons next ops =>
        have hnext : next = .wait := by simpa [hissues] using (Bool.and_eq_true_iff.1 h).1
        exact .inr (congrArg some hnext)

/-! ## The busy window (70_reset_and_hazards.md R300) -/

theorem State.inBusyWindow_eq_false {s : State} : s.inBusyWindow = false ↔ s.pend = none ∧ s.busyWindow = false := by
  simp [State.inBusyWindow]

@[simp] theorem writeReg_program (v : Word) (s : State) (reg : WindowReg) : (writeReg v s reg).program = s.program := by
  cases reg <;> rfl

/-- Only a CMD write opens the busy window (44_system.md R240). -/
theorem writeReg_inBusyWindow (v : Word) (s : State) {reg : WindowReg} (h : reg ≠ .cmd) :
    (writeReg v s reg).inBusyWindow = s.inBusyWindow := by
  cases reg with
  | cmd => exact absurd rfl h
  | _ => rfl

/-- A register found is CMD only for a write that issues (20_memory.md R61). -/
theorem issues_of_regAt_cmd {b : Build} {off : Nat} {width : Width} (ha : admitted off width = true)
    (h : regAt b off = some .cmd) (v : Word) : issues (.write off width v) = true := by
  have h4 : off % 4 = 0 := by
    simp only [admitted, Bool.and_eq_true, beq_iff_eq] at ha
    exact ha.1.2
  simp [issues, ← regOffset_of_regAt h4 h]

/-- BusyHazard stops only an access that is no STATUS read, while a command is pending (70_reset_and_hazards.md R301). -/
theorem pend_isSome_of_accessReg_busyHazard {s : State} {off : Nat} {width : Width} {quiet : Bool}
    (h : accessReg s off width quiet = .error .busyHazard) : s.pend.isSome = true := by
  unfold accessReg at h
  split at h
  · cases h
  · split at h
    · next hbusy => exact (Bool.and_eq_true_iff.1 hbusy).1
    · split at h <;> cases h

/-! ## What every step keeps of a waiting host -/

/-- The program waits after every command, in the busy window the host is at a WAIT, and the record of BusyHazard is `seen`. -/
structure WaitingHost (seen : Bool) (s : State) : Prop where
  program : waitsAfterIssue s.program = true
  waits : HostWaits s
  record : s.busyHazardSeen = seen

section
variable {seen : Bool} {s t : State}

/-- A step keeps a host waiting that does not move it, adds no record and does not open the busy window. -/
theorem WaitingHost.of_still (h : WaitingHost seen s) (hprog : t.program = s.program) (hpos : t.hostPos = s.hostPos)
    (hseen : t.busyHazardSeen = s.busyHazardSeen) (hwin : t.inBusyWindow = true → s.inBusyWindow = true) :
    WaitingHost seen t where
  program := hprog ▸ h.program
  waits hbusy := by
    rw [hprog, hpos]
    exact h.waits (hwin hbusy)
  record := hseen.trans h.record

/-- Outside the busy window the host may be anywhere in its program. -/
theorem WaitingHost.of_closed (h : WaitingHost seen s) (hprog : t.program = s.program)
    (hseen : t.busyHazardSeen = s.busyHazardSeen) (hwin : t.inBusyWindow = false) : WaitingHost seen t where
  program := hprog ▸ h.program
  waits hbusy := by simp [hwin] at hbusy
  record := hseen.trans h.record

/-- A waiting host makes its accesses outside the busy window (70_reset_and_hazards.md R300). -/
theorem WaitingHost.closed_of_access (h : WaitingHost seen s) {op : HostOp} (hop : s.program[s.hostPos]? = some op)
    (hne : op ≠ .wait) : s.pend = none ∧ s.busyWindow = false := by
  rw [← State.inBusyWindow_eq_false, Bool.eq_false_iff]
  intro hbusy
  obtain hnone | hwait := h.waits hbusy
  · simp [hop] at hnone
  · exact hne (Option.some.inj (hop.symm.trans hwait))

/-- The engine leaves the host where it is and the busy window as it was or narrower (44_system.md R242). -/
theorem WaitingHost.of_performStep (h : WaitingHost seen s) (hs : performStep s = .next t) : WaitingHost seen t := by
  obtain ⟨-, rfl⟩ | ⟨hsome, hf⟩ := performStep_frame hs
  · exact h
  · exact h.of_still hf.program hf.hostPos hf.busyHazardSeen fun _ => by simp [State.inBusyWindow, hsome]

/-- A reset closes the busy window (70_reset_and_hazards.md R291). -/
theorem WaitingHost.of_resetStep (h : WaitingHost seen s) (edits : List StoreEdit) :
    WaitingHost seen (resetStep edits s) := by
  refine h.of_closed ?_ ?_ rfl <;> simp [resetStep]

/-- An access made outside the busy window opens it only by issuing, and then the host comes to a WAIT; a WAIT goes on only
when the window closes (30_encoding.md R111; 44_system.md R240, R243). -/
theorem WaitingHost.of_hostStep (h : WaitingHost seen s) (hs : hostStep s = .next t) : WaitingHost seen t := by
  obtain ⟨-, rfl⟩ | ⟨off, width, reg, hop, -, rfl⟩ | ⟨off, width, v, reg, hop, hacc, rfl⟩ | ⟨-, rfl⟩ := hostStep_next hs
  · exact h
  · obtain ⟨hpend, hwin⟩ := h.closed_of_access hop (by simp)
    rw [advanceHost_read]
    refine h.of_closed rfl ?_ ?_ <;> simp [afterRead, State.inBusyWindow, hpend, hwin]
  · obtain ⟨hpend, hwin⟩ := h.closed_of_access hop (by simp)
    rw [State.noteHazard_of_closed hwin]
    by_cases hcmd : reg = .cmd
    · obtain ⟨hadm, -, hreg⟩ := accessReg_ok hacc
      have hissues := issues_of_regAt_cmd hadm (hcmd ▸ hreg) v
      refine ⟨by simpa using h.program, fun _ => ?_, by simpa using h.record⟩
      simpa [WaitAt] using waitAt_succ_of_issues h.program hop hissues
    · refine h.of_closed (by simp) (by simp) ?_
      exact (writeReg_inBusyWindow v s hcmd).trans (State.inBusyWindow_eq_false.2 ⟨hpend, hwin⟩)
  · rw [statusWord_busy]
    split
    · exact h
    · next hidle =>
      have hpend : s.pend = none := by simpa using hidle
      exact h.of_closed rfl rfl (by simp [State.inBusyWindow, hpend])

theorem WaitingHost.of_step (h : WaitingHost seen s) (hs : step s = .next t) : WaitingHost seen t := by
  obtain ⟨rest, -, hcases⟩ := step_cases s
  have hu : WaitingHost seen { s with schedule := rest } := h.of_still rfl rfl rfl id
  obtain hstep | hstep | ⟨edits, -, hstep⟩ := hcases <;> rw [hstep] at hs
  · exact hu.of_performStep hs
  · exact hu.of_hostStep hs
  · cases hs
    exact hu.of_resetStep edits

/-! ## A waiting host meets no BusyHazard (70_reset_and_hazards.md R301) -/

theorem performStep_ne_fault (s : State) (f : Fault) : performStep s ≠ .fault f := by
  obtain ⟨-, hp⟩ | ⟨w, i, -, -, hp⟩ | ⟨w, e, -, -, hp⟩ := performStep_cases s
  · simp [hp]
  · obtain ⟨u, hu⟩ := exec_next i { s with pend := none }
    simp [hp, hu]
  · simp [hp]

/-- A host step that is a fault is that of its access, which is no WAIT. -/
theorem accessReg_of_hostStep_fault {f : Fault} (h : hostStep s = .fault f) :
    ∃ op off width quiet, s.program[s.hostPos]? = some op ∧ op ≠ .wait ∧ accessReg s off width quiet = .error f := by
  unfold hostStep at h
  split at h
  · cases h
  · next off width hop =>
    unfold hostRead at h
    split at h
    · next e hacc =>
      cases h
      exact ⟨_, off, width, _, hop, by simp, hacc⟩
    · cases h
  · next off width v hop =>
    unfold hostWrite at h
    split at h
    · next e hacc =>
      cases h
      exact ⟨_, off, width, _, hop, by simp, hacc⟩
    · cases h
  · cases h

theorem WaitingHost.hostStep_ne_busyHazard (h : WaitingHost seen s) : hostStep s ≠ .fault .busyHazard := by
  intro hs
  obtain ⟨op, off, width, quiet, hop, hne, hacc⟩ := accessReg_of_hostStep_fault hs
  have hsome := pend_isSome_of_accessReg_busyHazard hacc
  simp [(h.closed_of_access hop hne).1] at hsome

theorem WaitingHost.step_ne_busyHazard (h : WaitingHost seen s) : step s ≠ .fault .busyHazard := by
  obtain ⟨rest, -, hcases⟩ := step_cases s
  have hu : WaitingHost seen { s with schedule := rest } := h.of_still rfl rfl rfl id
  obtain hstep | hstep | ⟨edits, -, hstep⟩ := hcases <;> rw [hstep]
  · exact performStep_ne_fault _ _
  · exact hu.hostStep_ne_busyHazard
  · simp

end

/-! ## Runs -/

/-- What every step keeps every run keeps, and a run stops with no fault that no such step is. -/
theorem run_keeps (M : Host.Core) {P : M.State → Prop} {f : M.Fault} (hfault : ∀ s, P s → M.step s ≠ .fault f)
    (hkeep : ∀ s t, P s → M.step s = .next t → P t) (k : Nat) {s : M.State} (hs : P s) :
    M.run k s ≠ .fault f ∧ ∀ t, M.run k s = .next t → P t := by
  induction k generalizing s with
  | zero => exact ⟨nofun, fun t ht => Host.Outcome.next.inj ht ▸ hs⟩
  | succ k ih =>
    unfold Host.Core.run
    cases hu : M.step s with
    | next u => exact ih (hkeep s u hs hu)
    | fault r => exact ⟨fun h => hfault s hs (hu.trans h), nofun⟩
    | refused r => exact ⟨nofun, nofun⟩

/-- Settles O59: every step keeps a waiting host with its record of BusyHazard, so every run does. -/
theorem waitingProgramsNeverMeetBusyHazard : Obligations.WaitingProgramsNeverMeetBusyHazard := by
  constructor
  · intro s hprog hwaits
    have h : WaitingHost s.busyHazardSeen s := ⟨hprog, hwaits, rfl⟩
    exact ⟨h.step_ne_busyHazard, fun t hs => ⟨(h.of_step hs).program, (h.of_step hs).waits, (h.of_step hs).record⟩⟩
  · intro s k hprog hwaits
    have h : WaitingHost s.busyHazardSeen s := ⟨hprog, hwaits, rfl⟩
    obtain ⟨hfault, hkeep⟩ := run_keeps core (P := WaitingHost s.busyHazardSeen)
      (fun u hu => hu.step_ne_busyHazard) (fun u t hu => hu.of_step) k h
    exact ⟨hfault, fun t ht => (hkeep t ht).record⟩

/-! ## The lines of a host program (30_encoding.md R111) -/

/-- CMD is at offset 4 only (20_memory.md R61). -/
theorem regOffset_eq_cmd_iff {reg : WindowReg} : regOffset reg = regOffset .cmd ↔ reg = .cmd := by
  cases reg with
  | s z => simp only [regOffset, reduceCtorEq, iff_false]; omega
  | _ => simp [regOffset]

/-- What a line stands for waits after every command, whatever comes after it, unless the line writes CMD itself. -/
theorem waitsAfterIssue_expandLine_append {l : Line} {ops : List HostOp} (hcmd : ∀ v, l ≠ .wr .cmd v)
    (h : expandLine l = some ops) (rest : List HostOp) :
    waitsAfterIssue (ops ++ rest) = waitsAfterIssue rest := by
  have quiet : ∀ op, issues op = false → waitsAfterIssue ([op] ++ rest) = waitsAfterIssue rest :=
    fun op hop => waitsAfterIssue_cons_of_quiet hop rest
  cases l with
  | wr reg v =>
    have hreg : reg ≠ .cmd := fun hreg => hcmd v (by rw [hreg])
    cases h
    exact quiet _ (by simpa [issues] using mt regOffset_eq_cmd_iff.1 hreg)
  | rd reg => cases h; exact quiet _ rfl
  | wait => cases h; exact quiet _ rfl
  | command i =>
    obtain ⟨w, -, rfl⟩ := Option.map_eq_some_iff.1 h
    exact waitsAfterIssue_cons_wait _ rest
  | setnr n =>
    obtain ⟨-, hops⟩ := Option.ite_none_right_eq_some.1 h
    cases hops; exact quiet _ rfl
  | clrerr n =>
    obtain ⟨-, hops⟩ := Option.ite_none_right_eq_some.1 h
    cases hops; exact quiet _ rfl
  | lds z p =>
    cases h
    exact quiet _ (by simpa [issues] using mt regOffset_eq_cmd_iff.1 (nofun : WindowReg.s z ≠ .cmd))

/-- The accesses of a program are those of its first line and then those of the rest. -/
theorem expandProgram_cons {l : Line} {ls : List Line} {ops : List HostOp} (h : expandProgram (l :: ls) = some ops) :
    ∃ first rest, expandLine l = some first ∧ expandProgram ls = some rest ∧ ops = first ++ rest := by
  unfold expandProgram at h
  split at h
  · next first rest hfirst hrest => exact ⟨first, rest, hfirst, hrest, (Option.some.inj h).symm⟩
  · cases h

/-- Settles O60, by induction on the lines: each adds accesses that wait. -/
theorem commandLinesExpandToWaitingPrograms : Obligations.CommandLinesExpandToWaitingPrograms := by
  intro lines
  induction lines with
  | nil =>
    intro ops _ h
    cases h
    rfl
  | cons l ls ih =>
    intro ops hcmd h
    obtain ⟨first, rest, hfirst, hrest, rfl⟩ := expandProgram_cons h
    rw [waitsAfterIssue_expandLine_append (fun v hl => hcmd v (by simp [hl])) hfirst]
    exact ih rest (fun v hl => hcmd v (List.mem_cons_of_mem _ hl)) hrest

end Sys2Proof.Machine
end

section
/-! The plane commands: what they write to `R`, and the rotation of PROT with its laws (40_plane.md R131 to R137). -/

namespace Sys2Proof.Machine

/-! ## What a plane command writes to `R` (40_plane.md R130) -/

@[simp] theorem planeOp1_r (f : Plane → Plane) (s : State) : (planeOp1 f s).r = PlaneReg.filled (f s.a.value) := rfl

@[simp] theorem planeOp2_r (f : Plane → Plane → Plane) (s : State) :
    (planeOp2 f s).r = PlaneReg.filled (f s.a.value s.b.value) := rfl

theorem exec_prot_of_le {n : Nat} (hn : n ≤ 4) (s : State) :
    exec (.prot n) s = .next (planeOp1 (fun p => prot p n) s) := if_neg (Nat.not_lt.2 hn)

/-! ## The complement within 25 bits (40_plane.md R134) -/

theorem m25_eq_allOnes : m25 = BitVec.allOnes 25 := rfl

@[simp] theorem and_m25 (p : Plane) : p &&& m25 = p := BitVec.and_allOnes

theorem setWidth_planeWord (p : Plane) : (planeWord p).setWidth 25 = p := BitVec.setWidth_append_eq_right

/-- In its 32-bit container the complement leaves bits 31:25 zero. -/
theorem planeWord_not (p : Plane) : planeWord (~~~p) = ~~~(planeWord p) &&& 0x01FFFFFF#32 := by
  rw [← planeWord_setWidth, BitVec.setWidth_not (by decide), setWidth_planeWord]

/-- Settles O7: `R` takes the operation's value of the operands, and the corner cases are laws of the operation. -/
theorem planeLogicCommandsWriteR : Obligations.PlaneLogicCommandsWriteR := by
  intro s
  have ok : ∀ i : Instr, i.wf = true → decode (encode i) = .ok i := decodeEncodeRoundTrip
  refine ⟨⟨ok .pand rfl, _, rfl, rfl, ?_⟩, ⟨ok .por rfl, _, rfl, rfl, ?_⟩, ⟨ok .pxor rfl, _, rfl, rfl, ?_⟩,
    ok .pnot rfl, _, rfl, rfl, ?_⟩ <;>
    simp only [planeOp1_r, planeOp2_r, PlaneReg.filled_value]
  · refine ⟨fun h => ?_, fun h => ?_, fun h => ?_, fun ⟨ha, hb⟩ => by rw [ha, hb]; rfl⟩
    · rw [← h, BitVec.and_self]
    · rw [h]; exact BitVec.and_zero
    · rw [h, and_m25]
  · refine ⟨fun h => ?_, fun h => ?_, fun h => ?_, fun ⟨ha, hb⟩ => by rw [ha, hb]; rfl⟩
    · rw [← h, BitVec.or_self]
    · rw [h, m25_eq_allOnes, BitVec.or_allOnes]
    · rw [h]; exact BitVec.or_zero
  · refine ⟨fun h => ?_, fun h => ?_, fun ⟨ha, hb⟩ => by rw [ha, hb]; rfl⟩
    · rw [← h]; exact BitVec.xor_self
    · rw [h, m25_eq_allOnes, BitVec.xor_allOnes]
  · rw [and_m25]
    exact ⟨planeWord_not _, fun h => by rw [h]; rfl, fun h => by rw [h]; rfl, fun h => by rw [h]; rfl⟩

/-! ## The rotation bit by bit (40_plane.md R136) -/

@[simp] theorem planeBit_prot (p : Plane) (n : Nat) {x y : Nat} (hx : x < 5) (hy : y < 5) :
    planeBit (prot p n) x y = planeBit p ((x + (5 - n % 5)) % 5) y := planeBit_planeOf _ hx hy

/-- The bit of lane `(x, y)` moves to lane `((x + n) mod 5, y)`. -/
theorem planeBit_prot_moved (p : Plane) (n : Nat) {x y : Nat} (hx : x < 5) (hy : y < 5) :
    planeBit (prot p n) ((x + n) % 5) y = planeBit p x y := by
  have hback : ((x + n) % 5 + (5 - n % 5)) % 5 = x := by omega
  rw [planeBit_prot p n (Nat.mod_lt _ (by decide)) hy, hback]

theorem getLsbD_rowOf (p : Plane) (y : Nat) {x : Nat} (hx : x < 5) : (rowOf p y).getLsbD x = planeBit p x y := by
  simp [rowOf, planeBit, hx, Nat.add_comm]

/-- In the numbering of the lanes every row is rotated left within its five bits. -/
theorem rowOf_prot (p : Plane) (n : Nat) {y : Nat} (hy : y < 5) : rowOf (prot p n) y = (rowOf p y).rotateLeft n := by
  refine BitVec.eq_of_getLsbD_eq fun x hx => ?_
  rw [getLsbD_rowOf _ _ hx, planeBit_prot p n hx hy, BitVec.getLsbD_rotateLeft]
  by_cases hwrap : x < n % 5
  · have hfrom : (x + (5 - n % 5)) % 5 = 5 - n % 5 + x := by omega
    rw [hfrom, ← getLsbD_rowOf p y (by omega)]
    simp [hwrap]
  · have hfrom : (x + (5 - n % 5)) % 5 = x - n % 5 := by omega
    rw [hfrom, ← getLsbD_rowOf p y (by omega)]
    simp [hwrap, hx]

/-- Settles O8: PROT up to 4 raises no error, and `prot` moves each bit and so each row. -/
theorem protMovesBitsTowardsLargerX : Obligations.ProtMovesBitsTowardsLargerX := by
  refine ⟨fun s n hn => ⟨_, exec_prot_of_le hn s, rfl, rfl⟩, fun p n x y hn hx hy => ⟨?_, ?_, ?_⟩⟩
  · have hfrom : x + (5 - n % 5) = x + 5 - n := by omega
    rw [planeBit_prot p n hx hy, hfrom]
  · exact planeBit_prot_moved p n hx hy
  · exact rowOf_prot p n hy

/-! ## The laws of the rotation (40_plane.md R137) -/

theorem prot_zero (p : Plane) : prot p 0 = p :=
  plane_ext fun x hx y hy => by
    have hfrom : (x + (5 - 0 % 5)) % 5 = x := by omega
    rw [planeBit_prot p 0 hx hy, hfrom]

theorem prot_mod (p : Plane) (n : Nat) : prot p (n % 5) = prot p n := by
  simp only [prot, Nat.mod_mod]

/-- Rotations add up. -/
theorem prot_prot (p : Plane) (m n : Nat) : prot (prot p m) n = prot p (m + n) :=
  plane_ext fun x hx y hy => by
    have hfrom : ((x + (5 - n % 5)) % 5 + (5 - m % 5)) % 5 = (x + (5 - (m + n) % 5)) % 5 := by omega
    rw [planeBit_prot _ n hx hy, planeBit_prot p m (Nat.mod_lt _ (by decide)) hy, planeBit_prot p (m + n) hx hy, hfrom]

theorem prot_five (p : Plane) : prot p 5 = p := (prot_mod p 5).symm.trans (prot_zero p)

theorem prot_and (p q : Plane) (n : Nat) : prot (p &&& q) n = prot p n &&& prot q n :=
  plane_ext fun x hx y hy => by simp [hx, hy]

theorem prot_or (p q : Plane) (n : Nat) : prot (p ||| q) n = prot p n ||| prot q n :=
  plane_ext fun x hx y hy => by simp [hx, hy]

theorem prot_xor (p q : Plane) (n : Nat) : prot (p ^^^ q) n = prot p n ^^^ prot q n :=
  plane_ext fun x hx y hy => by simp [hx, hy]

theorem prot_not (p : Plane) (n : Nat) : prot (~~~p) n = ~~~(prot p n) :=
  plane_ext fun x hx y hy => by simp [hx, hy, Nat.mod_lt]

/-- Settles O10: two rotations add up modulo 5, and a rotation of the planes moves their bits alike. -/
theorem protObeysItsLaws : Obligations.ProtObeysItsLaws := by
  refine ⟨prot_zero, fun p m n _ _ => ?_, fun p n _ hn => ?_, fun p q n _ => ?_⟩
  · rw [prot_prot, prot_mod]
  · have hsum : n + (5 - n) = 5 := by omega
    rw [prot_prot, hsum, prot_five]
  · exact ⟨prot_and p q n, prot_or p q n, prot_xor p q n, by rw [and_m25, and_m25, prot_not]⟩

end Sys2Proof.Machine
end

section
/-! The step commands in general: what they do to the state planes, and that they reach nothing else (41_steps.md section 1,
R150). -/

namespace Sys2Proof.Machine

@[simp] theorem stepOp_stateValue (f : List Plane → List Plane) (s : State) :
    (stepOp f s).stateValue = f s.stateValue := by simp [stepOp]

/-- A step command writes every plane (10_state.md R44). -/
theorem stepOp_planesWritten (f : List Plane → List Plane) (s : State) : PlanesWritten (stepOp f s) := by
  intro q hq
  obtain ⟨p, -, rfl⟩ := List.mem_map.1 hq
  rfl

theorem stepOp_hasPlanes {f : List Plane → List Plane} (hf : ∀ v, (f v).length = v.length) {s : State} (h : HasPlanes s) :
    HasPlanes (stepOp f s) :=
  (stepOp_tableFrame hf s).planes.trans h

/-- The state register of a state with its planes holds `w` planes (10_state.md R32). -/
theorem HasPlanes.length_stateValue {s : State} (h : HasPlanes s) : s.stateValue.length = s.build.lanes :=
  s.stateValue_length.trans h

@[simp] theorem State.noteReads_nil (s : State) : s.noteReads [] = s := by simp [State.noteReads]

/-- The step, round and permutation commands have one shape: a function of the state register that keeps the number of planes;
CHIC notes its reads of the masks besides (41_steps.md R150, R168). -/
theorem exec_stepCommand {i : Instr}
    (hi : i = .theta ∨ i = .rho ∨ i = .pi ∨ i = .chi ∨ i = .chic ∨ (∃ k, i = .iota k) ∨ (∃ k, i = .round k) ∨ i = .perm)
    (s : State) :
    ∃ f regs, (∀ v, (f v).length = v.length) ∧ exec i s = .next (stepOp f (s.noteReads regs)) := by
  have plain : ∀ f : List Plane → List Plane, (∀ v, (f v).length = v.length) → exec i s = .next (stepOp f s) →
      ∃ f regs, (∀ v, (f v).length = v.length) ∧ exec i s = .next (stepOp f (s.noteReads regs)) :=
    fun f hf he => ⟨f, [], hf, by rw [State.noteReads_nil, he]⟩
  obtain rfl | rfl | rfl | rfl | rfl | ⟨k, rfl⟩ | ⟨k, rfl⟩ | rfl := hi
  · exact plain theta length_theta rfl
  · exact plain rho length_rho rfl
  · exact plain pi length_pi rfl
  · exact plain chi length_chi rfl
  · exact ⟨_, [s.a, s.b], fun v => length_chic v s.a.value s.b.value, rfl⟩
  · exact plain (iota k) (length_iota k) rfl
  · exact plain (roundI k) (length_roundI k) rfl
  · exact plain _ (length_perm s.build.roundIndexBase s.nr.toNat) rfl

/-- Settles O20: the common shape of these commands writes the planes and the record of unwritten reads only. -/
theorem stepCommandsChangeOnlyThePlanes : Obligations.StepCommandsChangeOnlyThePlanes := by
  intro i s t hi h
  obtain ⟨f, regs, hf, he⟩ := exec_stepCommand hi s
  obtain rfl := Host.Outcome.next.inj (he.symm.trans h)
  exact ⟨rfl, (stepOp_tableFrame hf _).planes, fun _ => rfl, fun _ => rfl⟩

end Sys2Proof.Machine
end

section
/-! θ, ρ and π bit by bit and in plane operations (41_steps.md R151 to R156). -/

namespace Sys2Proof.Machine

/-! ## θ -/

theorem stateBit_theta {S : List Plane} {x y z : Nat} (hx : x < 5) (hy : y < 5) (hz : z < S.length) :
    stateBit (theta S) x y z = (stateBit S x y z ^^ columnParity S ((x + 4) % 5) z ^^
      columnParity S ((x + 1) % 5) ((z + S.length - 1) % S.length)) := by
  have hbefore : z + S.length - 1 = z + (S.length - 1) := by omega
  rw [theta, stateBit_stateOf _ hx hy hz, hbefore]

/-- The plane whose every row is the column parity vector of `p` (41_steps.md R156). -/
def parityPlane (p : Plane) : Plane :=
  planeOf fun x _ => planeBit p x 0 ^^ planeBit p x 1 ^^ planeBit p x 2 ^^ planeBit p x 3 ^^ planeBit p x 4

theorem planeBit_parityPlane (S : List Plane) {x y : Nat} (z : Nat) (hx : x < 5) (hy : y < 5) :
    planeBit (parityPlane (S.getD z 0)) x y = columnParity S x z := planeBit_planeOf _ hx hy

/-- θ in plane operations (41_steps.md R156). -/
theorem theta_getD {S : List Plane} {z : Nat} (hz : z < S.length) :
    (theta S).getD z 0 = S.getD z 0 ^^^ prot (parityPlane (S.getD z 0)) 1 ^^^
      prot (parityPlane (S.getD ((z + S.length - 1) % S.length) 0)) 4 :=
  plane_ext fun x hx y hy => by
    rw [planeBit_xor, planeBit_xor, planeBit_prot _ 1 hx hy, planeBit_prot _ 4 hx hy,
      planeBit_parityPlane S _ (Nat.mod_lt _ (by decide)) hy, planeBit_parityPlane S _ (Nat.mod_lt _ (by decide)) hy]
    exact stateBit_theta hx hy hz

/-- Settles O12: both forms are θ's on the state register, whose `w` planes are written. -/
theorem thetaXorsNeighbourSheets : Obligations.ThetaXorsNeighbourSheets := by
  intro s h
  refine ⟨_, rfl, stepOp_hasPlanes length_theta h, stepOp_planesWritten _ _, fun z hz => ⟨fun x hx y hy => ?_, ?_⟩⟩ <;>
    rw [← h.length_stateValue] at hz ⊢
  · rw [bitOf, stepOp_stateValue]
    exact stateBit_theta hx hy hz
  · rw [stepOp_stateValue]
    exact theta_getD hz

/-! ## ρ -/

/-- A rotation by `r` within `w` places is undone by the rotation by `w - r mod w`. -/
theorem rotate_back {w z : Nat} (hz : z < w) (r : Nat) : ((z + r) % w + (w - r % w)) % w = z := by
  have hr : r % w < w := Nat.mod_lt _ (by omega)
  have hsum : z + r + (w - r % w) = z + w * (r / w + 1) := by
    have := Nat.mod_add_div r w
    rw [Nat.mul_add]
    omega
  rw [Nat.mod_add_mod, hsum, Nat.add_mul_mod_self_left, Nat.mod_eq_of_lt hz]

/-- ρ moves the bit at `z` of lane `(x, y)` up by the lane's offset. -/
theorem stateBit_rho_moved {S : List Plane} {x y z : Nat} (hx : x < 5) (hy : y < 5) (hz : z < S.length) :
    stateBit (rho S) x y ((z + rhoOffset x y) % S.length) = stateBit S x y z := by
  rw [rho, stateBit_stateOf _ hx hy (Nat.mod_lt _ (by omega)), rotate_back hz]

theorem rho_of_length_one {S : List Plane} (h : S.length = 1) : rho S = S := by
  obtain ⟨p, rfl⟩ := List.length_eq_one_iff.1 h
  exact rho_singleton p

theorem rhoOrbit_lt (k : Nat) : (rhoOrbit k).1 < 5 ∧ (rhoOrbit k).2 < 5 := by
  induction k with
  | zero => decide
  | succ k ih => exact ⟨ih.2, Nat.mod_lt _ (by decide)⟩

theorem rhoOffset_rhoOrbit :
    ∀ k < 24, rhoOffset (rhoOrbit k).1 (rhoOrbit k).2 = (k + 1) * (k + 2) / 2 := by decide

theorem exists_rhoOrbit_eq : ∀ x < 5, ∀ y < 5, x = 0 ∧ y = 0 ∨ ∃ k < 24, rhoOrbit k = (x, y) := by decide

/-- Settles O13: every lane moves up by its offset, and the table of offsets is the recurrence's along the orbit. -/
theorem rhoRotatesEachLane : Obligations.RhoRotatesEachLane := by
  refine ⟨fun s h => ⟨_, rfl, stepOp_hasPlanes length_rho h, stepOp_planesWritten _ _, ?_⟩, exists_rhoOrbit_eq⟩
  simp only [bitOf, stepOp_stateValue, ← h.length_stateValue]
  refine ⟨fun z hz => ?_, fun k hk z hz => ?_, rho_of_length_one⟩
  · have hstay : (z + rhoOffset 0 0) % s.stateValue.length = z := Nat.mod_eq_of_lt hz
    rw [← stateBit_rho_moved (by decide) (by decide) hz, hstay]
  · obtain ⟨hx, hy⟩ := rhoOrbit_lt k
    rw [← rhoOffset_rhoOrbit k hk, stateBit_rho_moved hx hy hz]

/-! ## π -/

theorem stateBit_pi {S : List Plane} {x y z : Nat} (hx : x < 5) (hy : y < 5) (hz : z < S.length) :
    stateBit (pi S) x y z = stateBit S ((x + 3 * y) % 5) x z := stateBit_stateOf _ hx hy hz

/-- π moves lane `(x, y)` to `(y, (2x + 3y) mod 5)`. -/
theorem stateBit_pi_moved {S : List Plane} {x y z : Nat} (hx : x < 5) (hy : y < 5) (hz : z < S.length) :
    stateBit (pi S) y ((2 * x + 3 * y) % 5) z = stateBit S x y z := by
  have hback : (y + 3 * ((2 * x + 3 * y) % 5)) % 5 = x := by omega
  rw [stateBit_pi hy (Nat.mod_lt _ (by decide)) hz, hback]

/-- Settles O14: where a lane goes, where it comes from, and the first once more in bit numbers of the plane. -/
theorem piMovesLanes : Obligations.PiMovesLanes := by
  intro s h
  refine ⟨_, rfl, stepOp_hasPlanes length_pi h, stepOp_planesWritten _ _, fun x y z hx hy hz => ?_⟩
  rw [← h.length_stateValue] at hz
  simp only [bitOf, stepOp_stateValue]
  exact ⟨stateBit_pi_moved hx hy hz, stateBit_pi hx hy hz, stateBit_pi_moved hx hy hz,
    stateBit_pi (by decide) (by decide) hz⟩

end Sys2Proof.Machine
end

section
/-! χ on bits, rows and planes, and χ on lanes held complemented (41_steps.md R157 to R159). -/

namespace Sys2Proof.Machine

/-! ## χ on a plane and on the state -/

theorem planeBit_chiPlane (p : Plane) {x y : Nat} (hx : x < 5) (hy : y < 5) :
    planeBit (chiPlane p) x y =
      (planeBit p x y ^^ (!planeBit p ((x + 1) % 5) y && planeBit p ((x + 2) % 5) y)) := planeBit_planeOf _ hx hy

/-- χ in plane operations (41_steps.md R157). -/
theorem chiPlane_eq_prot (p : Plane) : chiPlane p = p ^^^ (prot (~~~p &&& m25) 4 &&& prot p 3) :=
  plane_ext fun x hx y hy => by
    have hx1 : (x + 1) % 5 < 5 := Nat.mod_lt _ (by decide)
    simp [planeBit_chiPlane p hx hy, hx, hy, hx1]

theorem getD_map_of_lt (f : Plane → Plane) {S : List Plane} {z : Nat} (hz : z < S.length) :
    (S.map f).getD z 0 = f (S.getD z 0) := by simp [List.getD_eq_getElem?_getD, hz]

/-- Settles O15: CHI is χ on each plane. -/
theorem chiCombinesRowNeighbours : Obligations.ChiCombinesRowNeighbours := by
  intro s h
  refine ⟨_, rfl, stepOp_hasPlanes length_chi h, stepOp_planesWritten _ _, fun z hz => ?_⟩
  rw [← h.length_stateValue] at hz
  have hplane : (chi s.stateValue).getD z 0 = chiPlane (s.stateValue.getD z 0) := getD_map_of_lt chiPlane hz
  simp only [bitOf, stateBit, stepOp_stateValue, hplane]
  exact ⟨fun x hx y hy => planeBit_chiPlane _ hx hy, chiPlane_eq_prot _⟩

/-! ## χ on a row (41_steps.md R158) -/

/-- χ on the five bits of a row. -/
def chiRow (r : BitVec 5) : BitVec 5 :=
  BitVec.ofFnLE fun x : Fin 5 => r.getLsbD x ^^ (!r.getLsbD ((x + 1) % 5) && r.getLsbD ((x + 2) % 5))

theorem getLsbD_chiRow (r : BitVec 5) {x : Nat} (hx : x < 5) :
    (chiRow r).getLsbD x = (r.getLsbD x ^^ (!r.getLsbD ((x + 1) % 5) && r.getLsbD ((x + 2) % 5))) := by
  simp [chiRow, hx]

theorem rowOf_chiPlane (p : Plane) {y : Nat} (hy : y < 5) : rowOf (chiPlane p) y = chiRow (rowOf p y) := by
  refine BitVec.eq_of_getLsbD_eq fun x hx => ?_
  have hx1 : (x + 1) % 5 < 5 := Nat.mod_lt _ (by decide)
  have hx2 : (x + 2) % 5 < 5 := Nat.mod_lt _ (by decide)
  rw [getLsbD_rowOf _ _ hx, planeBit_chiPlane p hx hy, getLsbD_chiRow _ hx, getLsbD_rowOf _ _ hx, getLsbD_rowOf _ _ hx1,
    getLsbD_rowOf _ _ hx2]

theorem chiRow_bijective : Function.Bijective chiRow := by
  refine Finite.injective_iff_bijective.1 fun q r h => ?_
  have hb : ∀ x < 5, (q.getLsbD x ^^ (!q.getLsbD ((x + 1) % 5) && q.getLsbD ((x + 2) % 5))) =
      (r.getLsbD x ^^ (!r.getLsbD ((x + 1) % 5) && r.getLsbD ((x + 2) % 5))) := fun x hx => by
    rw [← getLsbD_chiRow q hx, h, getLsbD_chiRow r hx]
  obtain ⟨h0, h1, h2, h3, h4⟩ := chi_row _ _ _ _ _ _ _ _ _ _ (hb 0 (by decide)) (hb 1 (by decide)) (hb 2 (by decide))
    (hb 3 (by decide)) (hb 4 (by decide))
  refine BitVec.eq_of_getLsbD_eq fun x hx => ?_
  interval_cases x <;> assumption

theorem chiRow_zero : chiRow 0 = 0 := by decide

theorem chiRow_ones : chiRow 0b11111#5 = 0b11111#5 := by decide

theorem plane_ext_rows {p q : Plane} (h : ∀ y < 5, rowOf p y = rowOf q y) : p = q :=
  plane_ext fun x hx y hy => by rw [← getLsbD_rowOf p y hx, h y hy, getLsbD_rowOf q y hx]

theorem chiPlane_of_constant_rows {p : Plane} (h : ∀ y < 5, rowOf p y = 0 ∨ rowOf p y = 0b11111#5) : chiPlane p = p :=
  plane_ext_rows fun y hy => by
    rw [rowOf_chiPlane p hy]
    obtain h0 | h1 := h y hy
    · rw [h0, chiRow_zero]
    · rw [h1, chiRow_ones]

/-- Settles O16: χ is `chiRow` on each row, a bijection that fixes the two constant rows. -/
theorem chiIsARowBijection : Obligations.ChiIsARowBijection := by
  refine ⟨⟨chiRow, chiRow_bijective, chiRow_zero, chiRow_ones, fun p y hy => rowOf_chiPlane p hy⟩, fun S hS => ?_⟩
  exact (List.map_congr_left fun p hp => chiPlane_of_constant_rows (hS p hp)).trans (List.map_id S)

/-! ## Lane-complemented χ (41_steps.md R159) -/

theorem chic_map_xor (a : List Plane) (mi mo : Plane) : chic (a.map (· ^^^ mi)) mi mo = (chi a).map (· ^^^ mo) := by
  simp [chic, chi, Function.comp_def]

/-- Settles O17: CHIC takes the input mask off each plane, applies χ and puts the output mask on. -/
theorem chicComputesMaskedChi : Obligations.ChicComputesMaskedChi := by
  intro s h
  have hpl : HasPlanes (s.noteReads [s.a, s.b]) := h
  refine ⟨_, rfl, stepOp_hasPlanes (fun v => length_chic v _ _) hpl, stepOp_planesWritten _ _,
    fun z hz x hx y hy => ?_, fun a ha => ?_⟩
  · rw [← h.length_stateValue] at hz
    have hplane : (chic s.stateValue s.a.value s.b.value).getD z 0 =
        chiPlane (s.stateValue.getD z 0 ^^^ s.a.value) ^^^ s.b.value :=
      getD_map_of_lt (fun p => chiPlane (p ^^^ s.a.value) ^^^ s.b.value) hz
    simp only [bitOf, stateBit, stepOp_stateValue, State.noteReads_stateValue, hplane, planeBit_xor,
      planeBit_chiPlane _ hx hy]
  · rw [stepOp_stateValue, State.noteReads_stateValue, ha, chic_map_xor]

end Sys2Proof.Machine
end

section
/-! ι and its round constants (41_steps.md R161 to R163). -/

namespace Sys2Proof.Machine

/-! ## ι -/

theorem stateBit_iota (i : Nat) {S : List Plane} {x y z : Nat} (hx : x < 5) (hy : y < 5) (hz : z < S.length) :
    stateBit (iota i S) x y z = (stateBit S x y z ^^ (x == 0 && y == 0 && roundConstantBit i z)) :=
  stateBit_stateOf _ hx hy hz

/-- The places `2^j - 1` are all different, so that the `j` found is the one meant. -/
theorem find?_place : ∀ j < 7, ((List.range 7).find? fun k => 2 ^ j - 1 == 2 ^ k - 1) = some j := by decide

theorem roundConstantBit_place (i : Nat) {j : Nat} (hj : j < 7) : roundConstantBit i (2 ^ j - 1) = rc (j + 7 * i) := by
  rw [roundConstantBit, find?_place j hj]

theorem roundConstantBit_of_no_place (i : Nat) {z : Nat} (h : ∀ j < 7, z ≠ 2 ^ j - 1) : roundConstantBit i z = false := by
  have hnone : ((List.range 7).find? fun j => z == 2 ^ j - 1) = none := by simpa using h
  rw [roundConstantBit, hnone]

/-- The place of a `j` is a plane of the build exactly if `j` is at most LOGW. -/
theorem place_lt_lanes_iff (b : Build) (j : Nat) : 2 ^ j - 1 < b.lanes ↔ j ≤ b.logw.val := by
  have hpos : 0 < 2 ^ j := Nat.two_pow_pos j
  rw [Build.lanes, ← Nat.pow_le_pow_iff_right (a := 2) (by decide)]
  omega

/-- Settles O18: ι adds the round constant to lane (0,0), whose bits are at the places `2^j - 1`. -/
theorem iotaInjectsTheRoundConstant : Obligations.IotaInjectsTheRoundConstant := by
  intro s i h
  refine ⟨_, rfl, stepOp_hasPlanes (length_iota i) h, stepOp_planesWritten _ _, ?_⟩
  have hbit : ∀ x < 5, ∀ y < 5, ∀ z < s.build.lanes, bitOf (stepOp (iota i) s) x y z =
      (bitOf s x y z ^^ (x == 0 && y == 0 && roundConstantBit i z)) := fun x hx y hy z hz => by
    rw [bitOf, stepOp_stateValue]
    exact stateBit_iota i hx hy (h.length_stateValue ▸ hz)
  refine ⟨fun j hj => ?_, fun z hz hno => ?_, fun x hx y hy hne z hz => ?_⟩
  · rw [hbit 0 (by decide) 0 (by decide) _ ((place_lt_lanes_iff _ j).2 hj), roundConstantBit_place i (by omega)]
    rfl
  · have hnone : ∀ j < 7, z ≠ 2 ^ j - 1 := fun j _ he =>
      hno j ((place_lt_lanes_iff s.build j).1 (he ▸ hz)) he
    rw [hbit 0 (by decide) 0 (by decide) z hz, roundConstantBit_of_no_place i hnone]
    exact Bool.xor_false _
  · have hlane : (x == 0 && y == 0) = false := by simpa using hne
    rw [hbit x hx y hy z hz, hlane]
    exact Bool.xor_false _

/-! ## The round constants -/

/-- The bits of the round-constant register in order, `R[0..7]`. -/
def registerBits (r : BitVec 8) : List Bool := (List.range 8).map r.getLsbD

theorem registerBits_lfsrStep (r : BitVec 8) :
    registerBits (lfsrStep r) =
      [r.getLsbD 7, r.getLsbD 0, r.getLsbD 1, r.getLsbD 2, r.getLsbD 3 ^^ r.getLsbD 7, r.getLsbD 4 ^^ r.getLsbD 7,
        r.getLsbD 5 ^^ r.getLsbD 7, r.getLsbD 6] := by
  unfold lfsrStep
  cases r.getLsbD 7 <;> simp [registerBits, List.range_succ]

/-- The register as a vector of bits is the shift register that the spec's loop turns (41_steps.md R162). -/
theorem rcRegister_eq_registerBits (n : Nat) : rcRegister n = registerBits (lfsr n) := by
  induction n with
  | zero => decide
  | succ n ih =>
    rw [lfsr, registerBits_lfsrStep, rcRegister, ih]
    simp [registerBits, List.range_succ]

theorem rc_eq_rcRegister (t : Nat) :
    rc t = (if t % 255 = 0 then true else (rcRegister (t % 255)).getD 0 false) := by
  rw [rcRegister_eq_registerBits]
  rfl

theorem rc_add_periods (t k : Nat) : rc (t + 255 * k) = rc t := by
  simp only [rc, Nat.add_mul_mod_self_left]

/-- A round index counts modulo 255. -/
theorem roundConstantBit_add_period (i z : Nat) : roundConstantBit (i + 255) z = roundConstantBit i z := by
  have hindex : ∀ j, j + 7 * (i + 255) = j + 7 * i + 255 * 7 := by omega
  simp only [roundConstantBit, hindex, rc_add_periods]

/-- Every bit of the table of 41_steps.md R163. -/
theorem roundConstantBit_table :
    ∀ i < 24, ∀ z < 64, roundConstantBit i z = (roundConstants64.getD i 0).getLsbD z := by decide +kernel

/-- Index 24, the first past the table (95_test_vectors.md V-W9). -/
theorem roundConstantBit_24 : ∀ z < 64, roundConstantBit 24 z = (0x8000000080008082#64).getLsbD z := by decide +kernel

/-- Settles O19: `rc` is the shift register's, and the constants are the table's. -/
theorem roundConstantsAgreeWithTheTable : Obligations.RoundConstantsAgreeWithTheTable := by
  refine ⟨fun t => ⟨rc_eq_rcRegister t, rc_add_periods t 1⟩, fun i hi => ⟨roundConstantBit_table i hi, ?_⟩,
    fun z hz => ⟨roundConstantBit_24 z hz, ?_⟩⟩
  · rw [← roundConstantBit_zero, roundConstantBit_table i hi 0 (by decide)]
  · exact (roundConstantBit_add_period 0 z).trans (roundConstantBit_table 0 (by decide) z hz)

end Sys2Proof.Machine
end

section
/-! ROUND and PERM as compositions of the steps, and the table form of the permutation (42_rounds.md R180 to R185;
43_lut.md R214). -/

namespace Sys2Proof.Machine

/-! ## Rounds (42_rounds.md R180) -/

/-- Two step commands in a row are the step command of the composed function: the first marks every plane written, so the
second records no unwritten read (10_state.md R44). -/
theorem stepOp_stepOp (f g : List Plane → List Plane) (s : State) :
    stepOp g (stepOp f s) = stepOp (fun v => g (f v)) s := by
  have hread : (stepOp g (stepOp f s)).unwrittenRead = (stepOp f s).unwrittenRead := by
    have hnone : ((stepOp f s).planes.any fun q => !q.written) = false :=
      List.any_eq_false.2 fun q hq => by simp [stepOp_planesWritten f s q hq]
    rw [stepOp_unwrittenRead g, hnone, Bool.or_false]
  calc stepOp g (stepOp f s)
      = { stepOp (fun v => g (f v)) s with unwrittenRead := (stepOp g (stepOp f s)).unwrittenRead } := by
        rw [stepOp, stepOp_stateValue]; rfl
    _ = stepOp (fun v => g (f v)) s := by rw [hread]; rfl

/-- Settles O21: the five step commands compose to the round function. -/
theorem roundIsTheFiveSteps : Obligations.RoundIsTheFiveSteps := by
  intro s i
  have hround : stepOp (roundI i) s = stepOp (iota i) (stepOp chi (stepOp pi (stepOp rho (stepOp theta s)))) := by
    simp only [stepOp_stepOp]
    rfl
  exact ⟨_, _, _, _, _, _, rfl, rfl, rfl, rfl, rfl, rfl, congrArg State.stateValue hround, hround⟩

/-! ## The permutation (42_rounds.md R181) -/

theorem perm_eq_foldl (base n : Nat) (S : List Plane) :
    perm base n S = (List.range n).foldl (fun S k => roundI (k + base) S) S := by
  induction n with
  | zero => rfl
  | succ n ih => rw [perm, ih, List.range_succ, List.foldl_concat]

/-- Settles O22: PERM is `perm` on the state register, and `perm` is the fold of the round over the rising indices. -/
theorem permRunsTheRoundsInOrder : Obligations.PermRunsTheRoundsInOrder := by
  intro s
  refine ⟨_, rfl, stepOp_planesWritten _ _, ?_, fun hnr => ?_⟩
  · rw [stepOp_stateValue, perm_eq_foldl]
    rfl
  · rw [stepOp_stateValue, hnr]
    rfl

/-! ## EVAL with the generated table (43_lut.md R214) -/

theorem genEntry_of_roundNoIota {build : Build} (hmode : build.mode = .roundNoIota) (nr : BitVec 8) (p : Plane) :
    genEntry build nr p = roundNoIota p := by simp [genEntry, hmode]

theorem genEntry_of_fullPermutation {build : Build} (hmode : build.mode = .fullPermutation) (nr : BitVec 8) (p : Plane) :
    genEntry build nr p = permPlane build.roundIndexBase nr.toNat p := by simp [genEntry, hmode]

theorem evaluate_of_roundNoIota {s : State} (hmode : s.build.mode = .roundNoIota) (p : Plane) :
    evaluate s p = lookupRounds s s.tnr.toNat p := by simp [evaluate, hmode]

theorem evaluate_of_fullPermutation {s : State} (hmode : s.build.mode = .fullPermutation) (p : Plane) :
    evaluate s p = s.tblRead p := by simp [evaluate, hmode]

/-- With the round without ι in the table, a lookup and the round constant make one round. -/
theorem lookupRounds_eq_permPlane {s : State} (htbl : ∀ i : Plane, s.tblRead i = roundNoIota i) (n : Nat) (p : Plane) :
    lookupRounds s n p = permPlane s.build.roundIndexBase n p := by
  induction n with
  | zero => rfl
  | succ n ih => rw [lookupRounds, permPlane, ih, htbl, iotaMask]

/-- With the generated table `Evaluate` is the permutation of TNR rounds in either mode (43_lut.md R214). -/
theorem evaluate_eq_permPlane {s : State} (htbl : ∀ i : Plane, s.tblRead i = genEntry s.build s.tnr i) (p : Plane) :
    evaluate s p = permPlane s.build.roundIndexBase s.tnr.toNat p := by
  cases hmode : s.build.mode with
  | roundNoIota =>
    have hround : ∀ i : Plane, s.tblRead i = roundNoIota i := fun i =>
      (htbl i).trans (genEntry_of_roundNoIota hmode s.tnr i)
    rw [evaluate_of_roundNoIota hmode, lookupRounds_eq_permPlane hround]
  | fullPermutation => rw [evaluate_of_fullPermutation hmode, htbl, genEntry_of_fullPermutation hmode]

theorem State.stateValue_writePlane (s : State) (z : Nat) (p : Plane) :
    (s.writePlane z p).stateValue = s.stateValue.set z p := List.map_set

/-- The state register of a narrow build is its one plane (10_state.md R32). -/
theorem HasPlanes.stateValue_of_narrow {s : State} (h : HasPlanes s) (hlogw : s.build.logw = 0) :
    s.stateValue = [(s.plane 0).value] := by
  have hone : s.planes.length = 1 := by rw [h, Build.lanes, hlogw]; rfl
  obtain ⟨q, hq⟩ := List.length_eq_one_iff.1 hone
  simp [State.stateValue, State.plane, hq]

/-- Settles O31: EVAL evaluates the one plane of the narrow build, which is the permutation of TNR rounds on it; PERM runs
CTRL.NR rounds. -/
theorem evalAgreesWithPerm : Obligations.EvalAgreesWithPerm := by
  intro s hlogw htab hplanes htbl
  have heval : ((s.noteReads [s.plane 0]).writePlane 0 (evaluate s (s.plane 0).value)).stateValue =
      perm s.build.roundIndexBase s.tnr.toNat s.stateValue := by
    rw [State.stateValue_writePlane, State.noteReads_stateValue, hplanes.stateValue_of_narrow hlogw, perm_singleton,
      evaluate_eq_permPlane htbl]
    rfl
  refine ⟨_, exec_eval_of_tab (State.hasLut_iff.2 hlogw) htab, heval, fun hnr => ⟨_, rfl, ?_⟩⟩
  rw [stepOp_stateValue, heval, hnr]

end Sys2Proof.Machine
end

section
/-! CONSTRUCT and SAVE: the table each retrieval gives, the image a save leaves in the store, and that a saved table comes
back after a reset (43_lut.md R204 to R208, R215, R216; 20_memory.md R81, R82, R85 to R87). -/

namespace Sys2Proof.Machine

/-! ## The effect of a table command where it raises no error -/

theorem exec_construct_of_untab {s : State} (hlut : s.hasLut = true) (htab : s.tab = false) :
    exec .construct s = .next (constructTable s.nr s) := by
  simp [exec, execConstruct, hlut, htab]

theorem exec_save_of_tab {s : State} (hlut : s.hasLut = true) (htab : s.tab = true) :
    exec .save s = .next (saveTable s) := by
  simp [exec, execSave, hlut, htab]

/-! ## The table of a retrieval (43_lut.md R204 to R208) -/

/-- Every index of the table memory is one of its `2^25` entries (20_memory.md R70). -/
theorem toNat_lt_entryCount (i : Plane) : i.toNat < entryCount := i.isLt

theorem State.tblRead_tabulate (s : State) (nr : BitVec 8) (tbl : List (Nat × Plane)) (c : CstCode) (i : Plane) :
    (s.tabulate nr tbl c).tblRead i = Memory.read (tblFill s.build nr) tbl i.toNat := rfl

theorem State.tblRead_tabulate_nil (s : State) (nr : BitVec 8) (c : CstCode) (i : Plane) :
    (s.tabulate nr [] c).tblRead i = genEntry s.build nr i := State.tblRead_of_unlisted rfl i

/-- Where no image is kept, a retrieve takes no draw (20_memory.md R80). -/
theorem State.afterRetrieve_of_absent {s : State} {nr : BitVec 8} (hi : s.storedImage nr = none) :
    s.afterRetrieve nr = s := by
  simp [State.afterRetrieve, hi]

theorem constructTable_of_absent {s : State} {nr : BitVec 8} (hi : s.storedImage nr = none) :
    constructTable nr s = (s.afterSave nr (encodeImage s.build nr [])).tabulate nr []
      (if s.saveSucceeds then .generated else .storageError) := by
  simp [constructTable, State.retrieve, hi, State.afterRetrieve_of_absent hi]

theorem constructTable_of_valid {s : State} {nr : BitVec 8} {tbl : List (Nat × Plane)} (h : s.retrieve nr = .valid tbl) :
    constructTable nr s = (s.afterRetrieve nr).tabulate nr tbl .hit := by
  simp [constructTable, h]

theorem constructTable_of_corrupt {s : State} {nr : BitVec 8} (h : s.retrieve nr = .corrupt) :
    constructTable nr s = (s.afterRetrieve nr).tabulate nr [] .corrupt := by
  simp [constructTable, h]

section
variable {s : State} {nr : BitVec 8} {img : Image}

/-- An image that is read and passes the five checks gives its own entries (20_memory.md R87). -/
theorem State.retrieve_of_validBytes (hs : s.storeWf = true) (hi : s.storedImage nr = some img)
    (hf : s.nextReadFailure = false) (hv : validBytes s.build.mode nr img.len (img.byte s.build nr)) :
    ∃ tbl, s.retrieve nr = .valid tbl ∧
      ∀ i < entryCount, Memory.read (tblFill s.build nr) tbl i = tableOfBytes (img.byte s.build nr) i := by
  have hw := State.storedImage_wf hs hi
  obtain ⟨tbl, htbl⟩ := Option.isSome_iff_exists.1 ((validateImage_isSome_iff hw).2 hv)
  exact ⟨tbl, by simp [State.retrieve, hi, hf, htbl], (validateImage_some hw htbl).2⟩

/-- An image that is not read or fails one of the five checks is CORRUPT (43_lut.md R204). -/
theorem State.retrieve_of_bad (hs : s.storeWf = true) (hi : s.storedImage nr = some img)
    (hbad : s.nextReadFailure = true ∨ ¬validBytes s.build.mode nr img.len (img.byte s.build nr)) :
    s.retrieve nr = .corrupt := by
  obtain ⟨hnone, -⟩ | ⟨img', tbl, hi', hf, hv, -⟩ | ⟨-, -, -, hr⟩ := s.retrieve_cases nr
  · rw [hi] at hnone; cases hnone
  · obtain rfl := Option.some.inj (hi.symm.trans hi')
    have hvalid := (validateImage_isSome_iff (State.storedImage_wf hs hi)).1 (by rw [hv]; rfl)
    exact absurd hbad (by simp [hf, hvalid])
  · exact hr

end

/-! ## The image a save leaves (20_memory.md R81, R86) -/

theorem State.saveSucceeds_iff {s : State} : s.saveSucceeds = true ↔ s.nextSaveAnswer = .ok := by
  unfold State.saveSucceeds
  cases s.nextSaveAnswer <;> simp

/-- After a save that answers `Ok` the store keeps the image under its key. -/
theorem State.storedImage_afterSave_same {s : State} (hs : s.storeWf = true) (hok : s.nextSaveAnswer = .ok)
    (nr : BitVec 8) (img : Image) : (s.afterSave nr img).storedImage nr = some img := by
  rw [State.afterSave, hok]
  exact State.storedImage_storeContent_same (s := s.takeSaveDraw) hs nr (some img)

/-- The format looks at the table's `2^25` entries only. -/
theorem encodeByte_congr {mode : TableMode} {nr : BitVec 8} {T U : Nat → Plane} (h : ∀ i < entryCount, T i = U i)
    (o : Nat) : encodeByte mode nr T o = encodeByte mode nr U o := by
  have hentry : ∀ k < checkIndex, k ≠ 0 → k ≠ 1 → T (k - 2) = U (k - 2) := fun k hk h0 h1 =>
    h _ (by rw [checkIndex_eq] at hk; omega)
  have hcheck : xorEntries (fun i => (T i).setWidth 32) entryCount = xorEntries (fun i => (U i).setWidth 32) entryCount :=
    xorEntries_congr fun i hi => by rw [h i hi]
  simp only [encodeByte, encodeWord, hcheck]
  split_ifs with h0 h1 hk hc
  · rfl
  · rfl
  · rw [hentry _ hk h0 h1]
  · rfl
  · rfl

/-- The image a save of a canonical table leaves on `Ok` is, byte for byte, the encoding of the table's entries. -/
theorem State.storedImage_afterSave_encode {s : State} (hs : s.storeWf = true) (hok : s.nextSaveAnswer = .ok)
    {nr : BitVec 8} {tbl : List (Nat × Plane)} (ht : Memory.wf (tblFill s.build nr) entryCount tbl = true)
    {T : Nat → Plane} (hT : ∀ i < entryCount, Memory.read (tblFill s.build nr) tbl i = T i) :
    ∃ img, (s.afterSave nr (encodeImage s.build nr tbl)).storedImage nr = some img ∧ img.len = imageLength ∧
      ∀ o < imageLength, img.byte s.build nr o = encodeByte s.build.mode nr T o := by
  obtain ⟨hlen, -, hbyte⟩ := sparseEncoderWritesTheFormat s.build nr tbl ht
  exact ⟨_, State.storedImage_afterSave_same hs hok nr _, hlen, fun o ho => (hbyte o ho).trans (encodeByte_congr hT o)⟩

/-- Entry `i` of the table memory, read by its index. -/
theorem State.tblRead_ofNat (s : State) {i : Nat} (hi : i < entryCount) :
    s.tblRead (BitVec.ofNat 25 i) = Memory.read (tblFill s.build s.tnr) s.tbl i := by
  rw [State.tblRead, BitVec.toNat_ofNat, Nat.mod_eq_of_lt (show i < 2 ^ 25 from hi)]

theorem saveTable_cst (s : State) : (saveTable s).cst = if s.saveSucceeds then .saved else .storageError := rfl

theorem saveTable_sameTable (s : State) : SameTable s (saveTable s) :=
  State.tblRead_congr (saveTable_frame s).build (saveTable_tnr s) (saveTable_tbl s)

/-- After a SAVE that answers `Ok` the store keeps the image of the table in memory (43_lut.md R215). -/
theorem saveTable_storedImage {s : State} (ht : s.tblWf = true) (hs : s.storeWf = true) (hok : s.nextSaveAnswer = .ok) :
    ∃ img, (saveTable s).storedImage s.tnr = some img ∧ img.len = imageLength ∧
      ∀ o < imageLength, img.byte s.build s.tnr o =
        encodeByte s.build.mode s.tnr (fun i => s.tblRead (BitVec.ofNat 25 i)) o :=
  State.storedImage_afterSave_encode hs hok ht fun _ hi => (s.tblRead_ofNat hi).symm

/-! ## The statements about CONSTRUCT and SAVE -/

/-- Settles O25: CONSTRUCT saves and tabulates the table that lists nothing, which is the generated one. -/
theorem constructGeneratesWhenAbsent : Obligations.ConstructGeneratesWhenAbsent := by
  intro s hlogw htab hs hi
  refine ⟨_, exec_construct_of_untab (State.hasLut_iff.2 hlogw) htab, ?_⟩
  rw [constructTable_of_absent hi]
  refine ⟨rfl, rfl, fun i => by simp [State.tblRead_tabulate_nil], fun hok => ⟨?_, ?_⟩, fun hne => ?_⟩
  · exact if_pos (State.saveSucceeds_iff.2 hok)
  · exact State.storedImage_afterSave_encode hs hok (Memory.wf_nil _ _) fun _ _ => rfl
  · exact if_neg (mt State.saveSucceeds_iff.1 hne)

/-- Settles O26: the retrieve gives the entries of the image, and CONSTRUCT tabulates them. -/
theorem constructLoadsAWellFormedImage : Obligations.ConstructLoadsAWellFormedImage := by
  intro s img hlogw htab hs hi hf hv
  obtain ⟨tbl, hr, hread⟩ := State.retrieve_of_validBytes hs hi hf hv
  refine ⟨_, exec_construct_of_untab (State.hasLut_iff.2 hlogw) htab, ?_⟩
  rw [constructTable_of_valid hr]
  refine ⟨rfl, rfl, rfl, State.storedImage_congr (by simp), fun i => ?_⟩
  rw [State.tblRead_tabulate, State.afterRetrieve_build]
  exact hread _ (toNat_lt_entryCount i)

/-- Settles O27: the retrieve is CORRUPT, and CONSTRUCT tabulates the table that lists nothing without a save. -/
theorem constructReportsACorruptImage : Obligations.ConstructReportsACorruptImage := by
  intro s img hlogw htab hs hi hbad
  refine ⟨_, exec_construct_of_untab (State.hasLut_iff.2 hlogw) htab, ?_⟩
  rw [constructTable_of_corrupt (State.retrieve_of_bad hs hi hbad)]
  refine ⟨rfl, rfl, rfl, State.storedImage_congr (by simp), fun i => by simp [State.tblRead_tabulate_nil]⟩

/-- Settles O32: SAVE stores the encoding of the table in memory. -/
theorem saveWritesTheTablesImage : Obligations.SaveWritesTheTablesImage := by
  intro s hlogw htab ht hs
  refine ⟨_, exec_save_of_tab (State.hasLut_iff.2 hlogw) htab, fun hok => ⟨?_, saveTable_storedImage ht hs hok⟩,
    fun hne => ?_, saveTable_sameTable s⟩
  · rw [saveTable_cst, if_pos (State.saveSucceeds_iff.2 hok)]
  · rw [saveTable_cst, if_neg (mt State.saveSucceeds_iff.1 hne)]

/-! ## The frame -/

/-- A retrieve changes nothing but the draws about reads. -/
theorem State.exists_afterRetrieve_eq (s : State) (nr : BitVec 8) :
    ∃ draws n, s.afterRetrieve nr = { s with retrieveDraws := draws, asked := n } := by
  unfold State.afterRetrieve
  split <;> exact ⟨_, _, rfl⟩

/-- A save changes nothing but the store and the draws about saves. -/
theorem State.exists_afterSave_eq (s : State) (nr : BitVec 8) (img : Image) :
    ∃ store draws n, s.afterSave nr img = { s with store := store, saveDraws := draws, asked := n } := by
  unfold State.afterSave
  split
  · exact ⟨_, _, _, rfl⟩
  · next left _ => cases left <;> exact ⟨_, _, _, rfl⟩

theorem constructTable_storedImage_other (s : State) {nr key : BitVec 8} (hk : key ≠ nr) :
    (constructTable nr s).storedImage key = s.storedImage key := by
  have hr : (s.afterRetrieve nr).storedImage key = s.storedImage key := State.storedImage_congr (by simp) key
  obtain ⟨tbl, -, hc⟩ | ⟨-, hc⟩ | ⟨-, hc⟩ := constructTable_cases nr s <;> rw [hc]
  · exact hr
  · exact hr
  · exact (State.storedImage_afterSave_other _ hk _).trans hr

/-- CONSTRUCT changes nothing but the table with its status, the store and the draws. -/
theorem constructTable_eq (nr : BitVec 8) (s : State) :
    constructTable nr s = { s with
      tbl := (constructTable nr s).tbl, tnr := (constructTable nr s).tnr, tab := (constructTable nr s).tab,
      cst := (constructTable nr s).cst, store := (constructTable nr s).store,
      retrieveDraws := (constructTable nr s).retrieveDraws, saveDraws := (constructTable nr s).saveDraws,
      asked := (constructTable nr s).asked } := by
  obtain ⟨reads, n, hr⟩ := s.exists_afterRetrieve_eq nr
  obtain ⟨tbl, -, hc⟩ | ⟨-, hc⟩ | ⟨-, hc⟩ := constructTable_cases nr s
  · rw [hc, hr]; rfl
  · rw [hc, hr]; rfl
  · obtain ⟨store, saves, m, hs⟩ := (s.afterRetrieve nr).exists_afterSave_eq nr (encodeImage s.build nr [])
    rw [hc, hs, hr]; rfl

/-- SAVE changes nothing but CST, the store and the draws about saves. -/
theorem saveTable_eq (s : State) :
    saveTable s = { s with
      cst := (saveTable s).cst, store := (saveTable s).store, saveDraws := (saveTable s).saveDraws,
      asked := (saveTable s).asked } := by
  obtain ⟨store, saves, n, hs⟩ := s.exists_afterSave_eq s.tnr s.tableImage
  rw [saveTable, hs]

/-- Settles O28: the two effects change their own fields and the image under one key. -/
theorem constructAndSaveFrame : Obligations.ConstructAndSaveFrame := by
  refine fun s t => ⟨fun h htab hlogw => ?_, fun h htab hlogw => ?_⟩
  · obtain rfl := Host.Outcome.next.inj ((exec_construct_of_untab (State.hasLut_iff.2 hlogw) htab).symm.trans h)
    exact ⟨constructTable_eq s.nr s, fun _ hk => constructTable_storedImage_other s hk⟩
  · obtain rfl := Host.Outcome.next.inj ((exec_save_of_tab (State.hasLut_iff.2 hlogw) htab).symm.trans h)
    exact ⟨saveTable_eq s, saveTable_sameTable s, fun _ hk => s.storedImage_afterSave_other hk _⟩

/-! ## The round trip across a reset -/

section
variable {f g : Nat → Byte} (h : ∀ o < imageLength, f o = g o)
include h

/-- The words of an image are made of the bytes below its length (20_memory.md R85). -/
theorem wordAt_congr_of_imageLength {k : Nat} (hk : k < checkIndex + 1) : wordAt f k = wordAt g k :=
  wordAt_congr fun j hj => h _ (by rw [imageLength_eq]; omega)

theorem tableOfBytes_congr {i : Nat} (hi : i < entryCount) : tableOfBytes f i = tableOfBytes g i := by
  rw [tableOfBytes, wordAt_congr_of_imageLength h (by rw [checkIndex_eq]; omega), tableOfBytes]

/-- The five checks look at the bytes below the image's length only (20_memory.md R87). -/
theorem validBytes_congr {mode : TableMode} {nr : BitVec 8} (hg : validBytes mode nr imageLength g) :
    validBytes mode nr imageLength f := by
  have hword : ∀ k < checkIndex + 1, wordAt f k = wordAt g k := fun _ => wordAt_congr_of_imageLength h
  have hentry : ∀ i < entryCount, wordAt f (i + 2) = wordAt g (i + 2) := fun i hi =>
    hword _ (by rw [checkIndex_eq]; omega)
  have h0 := hword 0 (by decide)
  have h1 := hword 1 (by decide)
  have hcheck := hword checkIndex (by omega)
  obtain ⟨hlen, hcount, hdesc, htop, hxor⟩ := hg
  rw [← h0] at hcount hxor
  rw [← h1] at hdesc hxor
  rw [← hcheck, ← xorEntries_congr hentry] at hxor
  exact ⟨hlen, hcount, hdesc, fun i hi => (hentry i hi).symm ▸ htop i hi, hxor⟩

end

/-- With no command pending and no change by the platform a reset is the engine's own (70_reset_and_hazards.md R293). -/
theorem resetStep_of_idle {s : State} (hp : s.pend = none) : resetStep [] s = s.resetEngine := by
  simp [resetStep, State.editStore, State.abandon, State.pendingSave, hp]

/-- Settles O38: the image that SAVE leaves stays in the store across the reset, is valid, and holds the table's entries. -/
theorem saveResetConstructRestoresTheTable : Obligations.SaveResetConstructRestoresTheTable := by
  intro s hwf hlogw htab hok
  have hinv := State.wf_iff.1 hwf
  refine ⟨_, exec_save_of_tab (State.hasLut_iff.2 hlogw) htab, ?_⟩
  rw [resetStep_of_idle rfl]
  intro u hf
  have hbuild : u.build = s.build := (saveTable_frame s).build
  have hnr : u.nr = s.tnr := by
    rw [writeCtrl_nr, BitVec.setWidth_setWidth_of_le _ (by decide), BitVec.setWidth_eq]
  have hs : u.storeWf = true := (State.storeWf_congr (s := saveTable s) rfl rfl).trans (saveTable_storeWf hinv.store)
  obtain ⟨img, hi, hlen, hbyte⟩ := saveTable_storedImage hinv.tbl hinv.store hok
  obtain ⟨hvalid, hentries⟩ :=
    encodedTablesValidate s.build.mode s.tnr (fun i => s.tblRead (BitVec.ofNat 25 i))
  rw [← hbuild, ← hnr] at hbyte hvalid hentries
  obtain ⟨v, hv, -, htnr, hcst, -, hread⟩ := constructLoadsAWellFormedImage u img (hbuild ▸ hlogw) rfl hs
    (hnr ▸ hi) hf (hlen ▸ validBytes_congr hbyte hvalid)
  refine ⟨v, hv, hcst, htnr.trans hnr, fun i => ?_⟩
  have hlt := toNat_lt_entryCount i
  rw [hread, tableOfBytes_congr hbyte hlt, hentries _ hlt, BitVec.ofNat_toNat, BitVec.setWidth_eq]

end Sys2Proof.Machine
end

section
/-! EVAL and TREAD: the value read from the table in memory, and what the commands leave unchanged (43_lut.md R210 to R213,
R217; 10_state.md R44). -/

namespace Sys2Proof.Machine

/-! ## The value of EVAL (43_lut.md R210, R213) -/

theorem setWidth_ofBool (b : Bool) : (BitVec.ofBool b).setWidth 25 = if b then 1#25 else 0#25 := by
  cases b <;> rfl

/-- The loop of R210: a lookup and the round constant for each `k` in order. -/
theorem lookupRounds_eq_foldl (s : State) (n : Nat) (p : Plane) :
    lookupRounds s n p = (List.range n).foldl
      (fun p k => s.tblRead p ^^^ (if rc (7 * (k + s.build.roundIndexBase)) then 1#25 else 0#25)) p := by
  induction n with
  | zero => rfl
  | succ n ih =>
    rw [List.range_succ, List.foldl_append, ← ih, lookupRounds, setWidth_ofBool]
    rfl

/-- `Evaluate` looks at the build, TNR and TBL only. -/
theorem evaluate_congr {s t : State} (hb : t.build = s.build) (hn : t.tnr = s.tnr) (ht : t.tbl = s.tbl) (p : Plane) :
    evaluate t p = evaluate s p := by
  have hread : t.tblRead = s.tblRead := funext (State.tblRead_congr hb hn ht)
  unfold evaluate
  rw [hb, hn, hread]
  cases s.build.mode with
  | roundNoIota => exact (lookupRounds_eq_foldl t _ p).trans (by rw [hread, hb, lookupRounds_eq_foldl])
  | fullPermutation => rfl

/-- A table of 0 rounds evaluates to the identity; in RoundNoIota the loop runs zero times, whatever the table holds
(43_lut.md R213). -/
theorem evaluate_of_tnr_zero {s : State} (hn : s.tnr = 0)
    (hgen : s.build.mode = .fullPermutation → ∀ i : Plane, s.tblRead i = genEntry s.build 0 i) (p : Plane) :
    evaluate s p = p := by
  cases hmode : s.build.mode with
  | roundNoIota =>
    rw [evaluate_of_roundNoIota hmode, hn]
    rfl
  | fullPermutation =>
    rw [evaluate_of_fullPermutation hmode, hgen hmode, genEntry_of_fullPermutation hmode]
    rfl

/-! ## The state after EVAL -/

/-- The state after an EVAL that raises no error (43_lut.md R210). -/
def afterEval (s : State) : State := (s.noteReads [s.plane 0]).writePlane 0 (evaluate s (s.plane 0).value)

theorem exec_eval_eq_afterEval {s : State} (hlogw : s.build.logw = 0) (htab : s.tab = true) :
    exec .eval s = .next (afterEval s) := exec_eval_of_tab (State.hasLut_iff.2 hlogw) htab

theorem afterEval_eq (s : State) :
    afterEval s = { s with planes := (afterEval s).planes, unwrittenRead := (afterEval s).unwrittenRead } := rfl

theorem afterEval_tableFrame (s : State) : TableFrame s (afterEval s) :=
  (noteReads_tableFrame s _).trans (writePlane_tableFrame _ _ _)

theorem afterEval_stateValue (s : State) :
    (afterEval s).stateValue = s.stateValue.set 0 (evaluate s (s.plane 0).value) :=
  State.stateValue_writePlane (s.noteReads [s.plane 0]) 0 _

theorem afterEval_plane_zero {s : State} (hpos : 0 < s.planes.length) :
    (afterEval s).plane 0 = PlaneReg.filled (evaluate s (s.plane 0).value) :=
  State.plane_writePlane_same (s.noteReads [s.plane 0]) hpos _

theorem afterEval_plane_other (s : State) {z : Nat} (hz : z ≠ 0) : (afterEval s).plane z = s.plane z :=
  State.plane_writePlane_other (s.noteReads [s.plane 0]) hz _

/-- A state without the plane has the reset value there. -/
theorem State.plane_of_length_le {s : State} {z : Nat} (hz : s.planes.length ≤ z) : s.plane z = PlaneReg.atReset :=
  List.getD_eq_default _ _ hz

/-- EVAL gives the same value in two states with the same table and the same `S[0]`. -/
theorem afterEval_plane_zero_congr {s t : State} (hf : TableFrame s t)
    (hp : 0 < s.planes.length → (t.plane 0).value = (s.plane 0).value) :
    ((afterEval t).plane 0).value = ((afterEval s).plane 0).value := by
  obtain hzero | hpos := Nat.eq_zero_or_pos s.planes.length
  · rw [State.plane_of_length_le (((afterEval_tableFrame t).planes.trans (hf.planes.trans hzero)).le),
      State.plane_of_length_le (((afterEval_tableFrame s).planes.trans hzero).le)]
  · rw [afterEval_plane_zero hpos, afterEval_plane_zero (hf.planes ▸ hpos), hp hpos,
      evaluate_congr hf.build hf.tnr hf.tbl]

theorem HasPlanes.length_pos {s : State} (h : HasPlanes s) : 0 < s.planes.length := by
  rw [h]
  exact Nat.two_pow_pos _

/-! ## The statements about EVAL and TREAD -/

/-- Settles O29: EVAL writes `Evaluate` of `S[0]`, in the mode of the build, to `S[0]`. -/
theorem evalIteratesLookups : Obligations.EvalIteratesLookups := by
  intro s hlogw htab hplanes
  have hplane := afterEval_plane_zero hplanes.length_pos
  refine ⟨_, exec_eval_eq_afterEval hlogw htab, (afterEval_tableFrame s).planes.trans hplanes, ?_, fun hmode => ?_,
    fun hmode => ?_, fun hn hgen => ?_⟩
  · rw [hplane, PlaneReg.filled_written]
  · rw [hplane, PlaneReg.filled_value, evaluate_of_roundNoIota hmode, lookupRounds_eq_foldl]
  · rw [hplane, PlaneReg.filled_value, evaluate_of_fullPermutation hmode]
  · rw [afterEval_stateValue, evaluate_of_tnr_zero hn hgen, hplanes.stateValue_of_narrow hlogw]
    rfl

/-- Settles O30: EVAL writes one plane, and `Evaluate` looks at nothing that EVAL writes. -/
theorem evalChangesOnlyItsPlane : Obligations.EvalChangesOnlyItsPlane := by
  intro s t h htab hlogw
  obtain rfl := Host.Outcome.next.inj ((exec_eval_eq_afterEval hlogw htab).symm.trans h)
  have hf := afterEval_tableFrame s
  refine ⟨afterEval_eq s, State.tblRead_congr hf.build hf.tnr hf.tbl, State.storedImage_congr hf.store, hf.planes,
    fun z hz => afterEval_plane_other s hz, fun u hu => ?_⟩
  have hfu := hf.trans (writePlane_tableFrame (afterEval s) 0 (s.plane 0).value)
  obtain rfl := Host.Outcome.next.inj
    ((exec_eval_eq_afterEval (hfu.build ▸ hlogw) (hfu.tab.trans htab)).symm.trans hu)
  refine afterEval_plane_zero_congr hfu fun hpos => ?_
  rw [State.plane_writePlane_same _ (hf.planes ▸ hpos), PlaneReg.filled_value]

/-- Settles O33: TREAD is the plane command of the table's lookup. -/
theorem treadReadsOneEntry : Obligations.TreadReadsOneEntry :=
  fun _ hlogw htab => ⟨_, exec_tread_of_tab (State.hasLut_iff.2 hlogw) htab, rfl, rfl, rfl, fun _ => rfl, fun _ => rfl⟩

end Sys2Proof.Machine
end

section
/-! Issue, pending, performed: the CMD and CTRL writes, the engine's perform step, and how long a command can be pending
(44_system.md R240, R242 to R244, R246). -/

namespace Sys2Proof.Machine

/-! ## Issue and CTRL (44_system.md R240, R246) -/

/-- Settles O47: the access at offset 4 is an issue, and BUSY is PEND's. -/
theorem cmdWriteIssuesTheCommand : Obligations.CmdWriteIssuesTheCommand :=
  fun _ v hp => ⟨hostWrite_of_regAt (reg := .cmd) hp (by decide) (by decide) rfl v, statusWord_busy _⟩

/-- Settles O48: the access at offset 0 is a CTRL write, whose NR field is `v[7:0]`. -/
theorem ctrlWriteSetsNrAndClearsErr : Obligations.CtrlWriteSetsNrAndClearsErr := by
  intro s v hp
  rw [← BitVec.setWidth_eq_extractLsb' (x := v) (by decide : 8 ≤ 32)]
  exact hostWrite_of_regAt (reg := .ctrl) hp (by decide) (by decide) rfl v

/-! ## The perform step (44_system.md R242) -/

/-- With no turn listed and a command pending the engine moves (log 1). -/
theorem step_of_unscheduled {s : State} (hp : s.pend.isSome = true) (hs : s.schedule = []) : step s = performStep s := by
  rw [step, hs]
  exact if_pos hp

theorem step_of_engineTurn {s : State} {rest : List Turn} (hs : s.schedule = .engine :: rest) :
    step s = performStep { s with schedule := rest } := by
  rw [step, hs]

theorem step_of_hostTurn {s : State} {rest : List Turn} (hs : s.schedule = .host :: rest) :
    step s = hostStep { s with schedule := rest } := by
  rw [step, hs]

theorem step_of_resetTurn {s : State} {edits : List StoreEdit} {rest : List Turn}
    (hs : s.schedule = .reset edits :: rest) : step s = .next (resetStep edits { s with schedule := rest }) := by
  rw [step, hs]

/-- The perform step of a word that decodes is its command's meaning with PEND empty. -/
theorem performStep_of_decode {s : State} {w : Word} {i : Instr} (hp : s.pend = some w) (hd : decode w = .ok i) :
    performStep s = exec i { s with pend := none } := by
  simp only [performStep, hp, hd]

/-- Settles O6: the engine's step is its perform step, whichever way the turn came to it. -/
theorem stepPerformsTheDecodedCommand : Obligations.StepPerformsTheDecodedCommand := by
  intro s w i hp hd
  refine ⟨fun hs => ?_, fun rest hs => ?_⟩
  · exact (step_of_unscheduled (by simp [hp]) hs).trans (performStep_of_decode hp hd)
  · exact (step_of_engineTurn hs).trans (performStep_of_decode (s := { s with schedule := rest }) hp hd)

/-- Settles O40: NOP has the empty meaning. -/
theorem nopChangesNothing : Obligations.NopChangesNothing := fun _ => rfl

/-! ## How long a command is pending (44_system.md R243) -/

/-- The perform step of a pending word, command or not, completes and leaves PEND empty. -/
theorem performStep_completes {s : State} (hp : s.pend.isSome = true) : ∃ t, performStep s = .next t ∧ t.pend = none := by
  obtain ⟨hnone, -⟩ | ⟨w, i, -, -, hperf⟩ | ⟨w, e, -, -, hperf⟩ := performStep_cases s
  · simp [hnone] at hp
  · obtain ⟨t, ht⟩ := exec_next i { s with pend := none }
    exact ⟨t, hperf.trans ht, (exec_frame ht).pend⟩
  · exact ⟨_, hperf, (raiseError_frame _ _).pend⟩

theorem resetStep_pend (edits : List StoreEdit) (s : State) : (resetStep edits s).pend = none := rfl

@[simp] theorem writeReg_schedule (v : Word) (s : State) (reg : WindowReg) : (writeReg v s reg).schedule = s.schedule := by
  cases reg <;> rfl

/-- The host does not touch the turns to come (log 1). -/
theorem hostStep_schedule {s t : State} (h : hostStep s = .next t) : t.schedule = s.schedule := by
  obtain ⟨-, rfl⟩ | ⟨off, width, reg, -, -, rfl⟩ | ⟨off, width, v, reg, -, -, rfl⟩ | ⟨-, rfl⟩ := hostStep_next h
  · rfl
  · rfl
  · simp
  · split <;> rfl

/-- The host's step goes on or stops with a fault: no access is without a meaning (60_exceptions.md R268). -/
theorem hostStep_next_or_fault (s : State) : (∃ t, hostStep s = .next t) ∨ ∃ f, hostStep s = .fault f := by
  unfold hostStep
  split
  · exact .inl ⟨_, rfl⟩
  · unfold hostRead
    split
    · exact .inr ⟨_, rfl⟩
    · exact .inl ⟨_, rfl⟩
  · unfold hostWrite
    split
    · exact .inr ⟨_, rfl⟩
    · exact .inl ⟨_, rfl⟩
  · exact .inl ⟨_, rfl⟩

/-- With a command pending a step empties PEND, or it is the host's: then it uses up its listed turn, or stops the run. -/
theorem step_of_pending {s : State} (hp : s.pend.isSome = true) :
    (∃ t, step s = .next t ∧ t.pend = none) ∨
      ∃ rest, s.schedule = .host :: rest ∧ ((∃ t, step s = .next t ∧ t.schedule = rest) ∨ ∃ f, step s = .fault f) := by
  cases hs : s.schedule with
  | nil =>
    rw [step_of_unscheduled hp hs]
    exact .inl (performStep_completes hp)
  | cons turn rest =>
    cases turn with
    | engine =>
      rw [step_of_engineTurn hs]
      exact .inl (performStep_completes hp)
    | host =>
      rw [step_of_hostTurn hs]
      exact .inr ⟨rest, rfl, (hostStep_next_or_fault _).imp_left fun ⟨t, ht⟩ => ⟨t, ht, hostStep_schedule ht⟩⟩
    | reset edits => exact .inl ⟨_, step_of_resetTurn hs, resetStep_pend edits _⟩

theorem run_succ_of_next {M : Host.Core} {s t : M.State} (h : M.step s = .next t) (k : Nat) :
    M.run (k + 1) s = M.run k t := by
  rw [Host.Core.run, h]

theorem run_one_of_fault {M : Host.Core} {s : M.State} {f : M.Fault} (h : M.step s = .fault f) : M.run 1 s = .fault f := by
  rw [Host.Core.run, h]

/-- Settles O58, by induction on the turns listed: a step that leaves the command pending is the host's and uses one up. -/
theorem pendingCommandsComplete : Obligations.PendingCommandsComplete := by
  intro s hp
  induction hturns : s.schedule generalizing s with
  | nil =>
    obtain ⟨t, ht, hdone⟩ := performStep_completes hp
    exact .inl ⟨1, le_rfl, t, run_succ_of_next (M := core) ((step_of_unscheduled hp hturns).trans ht) 0, hdone⟩
  | cons turn rest ih =>
    rw [List.length_cons]
    obtain ⟨t, ht, hdone⟩ | ⟨rest', hhost, ⟨t, ht, hleft⟩ | ⟨f, hf⟩⟩ := step_of_pending hp
    · exact .inl ⟨1, by omega, t, run_succ_of_next (M := core) ht 0, hdone⟩
    · have hrun := run_succ_of_next (M := core) ht
      obtain rfl : rest = rest' := (List.cons.inj (hturns.symm.trans hhost)).2
      cases hpend : t.pend with
      | none => exact .inl ⟨1, by omega, t, hrun 0, hpend⟩
      | some w =>
        obtain ⟨k, hk, u, hu, hdone⟩ | ⟨k, hk, f, hf⟩ := ih t (by simp [hpend]) hleft
        · exact .inl ⟨k + 1, by omega, u, (hrun k).trans hu, hdone⟩
        · exact .inr ⟨k + 1, by omega, f, (hrun k).trans hf⟩
    · exact .inr ⟨1, by omega, f, run_one_of_fault (M := core) hf⟩

end Sys2Proof.Machine
end

section
/-! Commands that raise an error: the word that is none, the operand out of range, the table command without its build or
its table, and which of these applies (60_exceptions.md R261 to R266). -/

namespace Sys2Proof.Machine

/-! ## Raising (60_exceptions.md R265) -/

/-- Raising an error sets ERR if it was NONE, and does nothing else. -/
theorem raiseError_eq_withError (code : ErrCode) (s : State) : raiseError code s = withError code s := by
  unfold raiseError withError
  split <;> rfl

/-! ## ILLEGAL_COMMAND (60_exceptions.md R261) -/

/-- A word that decodes matches a row of the opcode map (30_encoding.md R104). -/
theorem exists_opcodeRow_of_decode {w : Word} {i : Instr} (h : decode w = .ok i) :
    ∃ row ∈ opcodeTable, w &&& row.mask = row.pattern := by
  cases i with
  | prot n => exact ⟨⟨0xFFFFF8FF, 0x05⟩, by decide, (decode_eq_prot_iff.1 h).1⟩
  | iota k => exact ⟨⟨0xFFFF00FF, 0x15⟩, by decide, (decode_eq_iota_iff.1 h).1⟩
  | round k => exact ⟨⟨0xFFFF00FF, 0x16⟩, by decide, (decode_eq_round_iff.1 h).1⟩
  | _ =>
    obtain ⟨-, hw⟩ := decode_eq_ok_iff_encode.1 h
    refine ⟨⟨BitVec.allOnes 32, w⟩, ?_, BitVec.and_allOnes⟩
    rw [← hw]
    decide

/-- The perform step of a word that is no command. -/
theorem performStep_of_reject {s : State} {w : Word} {e : Reject} (hp : s.pend = some w) (hd : decode w = .error e) :
    performStep s = .next (withError .illegalCommand { s with pend := none }) := by
  rw [← raiseError_eq_withError]
  simp only [performStep, hp, hd]

/-- Settles O4: a word that matches no row does not decode. -/
theorem illegalWordsRaiseIllegalCommand : Obligations.IllegalWordsRaiseIllegalCommand := by
  intro s w hp hrows
  cases hd : decode w with
  | ok i =>
    obtain ⟨row, hrow, hmatch⟩ := exists_opcodeRow_of_decode hd
    exact absurd hmatch (hrows row hrow)
  | error e => exact performStep_of_reject hp hd

/-! ## ILLEGAL_OPERAND (60_exceptions.md R263) -/

/-- Settles O9: PROT takes the branch of its operand check. -/
theorem protRejectsAmountsAboveFour : Obligations.ProtRejectsAmountsAboveFour := by
  intro s n hn
  rw [← raiseError_eq_withError]
  exact if_pos hn

/-! ## NO_LUT and the TAB errors (60_exceptions.md R262, R264) -/

/-- Settles O23: the first check of each LUT command is the build's. -/
theorem lutCommandsNeedTheNarrowBuild : Obligations.LutCommandsNeedTheNarrowBuild := by
  intro s i hlogw hi
  have hwide : (!s.hasLut) = true := by simpa using mt State.hasLut_iff.1 hlogw
  rw [← raiseError_eq_withError]
  obtain rfl | rfl | rfl | rfl := hi <;> exact if_pos hwide

/-- Settles O24: in the narrow build the check of TAB comes next, with its two outcomes exchanged for CONSTRUCT. -/
theorem tableCommandsNeedTheirTabState : Obligations.TableCommandsNeedTheirTabState := by
  intro s hlogw
  have hnarrow : ¬(!s.hasLut) = true := by simp [State.hasLut_iff, hlogw]
  simp only [← raiseError_eq_withError]
  refine ⟨fun htab i hi => ?_, fun htab => (if_neg hnarrow).trans (if_pos htab)⟩
  have huntab : (!s.tab) = true := by simp [htab]
  obtain rfl | rfl | rfl := hi <;> exact (if_neg hnarrow).trans (if_pos huntab)

/-! ## The order of the checks (60_exceptions.md R266) -/

/-- Settles O39: a word that does not decode reaches no command's checks; those of a command are O23, O9 and O24, at the
state with PEND empty, whose build and TAB are the same. -/
theorem errorsAreCheckedInOrder : Obligations.ErrorsAreCheckedInOrder := by
  intro s w hp
  have table := tableCommandsNeedTheirTabState { s with pend := none }
  refine ⟨fun e hd => performStep_of_reject hp hd, fun i hd hi hlogw => ?_, fun n hd hn => ?_,
    fun i hd hi hlogw htab => ?_, fun hd hlogw htab => ?_⟩ <;> rw [performStep_of_decode hp hd]
  · exact lutCommandsNeedTheNarrowBuild _ i hlogw hi
  · exact protRejectsAmountsAboveFour _ n hn
  · exact (table hlogw).1 htab i hi
  · exact (table hlogw).2 htab

end Sys2Proof.Machine
end

section
/-! Accesses while a command is pending and in the busy window after it, and what a reset leaves
(70_reset_and_hazards.md R290 to R294, R300, R301). -/

namespace Sys2Proof.Machine

/-! ## Accesses while BUSY = 1 (70_reset_and_hazards.md R301) -/

/-- An admitted access but a read of STATUS is BusyHazard while a command is pending, at whatever offset (log 10). -/
theorem accessReg_of_pending {s : State} {off : Nat} (hp : s.pend.isSome = true) (hw : off < 0x200) (h4 : off % 4 = 0) :
    accessReg s off .w32 false = .error .busyHazard := by
  have ha : admitted off .w32 = true := by simp [admitted, h4, hw]
  simp [accessReg, ha, hp]

/-- A read that completes while a command is pending is one of STATUS. -/
theorem hostRead_next_of_pending {s t : State} {off : Nat} {width : Width} (hp : s.pend.isSome = true)
    (h : hostRead off width s = .next t) : t = afterRead s .status := by
  unfold hostRead at h
  split at h
  · cases h
  · next reg hacc =>
    obtain ⟨-, hquiet, hr⟩ := accessReg_ok hacc
    obtain rfl : off = 0x008 := beq_iff_eq.1 (hquiet hp)
    obtain rfl : reg = .status := (Option.some.inj hr).symm
    exact (Host.Outcome.next.inj h).symm.trans (advanceHost_read s .status)

/-! ## Accesses in the busy window (70_reset_and_hazards.md R300) -/

/-- STATUS is at offset 8 only (20_memory.md R61). -/
theorem off_of_regAt_status {b : Build} {off : Nat} (h : regAt b off = some .status) : off = 0x008 := by
  unfold regAt at h
  split_ifs at h <;> cases h
  assumption

/-- A write that answers a next state reached a register (44_system.md R241). -/
theorem hostWrite_next {s t : State} {off : Nat} {width : Width} {v : Word} (h : hostWrite off width v s = .next t) :
    ∃ reg, regAt s.build off = some reg ∧ t = writeReg v (afterAccess s) reg := by
  unfold hostWrite at h
  split at h
  · cases h
  · next reg hacc =>
    obtain ⟨-, -, hr⟩ := accessReg_ok hacc
    rw [advanceHost_writeReg, advanceHost_noteHazard] at h
    exact ⟨reg, hr, (Host.Outcome.next.inj h).symm⟩

/-- Settles O46: while BUSY = 1 the access is shut out; in the busy window the state after the access carries the record. -/
theorem accessesWhileBusyFault : Obligations.AccessesWhileBusyFault := by
  refine ⟨fun s off v hp hw h4 => ?_, fun s t off width v hwin => ⟨fun h => ?_, fun hoff h => ?_⟩, fun s t v h => ?_,
    fun s t h => ?_, fun s t off width hp h => ?_⟩
  · have hf := accessReg_of_pending hp hw h4
    refine ⟨hostWrite_of_fault hf v, fun hoff => hostRead_of_fault ?_⟩
    rwa [beq_false_of_ne (show off ≠ regOffset .status from hoff)]
  · obtain ⟨reg, -, rfl⟩ := hostWrite_next h
    simp [afterAccess, hwin]
  · obtain ⟨reg, hr, rfl⟩ := hostRead_next h
    have hne : reg ≠ .status := fun hreg => hoff (off_of_regAt_status (hreg ▸ hr))
    simp [afterRead, hwin, hne]
  · obtain ⟨reg, hr, rfl⟩ := hostWrite_next h
    obtain rfl : reg = .cmd := (Option.some.inj hr).symm
    rfl
  · obtain ⟨-, rfl⟩ | ⟨-, hf⟩ := performStep_frame h
    · exact ⟨rfl, rfl⟩
    · exact ⟨hf.busyWindow, hf.busyHazardSeen⟩
  · obtain rfl := hostRead_next_of_pending hp h
    have hsome : s.pend ≠ none := Option.isSome_iff_ne_none.1 hp
    simp [afterRead, hsome]

/-! ## The reset values (70_reset_and_hazards.md R290) -/

/-- NR_DEFAULT fits in the 8 bits of NR in every build (00_scope.md R12). -/
theorem nrDefault_toNat (b : Build) : b.nrDefault.toNat = 12 + 2 * b.logw.val := by
  have hlogw := b.logw.isLt
  rw [Build.nrDefault, BitVec.toNat_ofNat]
  omega

/-- Every state plane after reset has its written mark clear (10_state.md R44). -/
theorem unwritten_of_mem_replicate {n : Nat} {q : PlaneReg} (h : q ∈ List.replicate n PlaneReg.atReset) :
    q.written = false := by
  rw [List.eq_of_mem_replicate h]
  rfl

@[simp] theorem resetStep_build (edits : List StoreEdit) (s : State) : (resetStep edits s).build = s.build := by
  simp [resetStep]

theorem resetStep_planes (edits : List StoreEdit) (s : State) :
    (resetStep edits s).planes = List.replicate s.build.lanes PlaneReg.atReset := by
  simp [resetStep]

/-- A build's reset state is what a reset makes of it. -/
theorem resetStep_resetOf (b : Build) : resetStep [] (State.resetOf b) = State.resetOf b :=
  resetStep_of_idle rfl

/-- Settles O56: the reset state is a reset's result, and its store is empty. -/
theorem resetMeetsTheInvariant : Obligations.ResetMeetsTheInvariant := by
  have hwf (b : Build) : (State.resetOf b).wf = true := by
    rw [State.wf_iff, ← resetStep_resetOf]
    exact resetStep_invariant (s := State.resetOf b) rfl []
  exact ⟨hwf, hwf Config.build⟩

/-! ## The store across a reset (70_reset_and_hazards.md R293, R294) -/

/-- A pending command that would save is a SAVE with its table, or a CONSTRUCT that finds no image (43_lut.md R205, R215). -/
theorem State.pendingSave_cases {s : State} {nr : BitVec 8} {img : Image} (h : s.pendingSave = some (nr, img)) :
    ∃ w, s.pend = some w ∧ s.build.logw = 0 ∧
      ((decode w = .ok .save ∧ s.tab = true ∧ nr = s.tnr) ∨
        (decode w = .ok .construct ∧ s.tab = false ∧ s.storedImage s.nr = none ∧ nr = s.nr)) := by
  unfold State.pendingSave at h
  split at h
  · cases h
  · next w hw =>
    split at h
    · next hd =>
      split at h
      · next hsaves =>
        obtain ⟨hlut, htab⟩ := Bool.and_eq_true_iff.1 hsaves
        cases h
        exact ⟨w, hw, State.hasLut_iff.1 hlut, .inl ⟨hd, htab, rfl⟩⟩
      · cases h
    · next hd =>
      split at h
      · next hsaves =>
        simp only [Bool.and_eq_true, Bool.not_eq_true', Option.isNone_iff_eq_none] at hsaves
        obtain ⟨⟨hlut, htab⟩, himg⟩ := hsaves
        cases h
        exact ⟨w, hw, State.hasLut_iff.1 hlut, .inr ⟨hd, htab, himg, rfl⟩⟩
      · cases h
    · cases h

theorem State.storedImage_abandon_other {s : State} {key : BitVec 8}
    (hk : ∀ nr img, s.pendingSave = some (nr, img) → key ≠ nr) : s.abandon.storedImage key = s.storedImage key := by
  unfold State.abandon
  split
  · rfl
  · next nr img hsave => exact s.storedImage_afterSave_other (hk nr img hsave) img

theorem State.storedImage_editStore_other {key : BitVec 8} {edits : List StoreEdit} (hk : ∀ e ∈ edits, e.key ≠ key)
    (s : State) : (s.editStore edits).storedImage key = s.storedImage key := by
  induction edits generalizing s with
  | nil => rfl
  | cons e es ih =>
    obtain ⟨he, hes⟩ := List.forall_mem_cons.1 hk
    rw [State.editStore_cons, ih hes]
    exact s.storedImage_storeLeftover_other he.symm e.content

/-- A reset leaves the image under a key that no abandoned save and no change by the platform reaches. -/
theorem resetStep_storedImage_other {s : State} {edits : List StoreEdit} {key : BitVec 8}
    (hedits : ∀ e ∈ edits, e.key ≠ key) (hsave : ∀ nr img, s.pendingSave = some (nr, img) → key ≠ nr) :
    (resetStep edits s).storedImage key = s.storedImage key :=
  calc (resetStep edits s).storedImage key
    _ = (s.abandon.editStore edits).storedImage key := State.storedImage_congr rfl key
    _ = s.abandon.storedImage key := State.storedImage_editStore_other hedits _
    _ = s.storedImage key := State.storedImage_abandon_other hsave

/-- Settles O55: the reset values register by register, and the store key by key. -/
theorem resetLeavesTheSpecifiedState : Obligations.ResetLeavesTheSpecifiedState := by
  refine ⟨fun b => ?_, fun s edits => ?_⟩
  · exact ⟨nrDefault_toNat b, rfl, rfl, rfl, rfl, rfl, List.length_replicate, fun q => unwritten_of_mem_replicate,
      rfl, rfl, rfl⟩
  · have hbuild := resetStep_build edits s
    have hplanes := resetStep_planes edits s
    refine ⟨hbuild ▸ nrDefault_toNat (resetStep edits s).build, rfl, rfl, rfl, rfl, rfl, ?_, ?_, rfl, rfl, rfl, hbuild, rfl,
      ?_, ?_, ?_, ?_⟩
    · rw [HasPlanes, hplanes, hbuild, List.length_replicate]
    · rw [hplanes]
      exact fun q => unwritten_of_mem_replicate
    · simp [resetStep]
    · simp [resetStep]
    · rintro hnone rfl key
      exact resetStep_storedImage_other (by simp) (by simp [hnone])
    · intro key hedits hsave hconstruct
      refine resetStep_storedImage_other hedits fun nr img hpending => ?_
      obtain ⟨w, hw, hlogw, ⟨hd, htab, rfl⟩ | ⟨hd, htab, himg, rfl⟩⟩ := State.pendingSave_cases hpending
      · exact hsave w hw hd hlogw htab
      · exact hconstruct w hw hd hlogw htab himg

end Sys2Proof.Machine
end
